-- ==== Sys2Proof/Syntax.lean ====
section
/-! DEFINITION. The sixteen commands (spec/30_encoding.md R91 to R93; spec/opcode_table.json), one
constructor per row. An operand has the width of its field (R91), so every term can be encoded; a
class field is the class it names. Signedness is the meaning's affair (Machine/Operands.lean, R92). -/

namespace Sys2Proof

/-- The class of a DC table: 0 = luma, 1 = chroma (R10, R35). -/
inductive DcClass where
  | luma
  | chroma
deriving DecidableEq, Repr, Inhabited

/-- The commands. -/
inductive Instr where
  /-- `TINIT` (R142). -/
  | tinit
  /-- `CFG pixfmt, width, height` (R210). -/
  | cfg (pixfmt : BitVec 4) (width height : BitVec 16)
  /-- `LDDCP cls, cat, len, code` (R140). -/
  | lddcp (cls : DcClass) (cat : BitVec 4) (len : BitVec 5) (code : BitVec 16)
  /-- `LDACE idx, run, level, len, code` (R141). -/
  | ldace (idx : BitVec 7) (run : BitVec 6) (level : BitVec 7) (len : BitVec 5) (code : BitVec 16)
  /-- `LDSCAN k, j` (R180). -/
  | ldscan (k j : BitVec 6)
  /-- `LDCOEF blk, pos, value` (R181). -/
  | ldcoef (blk : BitVec 4) (pos : BitVec 6) (value : BitVec 16)
  /-- `LDLAST blk, last` (R182). -/
  | ldlast (blk : BitVec 4) (last : BitVec 6)
  /-- `PUTB n, value` (R132). -/
  | putb (n : BitVec 6) (value : BitVec 32)
  /-- `FLUSH` (R133). -/
  | flush
  /-- `ENCDC cls, diff` (R171). -/
  | encdc (cls : DcClass) (diff : BitVec 32)
  /-- `ENCBLK n` (R184). -/
  | encblk (n : BitVec 4)
  /-- `ENCMB` (R201). -/
  | encmb
  /-- `BEGINP qscale` (R211). -/
  | beginp (qscale : BitVec 8)
  /-- `ENDSL` (R212). -/
  | endsl
  /-- `ENDP` (R213). -/
  | endp
  /-- `ABORTP` (R214). -/
  | abortp
deriving DecidableEq, Repr

/-- The assigned opcodes of R93, one per row of the table. -/
inductive Opcode where
  | tinit | cfg | lddcp | ldace | ldscan | ldcoef | ldlast | putb | flush
  | encdc | encblk | encmb | beginp | endsl | endp | abortp
deriving DecidableEq, Repr

/-- The row of the opcode table a command belongs to. -/
def Instr.opcode : Instr → Opcode
  | .tinit => .tinit
  | .cfg _ _ _ => .cfg
  | .lddcp _ _ _ _ => .lddcp
  | .ldace _ _ _ _ _ => .ldace
  | .ldscan _ _ => .ldscan
  | .ldcoef _ _ _ => .ldcoef
  | .ldlast _ _ => .ldlast
  | .putb _ _ => .putb
  | .flush => .flush
  | .encdc _ _ => .encdc
  | .encblk _ => .encblk
  | .encmb => .encmb
  | .beginp _ => .beginp
  | .endsl => .endsl
  | .endp => .endp
  | .abortp => .abortp

end Sys2Proof
end

