-- ==== Sys2Proof/Word.lean ====
section
/-! DEFINITION. The words of the block: the 64-bit command word and the byte, and the view of an
integer as the list of bits the bit writer sends (spec/00_scope.md R6, R7; 30_encoding.md R90). -/

namespace Sys2Proof

/-- One command word `CW[63:0]` (R90): a value, with no byte order. -/
abbrev Word := BitVec 64

/-- One byte of `OUT` (R41). -/
abbrev Byte := BitVec 8

/-- The `n` low bits of `v`, bit 0 first: the order in which `PutBits(n, v)` sends them (R61, R130). -/
def bitsOf (n v : Nat) : List Bool := (List.range n).map v.testBit

/-- The unsigned integer whose bit `k` is element `k` of the list (R135's reading of a bit string). -/
def ofBits : List Bool → Nat
  | [] => 0
  | b :: bs => b.toNat + 2 * ofBits bs

/-- `floor_log2(x)` for `x ≥ 1` (R7). -/
def floorLog2 (x : Nat) : Nat := Nat.log2 x

/-- `bitrev(c, len)`: the integer whose bit `i` is bit `len-1-i` of `c` (R7, R113). -/
def bitrev (c len : Nat) : Nat := ofBits (bitsOf len c).reverse

end Sys2Proof
end

