-- ==== Sys2Proof/Decode.lean ====
section
/-! DEFINITION. Command words to commands and back (spec/30_encoding.md R90 to R94, R113): the opcode
map of R93 with its match and mask words, the decoder, total on every 64-bit word, and the encoder. -/

namespace Sys2Proof

/-- The unsigned field `CW[lo+len-1 : lo]` (R6, R91). -/
def field (w : Word) (lo len : Nat) : BitVec len := w.extractLsb' lo len

/-- The class a one-bit class field names (R140, R171). -/
def DcClass.ofBit (b : BitVec 1) : DcClass := if b = 0#1 then .luma else .chroma

/-- The one-bit field of a class. -/
def DcClass.bit : DcClass → BitVec 1
  | .luma => 0#1
  | .chroma => 1#1

/-- All rows of the opcode map, in the table's order. -/
def Opcode.all : List Opcode :=
  [.tinit, .cfg, .lddcp, .ldace, .ldscan, .ldcoef, .ldlast, .putb, .flush,
   .encdc, .encblk, .encmb, .beginp, .endsl, .endp, .abortp]

/-- `CW[63:56]` of each row (R93). -/
def Opcode.code : Opcode → BitVec 8
  | .tinit => 0x01#8
  | .cfg => 0x02#8
  | .lddcp => 0x03#8
  | .ldace => 0x04#8
  | .ldscan => 0x05#8
  | .ldcoef => 0x06#8
  | .ldlast => 0x07#8
  | .putb => 0x10#8
  | .flush => 0x11#8
  | .encdc => 0x20#8
  | .encblk => 0x21#8
  | .encmb => 0x22#8
  | .beginp => 0x30#8
  | .endsl => 0x31#8
  | .endp => 0x32#8
  | .abortp => 0x33#8

/-- The `match` column of R93. -/
def Opcode.matchWord : Opcode → Word
  | .tinit => 0x0100000000000000#64
  | .cfg => 0x0200000000000000#64
  | .lddcp => 0x0300000000000000#64
  | .ldace => 0x0400000000000000#64
  | .ldscan => 0x0500000000000000#64
  | .ldcoef => 0x0600000000000000#64
  | .ldlast => 0x0700000000000000#64
  | .putb => 0x1000000000000000#64
  | .flush => 0x1100000000000000#64
  | .encdc => 0x2000000000000000#64
  | .encblk => 0x2100000000000000#64
  | .encmb => 0x2200000000000000#64
  | .beginp => 0x3000000000000000#64
  | .endsl => 0x3100000000000000#64
  | .endp => 0x3200000000000000#64
  | .abortp => 0x3300000000000000#64

/-- The `mask` column of R93: the opcode and every reserved bit. -/
def Opcode.mask : Opcode → Word
  | .tinit => 0xFFFFFFFFFFFFFFFF#64
  | .cfg => 0xFFFFFFF000000000#64
  | .lddcp => 0xFFFEF0E0FFFF0000#64
  | .ldace => 0xFF80C080FFE00000#64
  | .ldscan => 0xFFFFFFC0FFFFFFC0#64
  | .ldcoef => 0xFFFFF0C0FFFF0000#64
  | .ldlast => 0xFFFFF0FFFFFFFFC0#64
  | .putb => 0xFFFFFFC000000000#64
  | .flush => 0xFFFFFFFFFFFFFFFF#64
  | .encdc => 0xFFFFFFFE00000000#64
  | .encblk => 0xFFFFFFFFFFFFFFF0#64
  | .encmb => 0xFFFFFFFFFFFFFFFF#64
  | .beginp => 0xFFFFFFFFFFFFFF00#64
  | .endsl => 0xFFFFFFFFFFFFFFFF#64
  | .endp => 0xFFFFFFFFFFFFFFFF#64
  | .abortp => 0xFFFFFFFFFFFFFFFF#64

/-- The mnemonic of each row (R93). -/
def Opcode.mnemonic : Opcode → String
  | .tinit => "TINIT"
  | .cfg => "CFG"
  | .lddcp => "LDDCP"
  | .ldace => "LDACE"
  | .ldscan => "LDSCAN"
  | .ldcoef => "LDCOEF"
  | .ldlast => "LDLAST"
  | .putb => "PUTB"
  | .flush => "FLUSH"
  | .encdc => "ENCDC"
  | .encblk => "ENCBLK"
  | .encmb => "ENCMB"
  | .beginp => "BEGINP"
  | .endsl => "ENDSL"
  | .endp => "ENDP"
  | .abortp => "ABORTP"

/-- A word spells the command of a row when `(CW & mask) = match` (R93). -/
def Opcode.matchesWord (o : Opcode) (w : Word) : Bool := decide (w &&& o.mask = o.matchWord)

/-- The row whose opcode byte is `b`, if one is assigned (R93, R94). -/
def Opcode.ofByte (b : BitVec 8) : Option Opcode := Opcode.all.find? fun o => decide (o.code = b)

/-- The command of a row with the operand fields of `w` (R91). -/
def Opcode.operands (w : Word) : Opcode → Instr
  | .tinit => .tinit
  | .cfg => .cfg (field w 32 4) (field w 16 16) (field w 0 16)
  | .lddcp => .lddcp (.ofBit (field w 48 1)) (field w 40 4) (field w 32 5) (field w 0 16)
  | .ldace => .ldace (field w 48 7) (field w 40 6) (field w 32 7) (field w 16 5) (field w 0 16)
  | .ldscan => .ldscan (field w 32 6) (field w 0 6)
  | .ldcoef => .ldcoef (field w 40 4) (field w 32 6) (field w 0 16)
  | .ldlast => .ldlast (field w 40 4) (field w 0 6)
  | .putb => .putb (field w 32 6) (field w 0 32)
  | .flush => .flush
  | .encdc => .encdc (.ofBit (field w 32 1)) (field w 0 32)
  | .encblk => .encblk (field w 0 4)
  | .encmb => .encmb
  | .beginp => .beginp (field w 0 8)
  | .endsl => .endsl
  | .endp => .endp
  | .abortp => .abortp

/-- Why a word is illegal (R94): its opcode is not assigned, or a reserved bit of its format is 1. -/
inductive Illegal where
  | unassignedOpcode
  | reservedBitSet
deriving DecidableEq, Repr

/-- The decoder (R93, R94): the row is found by the opcode byte, and the row's mask must then match. -/
def decode (w : Word) : Except Illegal Instr :=
  match Opcode.ofByte (field w 56 8) with
  | none => .error .unassignedOpcode
  | some o => if o.matchesWord w then .ok (o.operands w) else .error .reservedBitSet

/-- The word of a command: opcode, then the fields of its format with zeros between (R91). -/
def encode : Instr → Word
  | .tinit => 0x01#8 ++ 0#56
  | .cfg pixfmt width height => 0x02#8 ++ 0#20 ++ pixfmt ++ width ++ height
  | .lddcp cls cat len code => 0x03#8 ++ 0#7 ++ cls.bit ++ 0#4 ++ cat ++ 0#3 ++ len ++ 0#16 ++ code
  | .ldace idx run level len code =>
      0x04#8 ++ 0#1 ++ idx ++ 0#2 ++ run ++ 0#1 ++ level ++ 0#11 ++ len ++ code
  | .ldscan k j => 0x05#8 ++ 0#18 ++ k ++ 0#26 ++ j
  | .ldcoef blk pos value => 0x06#8 ++ 0#12 ++ blk ++ 0#2 ++ pos ++ 0#16 ++ value
  | .ldlast blk last => 0x07#8 ++ 0#12 ++ blk ++ 0#34 ++ last
  | .putb n value => 0x10#8 ++ 0#18 ++ n ++ value
  | .flush => 0x11#8 ++ 0#56
  | .encdc cls diff => 0x20#8 ++ 0#23 ++ cls.bit ++ diff
  | .encblk n => 0x21#8 ++ 0#52 ++ n
  | .encmb => 0x22#8 ++ 0#56
  | .beginp qscale => 0x30#8 ++ 0#48 ++ qscale
  | .endsl => 0x31#8 ++ 0#56
  | .endp => 0x32#8 ++ 0#56
  | .abortp => 0x33#8 ++ 0#56

/-- The command the decoder reads from the `nbits` low bits of `w`: every bit of the 64-bit command word
above `nbits` is 0. The word is presented whole and has no byte order (R90, D32). -/
def decodeTableWord (nbits w : Nat) : Option Instr :=
  (decode (BitVec.ofNat 64 (w % 2 ^ nbits))).toOption

end Sys2Proof
end

