-- ==== Sys2Proof/Config.lean ====
section
/-! DEFINITION. What the spec leaves to the implementation (spec/00_scope.md R5) and the values it
leaves open (10_state.md R45; 93_implementation_defined.md U1, U13, U14). An `opaque` constant has no
body: nothing can be proved of its value but what its type says. -/

namespace Sys2Proof

/-- The implementation parameters of R5 that every context sees. -/
structure Params where
  /-- `OUT_CAP`, the size of `OUT` in bytes. -/
  outCap : Nat
  /-- `DC_BASELINE`, a signed 16-bit integer. -/
  dcBaseline : BitVec 16
  /-- `DC_NCAT`, the number of categories of each DC prefix table. -/
  dcNcat : Nat
deriving DecidableEq, Repr, Inhabited

/-- The ranges R5 gives the parameters. -/
abbrev Params.Legal (p : Params) : Prop :=
  7 ≤ p.outCap ∧ p.outCap ≤ 2 ^ 28 ∧ 9 ≤ p.dcNcat ∧ p.dcNcat ≤ 16

namespace Config

/-- The part of `OUT_CAP` above its least value 7 (R5: 7 .. 2^28). OPEN in the spec. -/
opaque outCapAboveLeast : Fin 268435450

/-- `DC_BASELINE` (R5, D8). OPEN in the spec. -/
opaque dcBaseline : BitVec 16

/-- The part of `DC_NCAT` above its least value 9 (R5: 9 .. 16). OPEN in the spec. -/
opaque dcNcatAboveLeast : Fin 8

/-- How many contexts there are besides context 0 (R5: `NCTX ≥ 1`). OPEN in the spec. -/
opaque furtherContexts : Nat

/-- The parameters of the machine `State.reset` starts. -/
def params : Params where
  outCap := outCapAboveLeast.val + 7
  dcBaseline := dcBaseline
  dcNcat := dcNcatAboveLeast.val + 9

/-- What a memory entry of the given width holds after reset number `epoch`: unspecified (R45, U1).
`space` is the `HostRead` number of the memory (R60), `owner` the number of the context it belongs to
(0 for the table unit). A free value. -/
opaque powerOn (width space epoch owner index : Nat) : BitVec width

/-- What `HostRead` returns for a space id that R60 does not list: no rule states a result. A free value. -/
opaque noSuchSpace (space index : Nat) : BitVec 64

end Config
end Sys2Proof
end

