-- ==== Sys2Proof/Machine/Table.lean ====
section
/-! DEFINITION. A memory of a fixed number of entries (spec/10_state.md R33 to R40), held as a `Vector`:
building one from a function of the index, reading and writing an entry. -/

namespace Sys2Proof.Machine

/-- The memory of `n` entries whose entry `i` is `f i`. -/
def Tbl.build {α : Type} (n : Nat) (f : Nat → α) : Vector α n :=
  Vector.mk (Array.mk ((List.range' 0 n).map f)) (by simp)

/-- Entry `i`. No rule reads past the last entry of a memory (R60); the value given there stands for nothing
(log 13). -/
def Tbl.get {α : Type} [Inhabited α] {n : Nat} (v : Vector α n) (i : Nat) : α :=
  if h : i < n then v[i] else default

/-- Writes entry `i`. No rule writes past the last entry of a memory (R60). -/
def Tbl.set {α : Type} {n : Nat} (v : Vector α n) (i : Nat) (a : α) : Vector α n :=
  if h : i < n then v.set i a else v

end Sys2Proof.Machine
end

