-- ==== Sys2Proof/Machine/State.lean ====
section
/-! DEFINITION. The state of the block (spec/10_state.md R20 to R46), the reasons a step can stop, and
the state after reset (R45; 70_reset_and_hazards.md R280). Plain data throughout. -/

namespace Sys2Proof.Machine

open Sys2Proof

/-- The framer state `FSM` (R27). Value 3 never occurs. -/
inductive Fsm where
  | idle
  | inPicture
  | done
deriving DecidableEq, Repr, Inhabited

/-- `CHROMA_FORMAT` (R23). Value 3 never occurs. -/
inductive ChromaFormat where
  /-- 4:2:0, coded 0. -/
  | yuv420
  /-- 4:2:2, coded 1. -/
  | yuv422
  /-- 4:4:4, coded 2. -/
  | yuv444
deriving DecidableEq, Repr, Inhabited

/-- `FAULT_CODE` (R30, R240). Codes 9 .. 255 are never produced. -/
inductive FaultCode where
  /-- 0: no fault. -/
  | clear
  /-- 1 (R241). -/
  | invalidDimensions
  /-- 2 (R242). -/
  | unsupportedPixelFormat
  /-- 3 (R243). -/
  | internalInvariantViolated
  /-- 4 (R244). -/
  | illegalCommand
  /-- 5 (R245). -/
  | contractViolation
  /-- 6 (R246). -/
  | badTable
  /-- 7 (R247). -/
  | outputOverflow
  /-- 8 (R248). -/
  | sliceLengthOverflow
deriving DecidableEq, Repr, Inhabited

/-- `OUT` (R41). `cells` lists the bytes written since the last reset, addresses strictly rising; a byte
that is not listed has not been written since reset and holds its unspecified power-on value (R45),
which `epoch` and `owner` name: `Config.powerOn 8 1 epoch owner address` (log 2). -/
structure OutMem where
  epoch : Nat
  owner : Nat
  cells : List Host.Cell
deriving DecidableEq, Repr, Inhabited

/-- The bit writer (R21) with the memory it writes. -/
structure Writer where
  /-- `OUT`. -/
  out : OutMem
  /-- `BYTE_CURSOR`, 0 .. `OUT_CAP`. -/
  byteCursor : Nat
  /-- `BIT_CURSOR`, 0 .. 7. -/
  bitCursor : Fin 8
deriving DecidableEq, Repr, Inhabited

/-- An entry of `DCPFX` (R35). -/
structure DcpfxEntry where
  len : BitVec 5
  code : BitVec 16
deriving DecidableEq, Repr, Inhabited

/-- An entry of `ACLIST` (R36). -/
structure AceEntry where
  run : BitVec 6
  level : BitVec 7
  len : BitVec 5
  code : BitVec 16
deriving DecidableEq, Repr, Inhabited

/-- An entry of `AC_VLC` (R38). -/
structure VlcEntry where
  code : BitVec 16
  len : BitVec 5
deriving DecidableEq, Repr, Inhabited

/-- The table unit, shared by all contexts (R20). -/
structure TableUnit where
  /-- `DCPFX`, index `16*cls + cat` (R35). -/
  dcpfx : Vector DcpfxEntry 32
  /-- `ACLIST` (R36). -/
  aclist : Vector AceEntry 123
  /-- `DC_LUM_UNI` (R37). -/
  dcLumUni : Vector (BitVec 32) 512
  /-- `DC_CHR_UNI` (R37). -/
  dcChrUni : Vector (BitVec 32) 512
  /-- `AC_VLC` (R38). -/
  acVlc : Vector VlcEntry 123
  /-- `MAX_LEVEL` (R39). -/
  maxLevel : Vector (BitVec 7) 64
  /-- `INDEX_RUN` (R39). -/
  indexRun : Vector (BitVec 7) 64
  /-- `UNI_AC_LEN`, index `128*run + level + 64` (R40). -/
  uniAcLen : Vector (BitVec 8) 8192
  /-- `TABLES_READY` (R28). -/
  ready : Bool
deriving DecidableEq, Repr

/-- One context (R20, R262). -/
structure Context where
  /-- `OUT`, `BYTE_CURSOR`, `BIT_CURSOR` (R21, R41). -/
  wr : Writer
  /-- `QSCALE` (R22). -/
  qscale : BitVec 8
  /-- `CHROMA_FORMAT` (R23). -/
  chromaFormat : ChromaFormat
  /-- `LAST_DC[0..2]`, two's complement (R24). -/
  lastDc : Vector (BitVec 16) 3
  /-- `SCAN[0..63]` (R25). -/
  scan : Vector (BitVec 6) 64
  /-- `SLICE_START`, 0 .. `OUT_CAP` (R26). -/
  sliceStart : Nat
  /-- `FSM` (R27). -/
  fsm : Fsm
  /-- `CFG_VALID` (R29). -/
  cfgValid : Bool
  /-- `WIDTH` (R29). -/
  width : BitVec 16
  /-- `HEIGHT` (R29). -/
  height : BitVec 16
  /-- `FAULT_CODE` (R30). -/
  faultCode : FaultCode
  /-- `FAULT_INFO` (R30). -/
  faultInfo : BitVec 32
  /-- `COEF[0..11][0..63]`, two's complement, index `64*n + pos` (R33). -/
  coef : Vector (BitVec 16) 768
  /-- `LAST[0..11]` (R34). -/
  last : Vector (BitVec 6) 12
deriving DecidableEq, Repr

/-- What the host does to the block between two steps (R90, R262, R280). -/
inductive Input where
  /-- The word `word` is presented on the command port of context number `port`. -/
  | command (port : Nat) (word : Word)
  /-- The reset input is applied. -/
  | reset
deriving DecidableEq, Repr

/-- The whole block. -/
structure State where
  /-- The implementation parameters (R5): the model's own field, changed by no step (log 4). -/
  par : Params
  /-- The table unit. -/
  tab : TableUnit
  /-- The contexts numbered below the one being served, in number order (log 5). -/
  lower : List Context
  /-- The context whose port is being served: its number is the length of `lower`. -/
  ctx : Context
  /-- The contexts numbered above the one being served, in number order. -/
  higher : List Context
  /-- What the host has presented and the block has not served, oldest first (log 6). -/
  inbox : List Input
  /-- How many resets came before: names the power-on values of this reset epoch (log 3). -/
  epoch : Nat
deriving DecidableEq, Repr

/-- Why a step stops without a next state. A fault the SPEC describes (R240) is no such stop: it is a next
state with `FAULT_CODE` set. -/
inductive Fault where
  /-- Raised by serving a word presented on the port of a context number that is not below `NCTX`: the
  spec gives such a port no existence (R262). Safe: the hardware cannot show it (log 7). -/
  | noSuchPort
deriving DecidableEq, Repr

/-- Why an instruction is refused. -/
inductive Refusal where
  /-- Raised by an arm of `exec` whose instruction has no meaning yet; safe. No arm answers it now. -/
  | notModelled (mnemonic : String)
deriving DecidableEq, Repr

/-- The table unit right after reset: `TABLES_READY` = 0, every memory unspecified (R45). -/
def TableUnit.powerUp (epoch : Nat) : TableUnit where
  dcpfx := Tbl.build 32 fun i =>
    let x := Config.powerOn 21 11 epoch 0 i
    ⟨x.extractLsb' 16 5, x.extractLsb' 0 16⟩
  aclist := Tbl.build 123 fun i =>
    let x := Config.powerOn 34 12 epoch 0 i
    ⟨x.extractLsb' 28 6, x.extractLsb' 21 7, x.extractLsb' 16 5, x.extractLsb' 0 16⟩
  dcLumUni := Tbl.build 512 (Config.powerOn 32 2 epoch 0)
  dcChrUni := Tbl.build 512 (Config.powerOn 32 3 epoch 0)
  acVlc := Tbl.build 123 fun i =>
    let x := Config.powerOn 21 4 epoch 0 i
    ⟨x.extractLsb' 0 16, x.extractLsb' 16 5⟩
  maxLevel := Tbl.build 64 (Config.powerOn 7 5 epoch 0)
  indexRun := Tbl.build 64 (Config.powerOn 7 6 epoch 0)
  uniAcLen := Tbl.build 8192 (Config.powerOn 8 7 epoch 0)
  ready := false

/-- Context number `k` right after reset: every register and flag 0, every memory unspecified (R45). -/
def Context.powerUp (epoch k : Nat) : Context where
  wr := ⟨⟨epoch, k, []⟩, 0, 0⟩
  qscale := 0
  chromaFormat := .yuv420
  lastDc := Tbl.build 3 fun _ => 0#16
  scan := Tbl.build 64 (Config.powerOn 6 10 epoch k)
  sliceStart := 0
  fsm := .idle
  cfgValid := false
  width := 0
  height := 0
  faultCode := .clear
  faultInfo := 0
  coef := Tbl.build 768 (Config.powerOn 16 8 epoch k)
  last := Tbl.build 12 (Config.powerOn 6 9 epoch k)

/-- A block with parameters `par` and `further + 1` contexts right after a reset that `epoch` resets came
before (R45, R262, R280). -/
def State.powerUp (par : Params) (further epoch : Nat) (inbox : List Input) : State where
  par := par
  tab := TableUnit.powerUp epoch
  lower := []
  ctx := Context.powerUp epoch 0
  higher := (List.range' 1 further).map (Context.powerUp epoch)
  inbox := inbox
  epoch := epoch

/-- The machine right after reset (R45, R280), nothing presented on any port. -/
def State.reset : State := State.powerUp Config.params Config.furtherContexts 0 []

end Sys2Proof.Machine
end

