-- ==== Sys2Proof/Machine/Flags.lean ====
section
/-! DEFINITION. The flags and the status word: the codes of `FSM`, `CHROMA_FORMAT` and `FAULT_CODE`
(spec/10_state.md R23, R27, R30; 60_exceptions.md R240), the state tests commands make (45_framer.md
R216), and `STATUS` (R31). No command sets a condition code or a carry (R30). -/

namespace Sys2Proof.Machine

/-- The code of `FSM` (R27). -/
def Fsm.code : Fsm → BitVec 2
  | .idle => 0
  | .inPicture => 1
  | .done => 2

/-- The code of `CHROMA_FORMAT` (R23). -/
def ChromaFormat.code : ChromaFormat → BitVec 2
  | .yuv420 => 0
  | .yuv422 => 1
  | .yuv444 => 2

/-- The number of a fault (R240). -/
def FaultCode.code : FaultCode → BitVec 8
  | .clear => 0
  | .invalidDimensions => 1
  | .unsupportedPixelFormat => 2
  | .internalInvariantViolated => 3
  | .illegalCommand => 4
  | .contractViolation => 5
  | .badTable => 6
  | .outputOverflow => 7
  | .sliceLengthOverflow => 8

/-- `FAULTED` (R31): `FAULT_CODE ≠ 0`. -/
def Context.faulted (c : Context) : Bool := decide (c.faultCode ≠ .clear)

/-- `FSM = InPicture`. -/
def Context.inPicture (c : Context) : Bool := decide (c.fsm = .inPicture)

/-- `FSM = Idle or FSM = Done`. -/
def Context.outsidePicture (c : Context) : Bool := decide (c.fsm = .idle) || decide (c.fsm = .done)

/-- `BIT_CURSOR = 0 and BYTE_CURSOR = SLICE_START + 3`: nothing emitted since the last placeholder (R213). -/
def Context.sliceEmpty (c : Context) : Bool :=
  decide (c.wr.bitCursor = 0) && decide (c.wr.byteCursor = c.sliceStart + 3)

/-- `STATUS` (R31): `FSM` in bits 1..0, `TABLES_READY` bit 2, `CFG_VALID` bit 3, `FAULTED` bit 4, the
rest 0. -/
def Context.status (tab : TableUnit) (c : Context) : BitVec 32 :=
  0#27 ++ BitVec.ofBool c.faulted ++ BitVec.ofBool c.cfgValid ++ BitVec.ofBool tab.ready ++ c.fsm.code

end Sys2Proof.Machine
end

