-- ==== Sys2Proof/Machine/Operands.lean ====
section
/-! DEFINITION. Operand forms and the integer arithmetic on operands: signed and unsigned readings
(spec/30_encoding.md R92), the DC category, tail and code (41_tables.md R144), component and class of a
block index (43_block.md R185), block order (44_macroblock.md R200), pixel formats (45_framer.md R210). -/

namespace Sys2Proof.Machine

open Sys2Proof

/-- The `value` operand of `LDCOEF` and every entry of `COEF` and `LAST_DC`: `sext_16` (R24, R33, R92). -/
def sext16 (v : BitVec 16) : Int := v.toInt

/-- The `diff` operand of `ENCDC`: `sext_32` (R92). -/
def sext32 (v : BitVec 32) : Int := v.toInt

/-- `x mod 2^c` (R7): the non-negative residue. -/
def modPow2 (x : Int) (c : Nat) : Nat := (x % (2 ^ c : Int)).toNat

/-- The number of a class: 0 = luma, 1 = chroma (R35). -/
def classNumber : DcClass → Nat
  | .luma => 0
  | .chroma => 1

/-- The category of a DC difference: `floor_log2(max(2·|diff|, 1))` (R7, R144). -/
def dcCategory (diff : Int) : Nat := floorLog2 (max (2 * diff.natAbs) 1)

/-- `diff'` of R144: `diff - 1` for a negative difference. -/
def dcAdjusted (diff : Int) : Int := if diff < 0 then diff - 1 else diff

/-- The tail of a DC code: `diff' mod 2^category` (R144). -/
def dcTail (diff : Int) : Nat := modPow2 (dcAdjusted diff) (dcCategory diff)

/-- The (bit-length, code) of `diff` when `e` is the prefix table entry of its category (R144). -/
def dcCodeFrom (e : DcpfxEntry) (diff : Int) : Nat × Nat :=
  (e.len.toNat + dcCategory diff, e.code.toNat + (dcTail diff <<< e.len.toNat))

/-- A unified DC table entry: bit-length in bits 7..0, code in bits 31..8 (R37). -/
def uniEntry (p : Nat × Nat) : BitVec 32 := BitVec.ofNat 24 p.2 ++ BitVec.ofNat 8 p.1

/-- The bit-length field of a unified DC table entry (R37, R170). -/
def uniLen (e : BitVec 32) : Nat := (e.extractLsb' 0 8).toNat

/-- The code field of a unified DC table entry (R37, R170). -/
def uniCode (e : BitVec 32) : Nat := (e.extractLsb' 8 24).toNat

/-- The component of block index `n`: 0 = Y, 1 = Cb, 2 = Cr (R185). -/
def component (n : Nat) : Nat := if n ≤ 3 then 0 else (n &&& 1) + 1

/-- The DC table class of block index `n` (R185). -/
def blockClass (n : Nat) : DcClass := if n ≤ 3 then .luma else .chroma

/-- `Order(f)`: the wire order of the block indices of a macroblock (R105, R200). -/
def blockOrder : ChromaFormat → List Nat
  | .yuv420 => [0, 1, 2, 3, 4, 5]
  | .yuv422 => [0, 1, 2, 3, 4, 5, 6, 7]
  | .yuv444 => [0, 1, 2, 3, 4, 5, 8, 9, 6, 7, 10, 11]

/-- The format a `pixfmt` operand names; 3 .. 15 name none (R92, R210). -/
def formatOfPixfmt (p : BitVec 4) : Option ChromaFormat :=
  if p = 0#4 then some .yuv420
  else if p = 1#4 then some .yuv422
  else if p = 2#4 then some .yuv444
  else none

/-- The dimension test of `CFG` (R210, R241). -/
def dimensionsValid (width height : BitVec 16) : Bool :=
  decide (width.toNat % 16 = 0) && decide (width.toNat ≤ 65500) && decide (height.toNat ≤ 65500)

/-- The sign bit of a level: 1 for a negative one (R183). -/
def signBit (level : Int) : Nat := if level < 0 then 1 else 0

/-- The range an escape can carry: `level + 2048` in 12 bits (R109, R183; 90_conflicts.md C3). -/
def escapable (level : Int) : Bool := decide (-2048 ≤ level) && decide (level ≤ 2047)

end Sys2Proof.Machine
end

