-- ==== Sys2Proof/Machine/Ops.lean ====
section
/-! DEFINITION. The operations the commands share: reading and writing `OUT` (spec/20_memory.md R68), the
bit writer (40_bitwriter.md R130, R131), taking a fault (60_exceptions.md R250), `require` (00_scope.md
R8), and access to the other memories. There is no return from a fault (R253): only reset clears one. -/

namespace Sys2Proof.Machine

open Sys2Proof

/-! ### `OUT` -/

/-- The byte listed for address `a`, if any. -/
def cellsGet : List Host.Cell → Nat → Option Byte
  | [], _ => none
  | (b, x) :: rest, a => if a = b then some x else cellsGet rest a

/-- Lists byte `x` at address `a`, keeping the addresses rising. -/
def cellsPut : List Host.Cell → Nat → Byte → List Host.Cell
  | [], a, x => [(a, x)]
  | (b, y) :: rest, a, x =>
      if a < b then (a, x) :: (b, y) :: rest
      else if a = b then (a, x) :: rest
      else (b, y) :: cellsPut rest a x

/-- The canonical form of `OUT`: addresses strictly rising. An unlisted byte has no value of its own in the
list, so no entry can repeat one (log 2). -/
abbrev OutMem.WellFormed (m : OutMem) : Prop := m.cells.Pairwise fun p q => p.1 < q.1

/-- `OUT[a]`: the byte last written since reset, else the unspecified power-on value (R45, R76, U1). -/
def OutMem.read (m : OutMem) (a : Nat) : Byte :=
  match cellsGet m.cells a with
  | some x => x
  | none => Config.powerOn 8 1 m.epoch m.owner a

/-- `OUT[a] <- x`. -/
def OutMem.write (m : OutMem) (a : Nat) (x : Byte) : OutMem := { m with cells := cellsPut m.cells a x }

/-- `MemRead(addr, n)` (R68): `n` bytes, little-endian. -/
def OutMem.memRead (m : OutMem) (addr n : Nat) : Nat :=
  ((List.range n).map fun b => (m.read (addr + b)).toNat * 2 ^ (8 * b)).sum

/-- `MemWrite(addr, n, v)` (R68): `OUT[addr+b] <- (v >> 8b) & 0xFF` for `b` in `0 .. n-1`. -/
def OutMem.memWrite (m : OutMem) (addr n v : Nat) : OutMem :=
  (List.range n).foldl (fun m b => m.write (addr + b) (BitVec.ofNat 8 (v >>> (8 * b)))) m

/-! ### The bit writer -/

/-- `8·BYTE_CURSOR + BIT_CURSOR`: `BITPOS` (R32). -/
def Writer.bitPos (w : Writer) : Nat := 8 * w.byteCursor + w.bitCursor.val

/-- Bit `p` of the output: `OUT[floor(p/8)][p mod 8]` (R135). -/
def Writer.bitAt (w : Writer) (p : Nat) : Bool := (w.out.read (p / 8)).getLsbD (p % 8)

/-- One round of the loop of `PutBits` (R130): a byte is cleared when its first bit is written, the bit is
ORed in, the cursor advances. -/
def Writer.putBit (w : Writer) (b : Bool) : Writer where
  out := w.out.write w.byteCursor
    ((if w.bitCursor = 0 then 0#8 else w.out.read w.byteCursor) |||
      ((BitVec.ofBool b).setWidth 8 <<< w.bitCursor.val))
  byteCursor := if w.bitCursor.val + 1 = 8 then w.byteCursor + 1 else w.byteCursor
  bitCursor := if h : w.bitCursor.val + 1 < 8 then ⟨w.bitCursor.val + 1, h⟩ else 0

/-- Appends bits in order, the first into the lowest unused bit (R61). -/
def Writer.emit (w : Writer) (bits : List Bool) : Writer := bits.foldl Writer.putBit w

/-- `FlushBits()` (R131). -/
def Writer.flush (w : Writer) : Writer :=
  if w.bitCursor = 0 then w else { w with bitCursor := 0, byteCursor := w.byteCursor + 1 }

/-! ### Faults -/

/-- Where a fault is raised: `CW[63:56]`, the block index, the scan position (R250). -/
structure Site where
  opcode : BitVec 8
  blk : BitVec 4
  pos : BitVec 6
deriving DecidableEq, Repr

/-- The site of a fault raised outside `EncodeBlock` (R250): block index and scan position 0. -/
def Site.plain (opcode : BitVec 8) : Site := ⟨opcode, 0, 0⟩

/-- The `FAULT_INFO` word of a site: opcode 31..24, block 23..20, position 19..14, 0 below (R250). -/
def Site.info (t : Site) : BitVec 32 := t.opcode ++ t.blk ++ t.pos ++ 0#14

/-- Fault entry, `raise F` (R250): `FAULT_CODE` and `FAULT_INFO` are set and nothing else changes. -/
def Context.raise (c : Context) (f : FaultCode) (t : Site) : Context :=
  { c with faultCode := f, faultInfo := t.info }

/-- How a piece of pseudocode ends: it ran through, or it raised a fault at some point (R8: every write
already made stands). -/
inductive Flow where
  | ran (c : Context)
  | raised (c : Context)
deriving DecidableEq, Repr

/-- The context as the pseudocode left it. -/
def Flow.context : Flow → Context
  | .ran c => c
  | .raised c => c

/-- Statement order (R8): the rest is run unless a fault was raised. -/
def Flow.andThen : Flow → (Context → Flow) → Flow
  | .ran c, k => k c
  | .raised c, _ => .raised c

/-- `require cond` (R8, R245), then the rest. -/
def require (cond : Bool) (t : Site) (c : Context) (k : Context → Flow) : Flow :=
  if cond then k c else .raised (c.raise .contractViolation t)

/-! ### Named updates -/

/-- The context with another bit writer. -/
def Context.setWriter (c : Context) (w : Writer) : Context := { c with wr := w }

/-- `LAST_DC[i] <- v`. -/
def Context.setLastDc (c : Context) (i : Nat) (v : BitVec 16) : Context :=
  { c with lastDc := Tbl.set c.lastDc i v }

/-- `for c in 0 .. 2: LAST_DC[c] <- DC_BASELINE` (R211, R212). -/
def Context.resetLastDc (par : Params) (c : Context) : Context :=
  ((c.setLastDc 0 par.dcBaseline).setLastDc 1 par.dcBaseline).setLastDc 2 par.dcBaseline

/-- `SLICE_START <- v`. -/
def Context.setSliceStart (c : Context) (v : Nat) : Context := { c with sliceStart := v }

/-- `FSM <- f`. -/
def Context.setFsm (c : Context) (f : Fsm) : Context := { c with fsm := f }

/-- The block with the served context changed. -/
def State.setCtx (s : State) (c : Context) : State := { s with ctx := c }

/-- The block with the table unit changed. -/
def State.setTab (s : State) (t : TableUnit) : State := { s with tab := t }

/-- A command of the served context that touches no table: the next state holds the context as its
pseudocode left it, whether it ran through or raised a fault (R250). -/
def State.commit (s : State) (f : Flow) : Host.Outcome State Fault Refusal := .next (s.setCtx f.context)

/-! ### `PutBits` and `FlushBits` on a context -/

/-- `PutBits(n, v)` (R130): the capacity check precedes any write (R247). -/
def putBits (par : Params) (t : Site) (n v : Nat) (c : Context) : Flow :=
  if 8 * par.outCap < c.wr.bitPos + n then .raised (c.raise .outputOverflow t)
  else .ran (c.setWriter (c.wr.emit (bitsOf n v)))

/-- `FlushBits()` (R131). -/
def flushBits (c : Context) : Context := c.setWriter c.wr.flush

/-! ### The other memories -/

/-- `DCPFX[cls][cat]` (R35). -/
def TableUnit.dcpfxAt (tab : TableUnit) (cls : DcClass) (cat : Nat) : DcpfxEntry :=
  Tbl.get tab.dcpfx (16 * classNumber cls + cat)

/-- `ACLIST[i]` (R36). -/
def TableUnit.aceAt (tab : TableUnit) (i : Nat) : AceEntry := Tbl.get tab.aclist i

/-- The unified DC table of a class at index `k` (R37). -/
def TableUnit.uniAt (tab : TableUnit) (cls : DcClass) (k : Nat) : BitVec 32 :=
  match cls with
  | .luma => Tbl.get tab.dcLumUni k
  | .chroma => Tbl.get tab.dcChrUni k

/-- `AC_VLC[i]` (R38). -/
def TableUnit.vlcAt (tab : TableUnit) (i : Nat) : VlcEntry := Tbl.get tab.acVlc i

/-- `MAX_LEVEL[r]` (R39). -/
def TableUnit.maxLevelAt (tab : TableUnit) (r : Nat) : Nat := (Tbl.get tab.maxLevel r).toNat

/-- `INDEX_RUN[r]` (R39). -/
def TableUnit.indexRunAt (tab : TableUnit) (r : Nat) : Nat := (Tbl.get tab.indexRun r).toNat

/-- `UNI_AC_LEN[k]` (R40). -/
def TableUnit.uniAcLenAt (tab : TableUnit) (k : Nat) : BitVec 8 := Tbl.get tab.uniAcLen k

/-- `COEF[n][pos]` as a signed integer (R33). -/
def Context.coefAt (c : Context) (n pos : Nat) : Int := sext16 (Tbl.get c.coef (64 * n + pos))

/-- `LAST[n]` (R34). -/
def Context.lastAt (c : Context) (n : Nat) : Nat := (Tbl.get c.last n).toNat

/-- `SCAN[i]` (R25). -/
def Context.scanAt (c : Context) (i : Nat) : Nat := (Tbl.get c.scan i).toNat

/-- `LAST_DC[i]` as a signed integer (R24). -/
def Context.lastDcAt (c : Context) (i : Nat) : Int := sext16 (Tbl.get c.lastDc i)

end Sys2Proof.Machine
end

