-- ==== Sys2Proof/Machine/BitWriter.lean ====
section
/-! DEFINITION. The commands of the bit writer (spec/40_bitwriter.md): `PUTB` (R132), `FLUSH` (R133). -/

namespace Sys2Proof.Machine

open Sys2Proof

/-- `PUTB n, value` (R132). -/
def execPutb (n : BitVec 6) (value : BitVec 32) (s : State) : Host.Outcome State Fault Refusal :=
  s.commit <|
    require s.ctx.inPicture (.plain 0x10) s.ctx fun c =>
    require (decide (1 ≤ n.toNat) && decide (n.toNat ≤ 32)) (.plain 0x10) c fun c =>
    require (decide (value.toNat < 2 ^ n.toNat)) (.plain 0x10) c fun c =>
    putBits s.par (.plain 0x10) n.toNat value.toNat c

/-- `FLUSH` (R133). -/
def execFlush (s : State) : Host.Outcome State Fault Refusal :=
  s.commit <| require s.ctx.inPicture (.plain 0x11) s.ctx fun c => .ran (flushBits c)

end Sys2Proof.Machine
end

