-- ==== Sys2Proof/Machine/Tables.lean ====
section
/-! DEFINITION. The VLC table builder (spec/41_tables.md): `LDDCP` (R140), `LDACE` (R141), `TINIT` (R142)
with its input check (R143), the DC code (R144) and the built tables (R145 to R147). -/

namespace Sys2Proof.Machine

open Sys2Proof

/-- `DcCode(cls, diff)` (R144), `none` where it raises: no prefix exists for the category. -/
def dcCode (par : Params) (tab : TableUnit) (cls : DcClass) (diff : Int) : Option (Nat × Nat) :=
  if par.dcNcat ≤ dcCategory diff then none
  else some (dcCodeFrom (tab.dcpfxAt cls (dcCategory diff)) diff)

/-- R143 item 1 for one entry of `DCPFX`. -/
def DcpfxEntry.codeFits (e : DcpfxEntry) : Bool :=
  decide (1 ≤ e.len.toNat) && decide (e.len.toNat ≤ 16) && decide (e.code.toNat < 2 ^ e.len.toNat)

/-- R143 item 2 for one entry of `ACLIST`. -/
def AceEntry.codeFits (e : AceEntry) : Bool :=
  decide (1 ≤ e.len.toNat) && decide (e.len.toNat ≤ 16) && decide (e.code.toNat < 2 ^ e.len.toNat) &&
    decide (1 ≤ e.level.toNat)

/-- R143 item 3 at index `i ≥ 1`: the entry continues the run of the one before it with the next level, or
opens a run that no earlier entry has, at level 1. -/
def continuesOrOpens (tab : TableUnit) (i : Nat) : Bool :=
  (decide ((tab.aceAt i).run = (tab.aceAt (i - 1)).run) &&
      decide ((tab.aceAt i).level.toNat = (tab.aceAt (i - 1)).level.toNat + 1)) ||
    ((List.range i).all (fun j => decide ((tab.aceAt i).run ≠ (tab.aceAt j).run)) &&
      decide ((tab.aceAt i).level.toNat = 1))

/-- `WellFormed(DCPFX, ACLIST)` (R143). -/
def tablesWellFormed (par : Params) (tab : TableUnit) : Bool :=
  ((List.range par.dcNcat).all fun cat => (tab.dcpfxAt .luma cat).codeFits) &&
  ((List.range par.dcNcat).all fun cat => (tab.dcpfxAt .chroma cat).codeFits) &&
  ((List.range 121).all fun i => (tab.aceAt i).codeFits) &&
  decide ((tab.aceAt 0).level.toNat = 1) &&
  ((List.range' 1 120).all fun i => continuesOrOpens tab i) &&
  decide ((tab.aceAt 121).len.toNat = 6) && decide ((tab.aceAt 121).code.toNat = 32) &&
  decide ((tab.aceAt 122).len.toNat = 4) && decide ((tab.aceAt 122).code.toNat = 6)

/-- The unified DC table of a class (R142): entry `diff + 255` for `diff` in -255 .. 255, entry 511 zero. The
category of such a difference is at most 8 and `DC_NCAT ≥ 9`, so `DcCode` cannot raise here (R144, log 10). -/
def builtUni (tab : TableUnit) (cls : DcClass) : Vector (BitVec 32) 512 :=
  Tbl.build 512 fun k =>
    if k = 511 then 0#32
    else
      let diff : Int := (k : Int) - 255
      uniEntry (dcCodeFrom (tab.dcpfxAt cls (dcCategory diff)) diff)

/-- `INDEX_RUN[r]` as `BuildRunTables` leaves it (R146): the first of entries 0 .. 120 with run `r`, or 121. -/
def firstOfRun (tab : TableUnit) (r : Nat) : Nat :=
  ((List.range 121).find? fun i => decide ((tab.aceAt i).run.toNat = r)).getD 121

/-- `MAX_LEVEL[r]` as `BuildRunTables` leaves it (R146): the greatest level among entries 0 .. 120 with run
`r`, or 0. -/
def greatestOfRun (tab : TableUnit) (r : Nat) : Nat :=
  (List.range 121).foldl
    (fun m i => if (tab.aceAt i).run.toNat = r then max m (tab.aceAt i).level.toNat else m) 0

/-- `UNI_AC_LEN[128·run + level + 64]` (R147), from the tables built before it. -/
def acLength (maxLevel indexRun : Nat → Nat) (vlcLen : Nat → Nat) (run : Nat) (level : Int) : Nat :=
  if level = 0 then 0
  else if level.natAbs ≤ maxLevel run then vlcLen (indexRun run + level.natAbs - 1) + 1
  else 24

/-- What `TINIT` writes when it builds (R142, R145, R146, R147): every built table and `TABLES_READY`. -/
def buildTables (tab : TableUnit) : TableUnit :=
  let maxLevel : Vector (BitVec 7) 64 := Tbl.build 64 fun r => BitVec.ofNat 7 (greatestOfRun tab r)
  let indexRun : Vector (BitVec 7) 64 := Tbl.build 64 fun r => BitVec.ofNat 7 (firstOfRun tab r)
  { dcpfx := tab.dcpfx
    aclist := tab.aclist
    dcLumUni := builtUni tab .luma
    dcChrUni := builtUni tab .chroma
    acVlc := Tbl.build 123 fun i => ⟨(tab.aceAt i).code, (tab.aceAt i).len⟩
    maxLevel := maxLevel
    indexRun := indexRun
    uniAcLen := Tbl.build 8192 fun k =>
      BitVec.ofNat 8 (acLength (fun r => (Tbl.get maxLevel r).toNat) (fun r => (Tbl.get indexRun r).toNat)
        (fun i => (tab.aceAt i).len.toNat) (k / 128) ((k % 128 : Nat) - 64))
    ready := true }

/-- `LDDCP cls, cat, len, code` (R140). -/
def execLddcp (cls : DcClass) (cat : BitVec 4) (len : BitVec 5) (code : BitVec 16) (s : State) :
    Host.Outcome State Fault Refusal :=
  .next <|
    if !s.tab.ready && decide (cat.toNat < s.par.dcNcat) then
      s.setTab { s.tab with dcpfx := Tbl.set s.tab.dcpfx (16 * classNumber cls + cat.toNat) ⟨len, code⟩ }
    else s.setCtx (s.ctx.raise .contractViolation (.plain 0x03))

/-- `LDACE idx, run, level, len, code` (R141). -/
def execLdace (idx : BitVec 7) (run : BitVec 6) (level : BitVec 7) (len : BitVec 5) (code : BitVec 16)
    (s : State) : Host.Outcome State Fault Refusal :=
  .next <|
    if !s.tab.ready && decide (idx.toNat ≤ 122) then
      s.setTab { s.tab with aclist := Tbl.set s.tab.aclist idx.toNat ⟨run, level, len, code⟩ }
    else s.setCtx (s.ctx.raise .contractViolation (.plain 0x04))

/-- `TINIT` (R142): no effect once the tables are built; `BadTable` on inputs that fail R143; else builds. -/
def execTinit (s : State) : Host.Outcome State Fault Refusal :=
  .next <|
    if s.tab.ready then s
    else if tablesWellFormed s.par s.tab then s.setTab (buildTables s.tab)
    else s.setCtx (s.ctx.raise .badTable (.plain 0x01))

end Sys2Proof.Machine
end

