-- ==== Sys2Proof/Machine/Dc.lean ====
section
/-! DEFINITION. The DC differential encoder (spec/42_dc.md): `EncodeDC` (R170) and `ENCDC` (R171). -/

namespace Sys2Proof.Machine

open Sys2Proof

/-- `EncodeDC(cls, diff)` (R170): the unified table on the fast path, `DcCode` on the slow path; one
`PutBits`. -/
def encodeDC (par : Params) (tab : TableUnit) (t : Site) (cls : DcClass) (diff : Int) (c : Context) :
    Flow :=
  if -255 ≤ diff ∧ diff ≤ 255 then
    let e := tab.uniAt cls (diff + 255).toNat
    putBits par t (uniLen e) (uniCode e) c
  else
    match dcCode par tab cls diff with
    | none => .raised (c.raise .internalInvariantViolated t)
    | some p => putBits par t p.1 p.2 c

/-- `ENCDC cls, diff` (R171). -/
def execEncdc (cls : DcClass) (diff : BitVec 32) (s : State) : Host.Outcome State Fault Refusal :=
  s.commit <|
    require s.ctx.inPicture (.plain 0x20) s.ctx fun c =>
    require s.tab.ready (.plain 0x20) c fun c =>
    encodeDC s.par s.tab (.plain 0x20) cls (sext32 diff) c

end Sys2Proof.Machine
end

