-- ==== Sys2Proof/Machine/Block.lean ====
section
/-! DEFINITION. The block encoder (spec/43_block.md): the loads `LDSCAN` (R180), `LDCOEF` (R181), `LDLAST`
(R182), `EncodeBlock` (R183) and `ENCBLK` (R184). -/

namespace Sys2Proof.Machine

open Sys2Proof

/-- `LDSCAN k, j` (R180). -/
def execLdscan (k j : BitVec 6) (s : State) : Host.Outcome State Fault Refusal :=
  s.commit <|
    require s.ctx.outsidePicture (.plain 0x05) s.ctx fun c =>
    .ran { c with scan := Tbl.set c.scan k.toNat j }

/-- `LDCOEF blk, pos, value` (R181). -/
def execLdcoef (blk : BitVec 4) (pos : BitVec 6) (value : BitVec 16) (s : State) :
    Host.Outcome State Fault Refusal :=
  s.commit <|
    require (decide (blk.toNat ≤ 11)) (.plain 0x06) s.ctx fun c =>
    .ran { c with coef := Tbl.set c.coef (64 * blk.toNat + pos.toNat) value }

/-- `LDLAST blk, last` (R182). -/
def execLdlast (blk : BitVec 4) (last : BitVec 6) (s : State) : Host.Outcome State Fault Refusal :=
  s.commit <|
    require (decide (blk.toNat ≤ 11)) (.plain 0x07) s.ctx fun c =>
    .ran { c with last := Tbl.set c.last blk.toNat last }

/-- The site of a fault inside `EncodeBlock(n)` at scan position `i`, 0 outside the AC loop (R250). -/
def Site.inBlock (opcode : BitVec 8) (n i : Nat) : Site := ⟨opcode, BitVec.ofNat 4 n, BitVec.ofNat 6 i⟩

/-- One non-zero coefficient of the AC loop (R183): the table code with its sign bit where there is one, else
the escape, whose range is checked before its first bit is written (R249, D31). -/
def encodeLevel (par : Params) (tab : TableUnit) (t : Site) (run : Nat) (level : Int) (c : Context) : Flow :=
  if level.natAbs ≤ tab.maxLevelAt run then
    let e := tab.vlcAt (tab.indexRunAt run + level.natAbs - 1)
    putBits par t (e.len.toNat + 1) (e.code.toNat ||| (signBit level <<< e.len.toNat)) c
  else if !escapable level then .raised (c.raise .internalInvariantViolated t)
  else
    ((putBits par t 6 32 c).andThen (putBits par t 6 run)).andThen
      (putBits par t 12 (level + 2048).toNat)

/-- The AC loop of `EncodeBlock(n)` over the scan positions left, `z` being `last_nonzero_position` (R183). -/
def encodeAc (par : Params) (tab : TableUnit) (opcode : BitVec 8) (n : Nat) :
    List Nat → Nat → Context → Flow
  | [], _, c => .ran c
  | i :: rest, z, c =>
      if c.coefAt n (c.scanAt i) = 0 then encodeAc par tab opcode n rest z c
      else
        (encodeLevel par tab (.inBlock opcode n i) (i - z - 1) (c.coefAt n (c.scanAt i)) c).andThen
          (encodeAc par tab opcode n rest i)

/-- The DC step of `EncodeBlock(n)` (R183): `previous - current` is encoded, then the predictor is updated. -/
def encodeBlockDC (par : Params) (tab : TableUnit) (opcode : BitVec 8) (n : Nat) (c : Context) : Flow :=
  (encodeDC par tab (.inBlock opcode n 0) (blockClass n)
    (c.lastDcAt (component n) - c.coefAt n 0) c).andThen fun c =>
  .ran (c.setLastDc (component n) (Tbl.get c.coef (64 * n)))

/-- `EncodeBlock(n)` (R183): DC, AC, end-of-block. -/
def encodeBlock (par : Params) (tab : TableUnit) (opcode : BitVec 8) (n : Nat) (c : Context) : Flow :=
  ((encodeBlockDC par tab opcode n c).andThen fun c =>
    encodeAc par tab opcode n (List.range' 1 (c.lastAt n)) 0 c).andThen
      (putBits par (.inBlock opcode n 0) 4 6)

/-- `ENCBLK n` (R184). -/
def execEncblk (n : BitVec 4) (s : State) : Host.Outcome State Fault Refusal :=
  s.commit <|
    require s.ctx.inPicture (.plain 0x21) s.ctx fun c =>
    require s.tab.ready (.plain 0x21) c fun c =>
    require (decide (n.toNat ≤ 11)) (.plain 0x21) c fun c =>
    encodeBlock s.par s.tab 0x21 n.toNat c

end Sys2Proof.Machine
end

