-- ==== Sys2Proof/Machine/Framer.lean ====
section
/-! DEFINITION. Configuration and the picture and slice framer (spec/45_framer.md): `CFG` (R210), `BEGINP`
(R211), `ENDSL` (R212), `ENDP` (R213), `ABORTP` (R214). -/

namespace Sys2Proof.Machine

open Sys2Proof

/-- `CFG pixfmt, width, height` (R210): dimensions are tested before the pixel format (R249). -/
def execCfg (pixfmt : BitVec 4) (width height : BitVec 16) (s : State) : Host.Outcome State Fault Refusal :=
  s.commit <|
    require s.ctx.outsidePicture (.plain 0x02) s.ctx fun c =>
    if dimensionsValid width height then
      match formatOfPixfmt pixfmt with
      | some f => .ran { c with width := width, height := height, chromaFormat := f, cfgValid := true }
      | none => .raised (c.raise .unsupportedPixelFormat (.plain 0x02))
    else .raised (c.raise .invalidDimensions (.plain 0x02))

/-- The body of `BEGINP` after its requirements (R211). -/
def beginPicture (par : Params) (qscale : BitVec 8) (c : Context) : Flow :=
  let start : Context := { c with wr := ⟨c.wr.out, 0, 0⟩, qscale := qscale }
  ((putBits par (.plain 0x30) 8 (100 - 2 * qscale.toNat) start).andThen
    (putBits par (.plain 0x30) 24 4)).andThen fun c =>
  (putBits par (.plain 0x30) 24 0 (c.setSliceStart c.wr.byteCursor)).andThen fun c =>
  .ran ((c.resetLastDc par).setFsm .inPicture)

/-- `BEGINP qscale` (R211). -/
def execBeginp (qscale : BitVec 8) (s : State) : Host.Outcome State Fault Refusal :=
  s.commit <|
    require s.ctx.outsidePicture (.plain 0x30) s.ctx fun c =>
    require (s.tab.ready && c.cfgValid) (.plain 0x30) c fun c =>
    require (decide (1 ≤ qscale.toNat) && decide (qscale.toNat ≤ 50)) (.plain 0x30) c fun c =>
    beginPicture s.par qscale c

/-- The back-patch of `ENDSL` (R212): the slice length, little-endian in 3 bytes at `SLICE_START`, then
`SLICE_START` moves to the byte cursor. -/
def backPatch (len : Nat) (c : Context) : Context :=
  (c.setWriter { c.wr with out := c.wr.out.memWrite c.sliceStart 3 len }).setSliceStart c.wr.byteCursor

/-- The body of `ENDSL` after its requirement (R212). The length counts the field's own three bytes
(90_conflicts.md C1). -/
def endSlice (par : Params) (c : Context) : Flow :=
  let c := flushBits c
  let len := c.wr.byteCursor - c.sliceStart
  if 2 ^ 24 ≤ len then .raised (c.raise .sliceLengthOverflow (.plain 0x31))
  else
    (putBits par (.plain 0x31) 24 0 (backPatch len c)).andThen fun c => .ran (c.resetLastDc par)

/-- `ENDSL` (R212). -/
def execEndsl (s : State) : Host.Outcome State Fault Refusal :=
  s.commit <| require s.ctx.inPicture (.plain 0x31) s.ctx fun c => endSlice s.par c

/-- `ENDP` (R213). -/
def execEndp (s : State) : Host.Outcome State Fault Refusal :=
  s.commit <|
    require s.ctx.inPicture (.plain 0x32) s.ctx fun c =>
    require c.sliceEmpty (.plain 0x32) c fun c =>
    .ran (c.setFsm .done)

/-- `ABORTP` (R214): `OUT` is not cleared. -/
def execAbortp (s : State) : Host.Outcome State Fault Refusal :=
  s.commit <| .ran (({ s.ctx with wr := ⟨s.ctx.wr.out, 0, 0⟩ } : Context).setSliceStart 0 |>.setFsm .idle)

end Sys2Proof.Machine
end

