-- ==== Sys2Proof/Machine/Macroblock.lean ====
section
/-! DEFINITION. The macroblock encoder (spec/44_macroblock.md): `ENCMB` (R200, R201). -/

namespace Sys2Proof.Machine

open Sys2Proof

/-- `EncodeBlock` of the blocks listed, in order, up to the first fault (R201). -/
def encodeBlocks (par : Params) (tab : TableUnit) (opcode : BitVec 8) : List Nat → Context → Flow
  | [], c => .ran c
  | n :: rest, c => (encodeBlock par tab opcode n c).andThen (encodeBlocks par tab opcode rest)

/-- `ENCMB` (R201). -/
def execEncmb (s : State) : Host.Outcome State Fault Refusal :=
  s.commit <|
    require s.ctx.inPicture (.plain 0x22) s.ctx fun c =>
    require s.tab.ready (.plain 0x22) c fun c =>
    encodeBlocks s.par s.tab 0x22 (blockOrder c.chromaFormat) c

end Sys2Proof.Machine
end

