-- ==== Sys2Proof/Machine/Dispatch.lean ====
section
/-! DEFINITION. One arm per command: the pseudocode of the matching row (spec/60_exceptions.md R251, third
line). The two lines before it, the faulted test and the decoder, stand in Machine/Port.lean. -/

namespace Sys2Proof.Machine

open Sys2Proof

def exec (i : Instr) (s : State) : Host.Outcome State Fault Refusal :=
  match i with
  | .tinit => Sys2Proof.Machine.execTinit s
  | .cfg pixfmt width height => Sys2Proof.Machine.execCfg pixfmt width height s
  | .lddcp cls cat len code => Sys2Proof.Machine.execLddcp cls cat len code s
  | .ldace idx run level len code => Sys2Proof.Machine.execLdace idx run level len code s
  | .ldscan k j => Sys2Proof.Machine.execLdscan k j s
  | .ldcoef blk pos value => Sys2Proof.Machine.execLdcoef blk pos value s
  | .ldlast blk last => Sys2Proof.Machine.execLdlast blk last s
  | .putb n value => Sys2Proof.Machine.execPutb n value s
  | .flush => Sys2Proof.Machine.execFlush s
  | .encdc cls diff => Sys2Proof.Machine.execEncdc cls diff s
  | .encblk n => Sys2Proof.Machine.execEncblk n s
  | .encmb => Sys2Proof.Machine.execEncmb s
  | .beginp qscale => Sys2Proof.Machine.execBeginp qscale s
  | .endsl => Sys2Proof.Machine.execEndsl s
  | .endp => Sys2Proof.Machine.execEndp s
  | .abortp => Sys2Proof.Machine.execAbortp s

end Sys2Proof.Machine
end

