-- ==== Sys2Proof/Machine/Port.lean ====
section
/-! DEFINITION. The command ports and the reset input: the common prologue (spec/60_exceptions.md R251),
serving the port of one context among several (R262; 20_memory.md R71), reset (70_reset_and_hazards.md
R280), and placing a word on the port. -/

namespace Sys2Proof.Machine

open Sys2Proof

/-- `Step(CW)` of R251 on the served context: a faulted context drops the word; a word that matches no row
raises `IllegalCommand`; else the command's pseudocode runs. -/
def runWord (w : Word) (s : State) : Host.Outcome State Fault Refusal :=
  if s.ctx.faulted then .next s
  else
    match decode w with
    | .error _ => .next (s.setCtx (s.ctx.raise .illegalCommand (.plain (field w 56 8))))
    | .ok i => exec i s

/-- All contexts in number order. -/
def State.contexts (s : State) : List Context := s.lower ++ s.ctx :: s.higher

/-- The number of the served context. -/
def State.served (s : State) : Nat := s.lower.length

/-- Serves context number `k` (R262: numbers 0 .. `NCTX` - 1), `none` where there is no such context. No
register or memory changes. -/
def State.focus (s : State) (k : Nat) : Option State :=
  match s.contexts.drop k with
  | [] => none
  | c :: above => some { s with lower := s.contexts.take k, ctx := c, higher := above }

/-- Reset (R280): every context and the table unit together; a new reset epoch begins. -/
def State.applyReset (s : State) : State :=
  State.powerUp s.par (s.lower.length + s.higher.length) (s.epoch + 1) s.inbox

/-- Serves the oldest input. With nothing presented the block waits, all state kept (R265, R45). -/
def serve (s : State) : Host.Outcome State Fault Refusal :=
  match s.inbox with
  | [] => .next s
  | .reset :: rest => .next ({ s with inbox := rest } : State).applyReset
  | .command k w :: rest =>
      match ({ s with inbox := rest } : State).focus k with
      | none => .fault .noSuchPort
      | some t => runWord w t

/-- The host presents the word made of the `nbits` low bits of `w` on the port of the served context, before
anything presented earlier. -/
def State.present (s : State) (nbits w : Nat) : State :=
  { s with inbox := .command s.served (BitVec.ofNat 64 (w % 2 ^ nbits)) :: s.inbox }

end Sys2Proof.Machine
end

