-- ==== Sys2Proof/Machine/Step.lean ====
section
/-! DEFINITION. One step of the block: the oldest input is served (spec/20_memory.md R65, R70;
60_exceptions.md R251; 70_reset_and_hazards.md R280). -/

namespace Sys2Proof.Machine

open Sys2Proof

/-- One step: one command word on one context's port, or one reset, or nothing to do. -/
def step (s : State) : Host.Outcome State Fault Refusal := serve s

/-- The state in which the next step runs the command word made of the `nbits` low bits of `w` (log 6). -/
def State.withFetchWord (s : State) (nbits w : Nat) : State := s.present nbits w

end Sys2Proof.Machine
end

