-- ==== Sys2Proof/Machine/HostPort.lean ====
section
/-! DEFINITION. The host read port (spec/20_memory.md R60, R74; 10_state.md R31, R32). A read is a function of
the state: it has no side effect (R66) and works in a faulted context too. -/

namespace Sys2Proof.Machine

open Sys2Proof

/-- Space 0 (R31): registers zero-extended, `LAST_DC0..2` sign-extended; numbers 14 and above read 0. -/
def Context.readRegister (tab : TableUnit) (c : Context) : Nat → BitVec 64
  | 0 => (c.status tab).setWidth 64
  | 1 => c.faultCode.code.setWidth 64
  | 2 => c.faultInfo.setWidth 64
  | 3 => c.qscale.setWidth 64
  | 4 => c.chromaFormat.code.setWidth 64
  | 5 => (Tbl.get c.lastDc 0).signExtend 64
  | 6 => (Tbl.get c.lastDc 1).signExtend 64
  | 7 => (Tbl.get c.lastDc 2).signExtend 64
  | 8 => BitVec.ofNat 64 c.sliceStart
  | 9 => BitVec.ofNat 64 c.wr.byteCursor
  | 10 => BitVec.ofNat 64 c.wr.bitCursor.val
  | 11 => BitVec.ofNat 64 c.wr.bitPos
  | 12 => c.width.setWidth 64
  | 13 => c.height.setWidth 64
  | _ => 0

/-- A `DCPFX` element as it reads: `(len << 16) | code` (R74). -/
def DcpfxEntry.pack (e : DcpfxEntry) : BitVec 64 := 0#43 ++ e.len ++ e.code

/-- An `AC_VLC` element as it reads: `(len << 16) | code` (R38, R74). -/
def VlcEntry.pack (e : VlcEntry) : BitVec 64 := 0#43 ++ e.len ++ e.code

/-- An `ACLIST` element as it reads: `(run << 28) | (level << 21) | (len << 16) | code` (R74). -/
def AceEntry.pack (e : AceEntry) : BitVec 64 := 0#30 ++ e.run ++ e.level ++ e.len ++ e.code

/-- The value read where the index lies inside the space, else 0 (R74). -/
def inSpace (size index : Nat) (v : BitVec 64) : BitVec 64 := if index < size then v else 0

/-- `HostRead(space, index)` on one context's port (R74). A space id that R60 does not list has no stated
result: a free value (log 12). -/
def Context.hostRead (par : Params) (tab : TableUnit) (c : Context) (space index : Nat) : BitVec 64 :=
  match space with
  | 0 => c.readRegister tab index
  | 1 => inSpace par.outCap index ((c.wr.out.read index).setWidth 64)
  | 2 => inSpace 512 index ((Tbl.get tab.dcLumUni index).setWidth 64)
  | 3 => inSpace 512 index ((Tbl.get tab.dcChrUni index).setWidth 64)
  | 4 => inSpace 123 index (tab.vlcAt index).pack
  | 5 => inSpace 64 index ((Tbl.get tab.maxLevel index).setWidth 64)
  | 6 => inSpace 64 index ((Tbl.get tab.indexRun index).setWidth 64)
  | 7 => inSpace 8192 index ((tab.uniAcLenAt index).setWidth 64)
  | 8 => inSpace 768 index ((Tbl.get c.coef index).signExtend 64)
  | 9 => inSpace 12 index ((Tbl.get c.last index).setWidth 64)
  | 10 => inSpace 64 index ((Tbl.get c.scan index).setWidth 64)
  | 11 => if index % 16 < par.dcNcat then inSpace 32 index (Tbl.get tab.dcpfx index).pack else 0
  | 12 => inSpace 123 index (tab.aceAt index).pack
  | _ => Config.noSuchSpace space index

/-- `HostRead` on the port of context number `k`, `none` where there is no such context (R74, R262). -/
def State.hostRead (s : State) (k space index : Nat) : Option (BitVec 64) :=
  (s.contexts[k]?).map fun c => c.hostRead s.par s.tab space index

end Sys2Proof.Machine
end

