-- ==== Sys2Proof/Machine/Wire.lean ====
section
/-! DEFINITION. The wire format (spec/30_encoding.md Part B, R100 to R110) as lists of bits, first sent
first, computed from the INPUT tables `DCPFX` and `ACLIST`, not from the tables `TINIT` builds. No command
calls this file: statements compare what the commands emit with it. -/

namespace Sys2Proof.Machine

open Sys2Proof

/-- DC code (R107): the prefix of the category, then `category` tail bits, least significant first. -/
def wireDc (tab : TableUnit) (cls : DcClass) (diff : Int) : List Bool :=
  let e := tab.dcpfxAt cls (dcCategory diff)
  bitsOf e.len.toNat e.code.toNat ++ bitsOf (dcCategory diff) (dcTail diff)

/-- The entry of the canonical list with this run and level magnitude, if it has one (R36, R187). -/
def aceFor (tab : TableUnit) (run alevel : Nat) : Option AceEntry :=
  ((List.range 121).map tab.aceAt).find? fun e =>
    decide (e.run.toNat = run) && decide (e.level.toNat = alevel)

/-- AC code (R108, R109): the listed code and a sign bit, or the 24-bit escape where the list has no entry. -/
def wireAc (tab : TableUnit) (run : Nat) (level : Int) : List Bool :=
  match aceFor tab run level.natAbs with
  | some e => bitsOf e.len.toNat e.code.toNat ++ [decide (level < 0)]
  | none => bitsOf 6 32 ++ bitsOf 6 run ++ bitsOf 12 (level + 2048).toNat

/-- The (zeros before, value) pairs of a scanned vector (R10 "run/level coding"), `z` zeros being already
seen. -/
def runLevels : Nat → List Int → List (Nat × Int)
  | _, [] => []
  | z, l :: rest => if l = 0 then runLevels (z + 1) rest else (z, l) :: runLevels 0 rest

/-- The coefficients of block `n` at scan positions 1 .. `LAST[n]`, in scan order (R10, R106). -/
def scannedLevels (c : Context) (n : Nat) : List Int :=
  (List.range' 1 (c.lastAt n)).map fun i => c.coefAt n (c.scanAt i)

/-- The AC part of a block and its end-of-block marker (R106, R110). -/
def wireAcPart (tab : TableUnit) (c : Context) (n : Nat) : List Bool :=
  ((runLevels 0 (scannedLevels c n)).map fun p => wireAc tab p.1 p.2).flatten ++ bitsOf 4 6

/-- Block `n` (R106) when the predictor of its component holds `previous` (R107, R172). -/
def wireBlock (tab : TableUnit) (c : Context) (n : Nat) (previous : Int) : List Bool :=
  wireDc tab (blockClass n) (previous - c.coefAt n 0) ++ wireAcPart tab c n

/-- The appends of one AC code (R183): the listed code with its sign bit is one, the three fields of the escape
are three. -/
def acAppends (tab : TableUnit) (run : Nat) (level : Int) : List (List Bool) :=
  match aceFor tab run level.natAbs with
  | some e => [bitsOf e.len.toNat e.code.toNat ++ [decide (level < 0)]]
  | none => [bitsOf 6 32, bitsOf 6 run, bitsOf 12 (level + 2048).toNat]

/-- The appends of a scanned vector, each with its scan position: the first value stands at position `i`, `z`
zeros being already seen (R10, R183). -/
def levelAppends (tab : TableUnit) : Nat → Nat → List Int → List (Nat × List Bool)
  | _, _, [] => []
  | i, z, l :: rest =>
      if l = 0 then levelAppends tab (i + 1) (z + 1) rest
      else (acAppends tab z l).map (fun b => (i, b)) ++ levelAppends tab (i + 1) 0 rest

/-- The appends of block `n` in order, each with the scan position `FAULT_INFO` would show for it: 0 for the DC
code and for the end-of-block (R183, R250). Together they are `wireBlock`. -/
def blockAppends (tab : TableUnit) (c : Context) (n : Nat) (previous : Int) : List (Nat × List Bool) :=
  (0, wireDc tab (blockClass n) (previous - c.coefAt n 0)) ::
    (levelAppends tab 1 0 (scannedLevels c n) ++ [(0, bitsOf 4 6)])

/-- The predictors after block `n` was coded (R24, R183). -/
def nextPredictors (c : Context) (n : Nat) (lastDc : Vector (BitVec 16) 3) : Vector (BitVec 16) 3 :=
  Tbl.set lastDc (component n) (Tbl.get c.coef (64 * n))

/-- The blocks listed (R105), each coded with the predictors the ones before it left (R200). -/
def wireBlocks (tab : TableUnit) (c : Context) : List Nat → Vector (BitVec 16) 3 → List Bool
  | [], _ => []
  | n :: rest, p =>
      wireBlock tab c n (sext16 (Tbl.get p (component n))) ++
        wireBlocks tab c rest (nextPredictors c n p)

/-- The predictors after the blocks listed. -/
def predictorsAfter (c : Context) : List Nat → Vector (BitVec 16) 3 → Vector (BitVec 16) 3
  | [], p => p
  | n :: rest, p => predictorsAfter c rest (nextPredictors c n p)

/-- The picture header (R101, R102) and the first placeholder (R100), as the bytes `OUT[0..6]`. -/
def wireHeader (qscale : Nat) : List Byte :=
  [BitVec.ofNat 8 (100 - 2 * qscale), 4#8, 0#8, 0#8, 0#8, 0#8, 0#8]

/-- The slice payloads a decoder finds by walking the length fields from address `a` until a field of 0, as
(first byte, number of bytes) (R218). `fuel` bounds the walk; `none` where it does not end. -/
def walkSlices (m : OutMem) : Nat → Nat → Option (List (Nat × Nat))
  | 0, _ => none
  | fuel + 1, a =>
      let l := m.memRead a 3
      if l = 0 then some []
      else (walkSlices m fuel (a + l)).map fun rest => (a + 3, l - 3) :: rest

end Sys2Proof.Machine
end

