-- ==== Sys2Proof/WellFormed.lean ====
section
/-! DEFINITION. When a command's operands lie in their legal ranges (spec/30_encoding.md R92). Every
term of `Instr` can be encoded, and an operand outside its legal range still decodes (R92): the
command's own rule then says which fault it raises. -/

namespace Sys2Proof

/-- The operand checks of R92 and of the command rules it points to (R132, R140, R141, R181, R182,
R184, R210, R211). `p` gives `DC_NCAT`, the one range that depends on a parameter. -/
def Instr.wellFormed (p : Params) : Instr → Bool
  | .tinit => true
  | .cfg pixfmt width height =>
      decide (width.toNat % 16 = 0) && decide (width.toNat ≤ 65500) && decide (height.toNat ≤ 65500)
        && decide (pixfmt.toNat ≤ 2)
  | .lddcp _ cat _ _ => decide (cat.toNat < p.dcNcat)
  | .ldace idx _ _ _ _ => decide (idx.toNat ≤ 122)
  | .ldscan _ _ => true
  | .ldcoef blk _ _ => decide (blk.toNat ≤ 11)
  | .ldlast blk _ => decide (blk.toNat ≤ 11)
  | .putb n value => decide (1 ≤ n.toNat) && decide (n.toNat ≤ 32) && decide (value.toNat < 2 ^ n.toNat)
  | .flush => true
  | .encdc _ _ => true
  | .encblk n => decide (n.toNat ≤ 11)
  | .encmb => true
  | .beginp qscale => decide (1 ≤ qscale.toNat) && decide (qscale.toNat ≤ 50)
  | .endsl => true
  | .endp => true
  | .abortp => true

end Sys2Proof
end

