-- ==== Sys2Proof/Safety.lean ====
section
/-! DEFINITION. What counts as a sound state and an accepted command: the legality table of
spec/45_framer.md R216 with the operand ranges of 60_exceptions.md R245, and the invariants the spec states
(10_state.md R21, R22, R26, R29, R30, R39; 45_framer.md R216, R218). -/

namespace Sys2Proof.Machine

open Sys2Proof

/-- All the `require` tests of a command hold (R216, R245): its state, its flags, its operand ranges. -/
def accepts (s : State) : Instr → Bool
  | .tinit => true
  | .cfg _ _ _ => s.ctx.outsidePicture
  | .lddcp _ cat _ _ => !s.tab.ready && decide (cat.toNat < s.par.dcNcat)
  | .ldace idx _ _ _ _ => !s.tab.ready && decide (idx.toNat ≤ 122)
  | .ldscan _ _ => s.ctx.outsidePicture
  | .ldcoef blk _ _ => decide (blk.toNat ≤ 11)
  | .ldlast blk _ => decide (blk.toNat ≤ 11)
  | .putb n value =>
      s.ctx.inPicture && decide (1 ≤ n.toNat) && decide (n.toNat ≤ 32) && decide (value.toNat < 2 ^ n.toNat)
  | .flush => s.ctx.inPicture
  | .encdc _ _ => s.ctx.inPicture && s.tab.ready
  | .encblk n => s.ctx.inPicture && s.tab.ready && decide (n.toNat ≤ 11)
  | .encmb => s.ctx.inPicture && s.tab.ready
  | .beginp q =>
      s.ctx.outsidePicture && s.tab.ready && s.ctx.cfgValid && decide (1 ≤ q.toNat) && decide (q.toNat ≤ 50)
  | .endsl => s.ctx.inPicture
  | .endp => s.ctx.inPicture && s.ctx.sliceEmpty
  | .abortp => true

/-- A command as the prologue of R251 runs it: dropped in a faulted context. -/
def runCommand (i : Instr) (s : State) : Host.Outcome State Fault Refusal :=
  if s.ctx.faulted then .next s else exec i s

/-- Commands of the served context one after another (R70). -/
def runCommands : List Instr → State → Host.Outcome State Fault Refusal
  | [], s => .next s
  | i :: rest, s =>
      match runCommand i s with
      | .next t => runCommands rest t
      | .fault r => .fault r
      | .refused r => .refused r

/-- `n` steps, each serving the oldest input; it ends early where a step does not answer a next state. -/
def runSteps : Nat → State → Host.Outcome State Fault Refusal
  | 0, s => .next s
  | n + 1, s =>
      match step s with
      | .next t => runSteps n t
      | .fault r => .fault r
      | .refused r => .refused r

/-- The words an input list presents on port `k`, in order. -/
def wordsFor (k : Nat) : List Input → List Word
  | [] => []
  | .command j w :: rest => if j = k then w :: wordsFor k rest else wordsFor k rest
  | .reset :: rest => wordsFor k rest

/-! ### What a command leaves -/

/-- The context after `bits` were appended and the predictors became `dc`. -/
def Context.emitted (c : Context) (bits : List Bool) (dc : Vector (BitVec 16) 3) : Context :=
  { c with wr := c.wr.emit bits, lastDc := dc }

/-- Bit writer `v` is `w` with `bits` appended LSB-first (R61, R62, R130), seen through its reads. -/
structure Writer.Appended (w v : Writer) (bits : List Bool) : Prop where
  /-- The cursor moved by the number of bits. -/
  position : v.bitPos = w.bitPos + bits.length
  /-- Bit `k` stands `k` bits after the old cursor. -/
  newBits : ∀ k (h : k < bits.length), v.bitAt (w.bitPos + k) = bits[k]
  /-- Bits below the old cursor stand. -/
  oldBits : ∀ p, p < w.bitPos → v.bitAt p = w.bitAt p
  /-- The unused high bits of the open byte are zero (R21, W1). -/
  padding : ∀ p, v.bitPos ≤ p → p / 8 = v.byteCursor → v.bitCursor ≠ 0 → v.bitAt p = false
  /-- Every byte the new bits do not reach stands. -/
  otherBytes : ∀ a, a < w.byteCursor ∨ v.bitPos ≤ 8 * a → v.out.read a = w.out.read a

/-- Every register of a context at its reset value (R45). -/
structure Context.RegistersClear (c : Context) : Prop where
  fsm : c.fsm = .idle
  cfgValid : c.cfgValid = false
  fault : c.faultCode = .clear ∧ c.faultInfo = 0
  picture : c.qscale = 0 ∧ c.chromaFormat = .yuv420 ∧ c.width = 0 ∧ c.height = 0
  lastDc : ∀ i, i < 3 → c.lastDcAt i = 0
  cursors : c.sliceStart = 0 ∧ c.wr.byteCursor = 0 ∧ c.wr.bitCursor = 0

/-- The payloads listed tile the bytes from length field `a` to length field `b` (R100, R218). -/
def Tiles : Nat → Nat → List (Nat × Nat) → Prop
  | a, b, [] => a = b
  | a, b, (start, size) :: rest => start = a + 3 ∧ Tiles (a + 3 + size) b rest

/-- The moves of `FSM` a command may make (R215). -/
def FsmMove : Fsm → Instr → Fsm → Prop
  | .idle, .beginp _, .inPicture => True
  | .done, .beginp _, .inPicture => True
  | .inPicture, .endp, .done => True
  | _, .abortp, .idle => True
  | a, _, b => a = b

/-- Which commands may raise which fault (R240, "raised by"). `IllegalCommand` is the decoder's. -/
def mayRaise : FaultCode → Instr → Bool
  | .clear, _ => false
  | .invalidDimensions, i => decide (i.opcode = .cfg)
  | .unsupportedPixelFormat, i => decide (i.opcode = .cfg)
  | .internalInvariantViolated, i =>
      decide (i.opcode = .encdc) || decide (i.opcode = .encblk) || decide (i.opcode = .encmb)
  | .illegalCommand, _ => false
  | .contractViolation, i => !decide (i.opcode = .tinit) && !decide (i.opcode = .abortp)
  | .badTable, i => decide (i.opcode = .tinit)
  | .outputOverflow, i =>
      decide (i.opcode = .putb) || decide (i.opcode = .encdc) || decide (i.opcode = .encblk) ||
        decide (i.opcode = .encmb) || decide (i.opcode = .beginp) || decide (i.opcode = .endsl)
  | .sliceLengthOverflow, i => decide (i.opcode = .endsl)

/-! ### When the encoders raise nothing (R254) -/

/-- A level an escape can carry (R109, R183; 90_conflicts.md C3). -/
def LevelOk (level : Int) : Prop := -2048 ≤ level ∧ level ≤ 2047

/-- Block `n` can be coded after a predictor of `previous`: its DC difference has a prefix, its AC levels lie
in the range (R254). -/
structure BlockFits (par : Params) (c : Context) (n : Nat) (previous : Int) : Prop where
  dc : dcCategory (previous - c.coefAt n 0) < par.dcNcat
  ac : ∀ k, 1 ≤ k → k ≤ c.lastAt n → LevelOk (c.coefAt n (c.scanAt k))

/-- The blocks listed can be coded one after another, the predictors starting from `p`. -/
def BlocksFit (par : Params) (c : Context) : List Nat → Vector (BitVec 16) 3 → Prop
  | [], _ => True
  | n :: rest, p =>
      BlockFits par c n (sext16 (Tbl.get p (component n))) ∧ BlocksFit par c rest (nextPredictors c n p)

/-! ### Invariants -/

/-- A bit writer that keeps W1 and W3 (R21) over an `OUT` of `cap` bytes in canonical form (R41). -/
structure Writer.Sound (cap : Nat) (w : Writer) : Prop where
  canonical : w.out.WellFormed
  inside : ∀ p ∈ w.out.cells, p.1 < cap
  cursorMax : w.byteCursor ≤ cap
  openByte : w.bitCursor ≠ 0 →
    w.byteCursor < cap ∧ (w.out.read w.byteCursor).toNat < 2 ^ w.bitCursor.val

/-- The length fields from address `a` lead exactly to address `b` (R100, R103, R218): each is at least 3 and
the next field lies that many bytes further. -/
inductive SliceChain (m : OutMem) : Nat → Nat → Prop where
  | here (a : Nat) : SliceChain m a a
  | field (a b : Nat) : 3 ≤ m.memRead a 3 → SliceChain m (a + m.memRead a 3) b → SliceChain m a b

/-- What holds of a context at every step of every run. `par` and `tab` are the block's. -/
structure Context.Sound (par : Params) (tab : TableUnit) (c : Context) : Prop where
  writer : c.wr.Sound par.outCap
  /-- R29: the latched dimensions passed the test (0 at reset passes it too). -/
  dimensions : dimensionsValid c.width c.height = true
  /-- R22. -/
  qscaleMax : c.qscale.toNat ≤ 50
  /-- R26. -/
  sliceStartMax : c.sliceStart ≤ par.outCap
  /-- R211, R216: what `BEGINP` required still holds. -/
  begun : c.fsm ≠ .idle → tab.ready = true ∧ c.cfgValid = true ∧ 1 ≤ c.qscale.toNat
  /-- R26: the open length field, unless a fault stopped the framer half way (log 8). -/
  openField : c.fsm ≠ .idle → c.faultCode = .clear →
    4 ≤ c.sliceStart ∧ c.sliceStart + 3 ≤ c.wr.byteCursor ∧ c.wr.out.memRead c.sliceStart 3 = 0
  /-- R100 to R102: the header. -/
  header : c.fsm ≠ .idle → c.faultCode = .clear →
    (c.wr.out.read 0).toNat = 100 - 2 * c.qscale.toNat ∧ c.wr.out.memRead 1 3 = 4
  /-- R103, R218: the closed length fields lead from offset 4 to the open one. -/
  chain : c.fsm ≠ .idle → c.faultCode = .clear → SliceChain c.wr.out 4 c.sliceStart
  /-- R213: a finished picture ends with the placeholder. -/
  finished : c.fsm = .done → c.faultCode = .clear → c.sliceEmpty = true
  /-- R45, R250. -/
  faultInfoClear : c.faultCode = .clear → c.faultInfo = 0

/-- R28, R39, R148: built tables are those R142 builds from inputs that passed R143. -/
def TableUnit.Sound (par : Params) (tab : TableUnit) : Prop :=
  tab.ready = true → tablesWellFormed par tab = true ∧ buildTables tab = tab

/-- What holds of the whole block at every step of every run. -/
structure State.Sound (s : State) : Prop where
  params : s.par.Legal
  tables : s.tab.Sound s.par
  contexts : ∀ c ∈ s.contexts, c.Sound s.par s.tab

end Sys2Proof.Machine
end

