-- ==== Sys2Proof/Certificates/Slice0/Obligations.lean ====
section
/-! DEFINITION. The statements for the provers. Rules are those of spec/. A statement about the served
context speaks of `s.ctx`; the frame of a command is the equation that rebuilds the next state from the old
one and the fields the command may change. -/

open Sys2Proof Sys2Proof.Machine

/-! ### Encoding (30_encoding.md) -/

/-- Every command decodes from its own word: no operand bit is dropped (R91, R92, R93). -/
def Obligations.DecodeOfEncodeIsIdentity : Prop :=
  ∀ i : Instr, decode (encode i) = .ok i

/-- A word that decodes is the word of the command read: no bit is ignored (R93, R94). -/
def Obligations.EncodeOfDecodeIsIdentity : Prop :=
  ∀ (w : Word) (i : Instr), decode w = .ok i → encode i = w

/-- At most one row matches a word, and a word that matches a row is read by that row (R93). -/
def Obligations.MatchingRowIsUniqueAndDecodes : Prop :=
  ∀ (w : Word) (o : Opcode), w &&& o.mask = o.matchWord →
    decode w = .ok (o.operands w) ∧ ∀ o' : Opcode, w &&& o'.mask = o'.matchWord → o' = o

/-- Words of the spec's own list (95_test_vectors.md, table E) and the commands they stand for. -/
def Obligations.ListedWordsDecodeAsListed : Prop :=
  decode 0x0100000000000000 = .ok .tinit ∧
  decode 0x02000002FFD0FFDC = .ok (.cfg 2 65488 65500) ∧
  decode 0x03010B0A000003FF = .ok (.lddcp .chroma 11 10 1023) ∧
  decode 0x04783C0100030001 = .ok (.ldace 120 60 1 3 1) ∧
  decode 0x0500000200000008 = .ok (.ldscan 2 8) ∧
  decode 0x060000080000F448 = .ok (.ldcoef 0 8 (BitVec.ofInt 16 (-3000))) ∧
  decode 0x07000B000000003F = .ok (.ldlast 11 63) ∧
  decode 0x10000020FFFFFFFF = .ok (.putb 32 0xFFFFFFFF) ∧
  decode 0x20000001FFFFFFFF = .ok (.encdc .chroma (BitVec.ofInt 32 (-1))) ∧
  decode 0x210000000000000B = .ok (.encblk 11) ∧
  decode 0x3000000000000032 = .ok (.beginp 50) ∧
  decode 0x3300000000000000 = .ok .abortp

/-! ### Steps, ports, reset (60_exceptions.md, 70_reset_and_hazards.md) -/

/-- `Step(CW)` of R251 on the context `t.ctx` whose port is served: dropped in a faulted context; a word that
matches no row raises `IllegalCommand`, `FAULT_INFO` holding its opcode byte (R244); else the command runs. -/
def Obligations.StepRunsPrologueThenDecodedCommand : Prop :=
  ∀ (s t : State) (k : Nat) (w : Word) (rest : List Input),
    s.inbox = .command k w :: rest → ({ s with inbox := rest } : State).focus k = some t →
    (t.ctx.faulted = true → step s = .next t) ∧
    (t.ctx.faulted = false → (∀ o : Opcode, w &&& o.mask ≠ o.matchWord) →
      step s = .next (t.setCtx
        { t.ctx with faultCode := .illegalCommand, faultInfo := field w 56 8 ++ 0#24 })) ∧
    (t.ctx.faulted = false → ∀ i : Instr, decode w = .ok i → step s = exec i t)

/-- Serving a port moves no register and no memory: the contexts are 0 .. `NCTX`-1, the one named is served,
everything else is as it was; a port that does not exist stops the model by name (R262; log 7). -/
def Obligations.ServingAPortOnlySelectsItsContext : Prop :=
  (∀ (s : State) (k : Nat), k < s.contexts.length → ∃ t, s.focus k = some t) ∧
  (∀ (s t : State) (k : Nat), s.focus k = some t →
    t.contexts = s.contexts ∧ t.served = k ∧ s.contexts[k]? = some t.ctx ∧
      t.par = s.par ∧ t.tab = s.tab ∧ t.inbox = s.inbox ∧ t.epoch = s.epoch) ∧
  (∀ (s : State) (k : Nat) (w : Word) (rest : List Input),
    s.inbox = .command k w :: rest → s.contexts.length ≤ k → step s = .fault .noSuchPort)

/-- Between commands the block keeps all state (R265): with nothing presented a step changes nothing. -/
def Obligations.NothingPresentedChangesNothing : Prop :=
  ∀ s : State, s.inbox = [] → step s = .next s

/-- No command, whatever it is and however many come, changes a faulted context; reset leaves no context
faulted and discards the tables (R252). -/
def Obligations.FaultIsFinalUntilReset : Prop :=
  (∀ (n : Nat) (s t : State) (k : Nat) (c : Context),
    Input.reset ∉ s.inbox → s.contexts[k]? = some c → c.faulted = true →
    runSteps n s = .next t → t.contexts[k]? = some c) ∧
  (∀ (s : State) (rest : List Input), s.inbox = .reset :: rest →
    ∃ t, step s = .next t ∧ (∀ c ∈ t.contexts, c.faulted = false) ∧ t.tab.ready = false)

/-- Reset acts on every context and the table unit at once and gives every register and flag its reset value
(R45, R280); the number of contexts and the parameters stay. -/
def Obligations.ResetClearsEveryRegister : Prop :=
  ∀ (s : State) (rest : List Input), s.inbox = .reset :: rest →
    ∃ t, step s = .next t ∧ t.tab.ready = false ∧ (∀ c ∈ t.contexts, c.RegistersClear) ∧
      t.contexts.length = s.contexts.length ∧ t.par = s.par ∧ t.inbox = rest

/-- The state right after reset is sound. -/
def Obligations.ResetStateIsSound : Prop := State.reset.Sound

/-- Every step keeps soundness: the bit writer's W1 and W3, the canonical form of `OUT`, the cursors within
`OUT_CAP`, the open length field, the header, the chain of closed length fields, and built tables that are
those of their inputs (R21, R22, R26, R29, R39, R100, R103, R218). -/
def Obligations.EveryStepKeepsSoundness : Prop :=
  ∀ s t : State, s.Sound → step s = .next t → t.Sound

/-- A command of one context changes no other context (R71, R262). -/
def Obligations.CommandLeavesOtherContextsAlone : Prop :=
  ∀ (s t : State) (k j : Nat) (w : Word) (rest : List Input),
    s.inbox = .command k w :: rest → step s = .next t → j ≠ k → t.contexts[j]? = s.contexts[j]?

/-- Once the tables are built, what a context ends as depends on its own state, its own commands and the
tables alone: not on the other contexts, nor on how commands interleave (R71). -/
def Obligations.ContextDependsOnlyOnItsOwnCommands : Prop :=
  ∀ (s u s' u' : State) (k : Nat),
    s.par = u.par → s.tab = u.tab → s.tab.ready = true → s.contexts[k]? = u.contexts[k]? →
    Input.reset ∉ s.inbox → Input.reset ∉ u.inbox → wordsFor k s.inbox = wordsFor k u.inbox →
    runSteps s.inbox.length s = .next s' → runSteps u.inbox.length u = .next u' →
    s'.contexts[k]? = u'.contexts[k]? ∧ s'.tab = u'.tab

/-! ### The table unit (41_tables.md) -/

/-- `LDDCP` stores one entry of `DCPFX` and changes nothing else (R140). -/
def Obligations.LddcpStoresOneEntry : Prop :=
  ∀ (s : State) (cls : DcClass) (cat : BitVec 4) (len : BitVec 5) (code : BitVec 16),
    s.tab.ready = false → cat.toNat < s.par.dcNcat →
    ∃ t, exec (.lddcp cls cat len code) s = .next t ∧
      t.tab.dcpfxAt cls cat.toNat = ⟨len, code⟩ ∧
      (∀ cls' cat', cat' < 16 → ¬(cls' = cls ∧ cat' = cat.toNat) →
        t.tab.dcpfxAt cls' cat' = s.tab.dcpfxAt cls' cat') ∧
      t = s.setTab { s.tab with dcpfx := t.tab.dcpfx }

/-- `LDACE` stores one entry of `ACLIST` and changes nothing else (R141). -/
def Obligations.LdaceStoresOneEntry : Prop :=
  ∀ (s : State) (idx : BitVec 7) (run : BitVec 6) (level : BitVec 7) (len : BitVec 5) (code : BitVec 16),
    s.tab.ready = false → idx.toNat ≤ 122 →
    ∃ t, exec (.ldace idx run level len code) s = .next t ∧
      t.tab.aceAt idx.toNat = ⟨run, level, len, code⟩ ∧
      (∀ i, i ≠ idx.toNat → t.tab.aceAt i = s.tab.aceAt i) ∧
      t = s.setTab { s.tab with aclist := t.tab.aclist }

/-- `TINIT` on inputs that pass the check builds the unified DC tables (entry `diff + 255` is `DcCode`, entry
511 is 0) and `AC_VLC`, sets `TABLES_READY`, keeps its inputs and touches no context (R142, R145). -/
def Obligations.TinitBuildsDcTablesAndCodes : Prop :=
  ∀ s : State, s.par.Legal → s.tab.ready = false → tablesWellFormed s.par s.tab = true →
    ∃ t, exec .tinit s = .next t ∧ t.tab.ready = true ∧
      (∀ (cls : DcClass) (diff : Int), -255 ≤ diff → diff ≤ 255 →
        dcCode s.par s.tab cls diff =
          some (uniLen (t.tab.uniAt cls (diff + 255).toNat), uniCode (t.tab.uniAt cls (diff + 255).toNat))) ∧
      (∀ cls : DcClass, t.tab.uniAt cls 511 = 0) ∧
      (∀ i, i < 123 → t.tab.vlcAt i = ⟨(s.tab.aceAt i).code, (s.tab.aceAt i).len⟩) ∧
      t.tab.dcpfx = s.tab.dcpfx ∧ t.tab.aclist = s.tab.aclist ∧ t = s.setTab t.tab

/-- `MAX_LEVEL` and `INDEX_RUN` as `TINIT` leaves them (R146; invariant T1 of R39): a run with no entry has 0
and 121; an entry of the list lies at its run's index plus its level less 1; every level up to the maximum
finds the list entry with that run and that level, at an index of at most 120. -/
def Obligations.TinitRunTablesFindTheListEntry : Prop :=
  ∀ s t : State, s.tab.ready = false → tablesWellFormed s.par s.tab = true → exec .tinit s = .next t →
    ∀ r, r < 64 →
      ((∀ i, i < 121 → (s.tab.aceAt i).run.toNat ≠ r) →
        t.tab.maxLevelAt r = 0 ∧ t.tab.indexRunAt r = 121) ∧
      (∀ i, i < 121 → (s.tab.aceAt i).run.toNat = r →
        (s.tab.aceAt i).level.toNat ≤ t.tab.maxLevelAt r ∧
          t.tab.indexRunAt r + (s.tab.aceAt i).level.toNat = i + 1) ∧
      (∀ l, 1 ≤ l → l ≤ t.tab.maxLevelAt r →
        t.tab.indexRunAt r + l - 1 ≤ 120 ∧
          (s.tab.aceAt (t.tab.indexRunAt r + l - 1)).run.toNat = r ∧
          (s.tab.aceAt (t.tab.indexRunAt r + l - 1)).level.toNat = l)

/-- `UNI_AC_LEN` as `TINIT` leaves it: the number of bits the wire format spends on the (run, level), 0 for
level 0 (R40, R147). -/
def Obligations.TinitLengthTableCountsWireBits : Prop :=
  ∀ s t : State, s.tab.ready = false → tablesWellFormed s.par s.tab = true → exec .tinit s = .next t →
    ∀ (run : Nat) (level : Int), run < 64 → -64 ≤ level → level ≤ 63 →
      (t.tab.uniAcLenAt (128 * run + (level + 64).toNat)).toNat =
        if level = 0 then 0 else (wireAc s.tab run level).length

/-- The check of `TINIT` holds exactly when the four conditions of R143 do: lengths 1 .. 16 and codes below
2^length in `DCPFX` and in list entries 0 .. 120, levels from 1 there; levels 1, 2, ... contiguous for each
run; the escape and end-of-block entries. On inputs that fail it `TINIT` raises `BadTable`: no table is
written, `TABLES_READY` stays 0 (R143, R246). -/
def Obligations.TinitRejectsBadTables : Prop :=
  ∀ s : State, s.tab.ready = false →
    (tablesWellFormed s.par s.tab = true ↔
      (∀ cls cat, cat < s.par.dcNcat →
        1 ≤ (s.tab.dcpfxAt cls cat).len.toNat ∧ (s.tab.dcpfxAt cls cat).len.toNat ≤ 16 ∧
          (s.tab.dcpfxAt cls cat).code.toNat < 2 ^ (s.tab.dcpfxAt cls cat).len.toNat) ∧
      (∀ i, i ≤ 120 →
        1 ≤ (s.tab.aceAt i).len.toNat ∧ (s.tab.aceAt i).len.toNat ≤ 16 ∧
          (s.tab.aceAt i).code.toNat < 2 ^ (s.tab.aceAt i).len.toNat ∧ 1 ≤ (s.tab.aceAt i).level.toNat) ∧
      ((s.tab.aceAt 0).level.toNat = 1 ∧
        ∀ i, 1 ≤ i → i ≤ 120 →
          ((s.tab.aceAt i).run = (s.tab.aceAt (i - 1)).run ∧
            (s.tab.aceAt i).level.toNat = (s.tab.aceAt (i - 1)).level.toNat + 1) ∨
          ((∀ j, j < i → (s.tab.aceAt i).run ≠ (s.tab.aceAt j).run) ∧ (s.tab.aceAt i).level.toNat = 1)) ∧
      ((s.tab.aceAt 121).len.toNat = 6 ∧ (s.tab.aceAt 121).code.toNat = 32 ∧
        (s.tab.aceAt 122).len.toNat = 4 ∧ (s.tab.aceAt 122).code.toNat = 6)) ∧
    (tablesWellFormed s.par s.tab = false →
      exec .tinit s =
        .next (s.setCtx { s.ctx with faultCode := .badTable, faultInfo := 0x01000000#32 }))

/-- Once the tables are built no command changes the table unit, and `TINIT` changes nothing at all (R28,
R72, R77, R148). -/
def Obligations.BuiltTablesNeverChange : Prop :=
  ∀ s : State, s.tab.ready = true →
    exec .tinit s = .next s ∧ ∀ (i : Instr) (t : State), exec i s = .next t → t.tab = s.tab

/-- The built tables are a function of `DCPFX`, `ACLIST` and `DC_NCAT`: the same inputs give the same tables,
in whatever context, epoch or instance they are built (R148). -/
def Obligations.SameInputsBuildTheSameTables : Prop :=
  ∀ s u s' u' : State, s.tab.ready = false → u.tab.ready = false →
    s.tab.dcpfx = u.tab.dcpfx → s.tab.aclist = u.tab.aclist → s.par.dcNcat = u.par.dcNcat →
    tablesWellFormed s.par s.tab = true →
    exec .tinit s = .next s' → exec .tinit u = .next u' → s'.tab = u'.tab

/-! ### The DC encoder (42_dc.md, R144) -/

/-- Category and tail of a DC difference: category 0 for 0 alone, category `c ≥ 1` for magnitudes from
`2^(c-1)` up to below `2^c`; the tail is the difference where it is positive and the complement of its
magnitude in `c` bits where it is negative (R144). -/
def Obligations.DcCategoryAndTail : Prop :=
  ∀ diff : Int,
    (dcCategory diff = 0 ↔ diff = 0) ∧
    (∀ c, 1 ≤ c → (dcCategory diff = c ↔ 2 ^ (c - 1) ≤ diff.natAbs ∧ diff.natAbs < 2 ^ c)) ∧
    (0 ≤ diff → (dcTail diff : Int) = diff) ∧
    (diff < 0 → dcTail diff + diff.natAbs + 1 = 2 ^ dcCategory diff)

/-- With built tables `EncodeDC` is `PutBits` of `DcCode` for every difference: the fast path and the slow
path agree (R173). -/
def Obligations.DcFastPathAgreesWithSlowPath : Prop :=
  ∀ (par : Params) (tab : TableUnit) (t : Site) (cls : DcClass) (diff : Int) (c : Context),
    par.Legal → tab.ready = true → tab.Sound par →
    encodeDC par tab t cls diff c =
      match dcCode par tab cls diff with
      | none => .raised (c.raise .internalInvariantViolated t)
      | some p => putBits par t p.1 p.2 c

/-- Bit-lengths of the unified DC tables depend on the magnitude alone, and grow with it exactly where the
loaded prefix lengths do from each category to the next (R149). -/
def Obligations.DcLengthsSymmetricAndMonotone : Prop :=
  ∀ (par : Params) (tab : TableUnit) (cls : DcClass), par.Legal → tab.ready = true → tab.Sound par →
    (∀ d : Nat, d ≤ 255 → uniLen (tab.uniAt cls (255 + d)) = uniLen (tab.uniAt cls (255 - d))) ∧
    ((∀ d e : Nat, d ≤ e → e ≤ 255 → uniLen (tab.uniAt cls (255 + d)) ≤ uniLen (tab.uniAt cls (255 + e))) ↔
      ∀ c, c < 8 → (tab.dcpfxAt cls c).len.toNat + c ≤ (tab.dcpfxAt cls (c + 1)).len.toNat + (c + 1))

/-- `ENCDC` appends the DC code of the difference and changes nothing but the bit writer (R170, R171). -/
def Obligations.EncdcAppendsTheDcCode : Prop :=
  ∀ (s : State) (cls : DcClass) (diff : BitVec 32),
    s.ctx.fsm = .inPicture → s.par.Legal → s.tab.ready = true → s.tab.Sound s.par →
    s.ctx.wr.Sound s.par.outCap → dcCategory diff.toInt < s.par.dcNcat →
    s.ctx.wr.bitPos + (wireDc s.tab cls diff.toInt).length ≤ 8 * s.par.outCap →
    ∃ t, exec (.encdc cls diff) s = .next t ∧
      s.ctx.wr.Appended t.ctx.wr (wireDc s.tab cls diff.toInt) ∧
      t = s.setCtx { s.ctx with wr := t.ctx.wr }

/-- `ENCDC` raises and appends nothing: `InternalInvariantViolated` for a difference whose category has no
prefix, whatever room there is, and `OutputOverflow` for a code that does not fit (R170, R171, R243, R247). -/
def Obligations.EncdcRaisesAndAppendsNothing : Prop :=
  ∀ (s : State) (cls : DcClass) (diff : BitVec 32),
    s.ctx.fsm = .inPicture → s.tab.ready = true → s.par.Legal →
    (s.par.dcNcat ≤ dcCategory diff.toInt →
      exec (.encdc cls diff) s =
        .next (s.setCtx { s.ctx with
          faultCode := .internalInvariantViolated, faultInfo := 0x20000000#32 })) ∧
    (s.tab.Sound s.par → dcCategory diff.toInt < s.par.dcNcat →
      8 * s.par.outCap < s.ctx.wr.bitPos + (wireDc s.tab cls diff.toInt).length →
      exec (.encdc cls diff) s =
        .next (s.setCtx { s.ctx with faultCode := .outputOverflow, faultInfo := 0x20000000#32 }))

/-! ### The block encoder (43_block.md) -/

/-- `LDSCAN` stores one entry of `SCAN` and changes nothing else (R180). -/
def Obligations.LdscanStoresOneEntry : Prop :=
  ∀ (s : State) (k j : BitVec 6), s.ctx.fsm = .idle ∨ s.ctx.fsm = .done →
    ∃ t, exec (.ldscan k j) s = .next t ∧ t.ctx.scanAt k.toNat = j.toNat ∧
      (∀ i, i ≠ k.toNat → t.ctx.scanAt i = s.ctx.scanAt i) ∧
      t = s.setCtx { s.ctx with scan := t.ctx.scan }

/-- `LDCOEF` stores one coefficient, read as a signed 16-bit value, and changes nothing else (R181). -/
def Obligations.LdcoefStoresOneCoefficient : Prop :=
  ∀ (s : State) (blk : BitVec 4) (pos : BitVec 6) (value : BitVec 16), blk.toNat ≤ 11 →
    ∃ t, exec (.ldcoef blk pos value) s = .next t ∧ t.ctx.coefAt blk.toNat pos.toNat = value.toInt ∧
      (∀ n p, p < 64 → ¬(n = blk.toNat ∧ p = pos.toNat) → t.ctx.coefAt n p = s.ctx.coefAt n p) ∧
      t = s.setCtx { s.ctx with coef := t.ctx.coef }

/-- `LDLAST` stores one `last_index` and changes nothing else (R182). -/
def Obligations.LdlastStoresOneIndex : Prop :=
  ∀ (s : State) (blk : BitVec 4) (last : BitVec 6), blk.toNat ≤ 11 →
    ∃ t, exec (.ldlast blk last) s = .next t ∧ t.ctx.lastAt blk.toNat = last.toNat ∧
      (∀ n, n ≠ blk.toNat → t.ctx.lastAt n = s.ctx.lastAt n) ∧
      t = s.setCtx { s.ctx with last := t.ctx.last }

/-- `ENCBLK` on valid data raises nothing (R254) and emits exactly the wire format of the block, computed from
the tables the host loaded: DC code of previous less current, run/level codes in scan order, end-of-block
(R106 to R110); the component's predictor becomes the DC coefficient; nothing else changes (R183, R184). -/
def Obligations.EncblkEmitsTheWireFormat : Prop :=
  ∀ (s : State) (n : BitVec 4),
    s.ctx.fsm = .inPicture → n.toNat ≤ 11 → s.par.Legal → s.tab.ready = true → s.tab.Sound s.par →
    s.ctx.wr.Sound s.par.outCap →
    BlockFits s.par s.ctx n.toNat (s.ctx.lastDcAt (component n.toNat)) →
    s.ctx.wr.bitPos + (wireBlock s.tab s.ctx n.toNat (s.ctx.lastDcAt (component n.toNat))).length ≤
      8 * s.par.outCap →
    ∃ t, exec (.encblk n) s = .next t ∧
      s.ctx.wr.Appended t.ctx.wr (wireBlock s.tab s.ctx n.toNat (s.ctx.lastDcAt (component n.toNat))) ∧
      t.ctx.lastDcAt (component n.toNat) = s.ctx.coefAt n.toNat 0 ∧
      (∀ i, i ≠ component n.toNat → t.ctx.lastDcAt i = s.ctx.lastDcAt i) ∧
      t = s.setCtx { s.ctx with wr := t.ctx.wr, lastDc := t.ctx.lastDc }

/-- A level no escape can carry, first met at scan position `i`, aborts `ENCBLK`: the DC code and the AC codes
before position `i` stand, the predictor is updated, no bit of the escape is written, and `FAULT_INFO` holds
the opcode, the block and the position (R183, R243, R250). -/
def Obligations.EncblkLevelOutOfRangeAborts : Prop :=
  ∀ (s : State) (n : BitVec 4) (i : Nat),
    s.ctx.fsm = .inPicture → n.toNat ≤ 11 → s.par.Legal → s.tab.ready = true → s.tab.Sound s.par →
    s.ctx.wr.Sound s.par.outCap →
    dcCategory (s.ctx.lastDcAt (component n.toNat) - s.ctx.coefAt n.toNat 0) < s.par.dcNcat →
    1 ≤ i → i ≤ s.ctx.lastAt n.toNat →
    (∀ k, 1 ≤ k → k < i → LevelOk (s.ctx.coefAt n.toNat (s.ctx.scanAt k))) →
    ¬LevelOk (s.ctx.coefAt n.toNat (s.ctx.scanAt i)) →
    ∀ bits : List Bool,
      bits = wireDc s.tab (blockClass n.toNat)
          (s.ctx.lastDcAt (component n.toNat) - s.ctx.coefAt n.toNat 0) ++
        ((runLevels 0 ((List.range' 1 (i - 1)).map fun k =>
          s.ctx.coefAt n.toNat (s.ctx.scanAt k))).map fun p => wireAc s.tab p.1 p.2).flatten →
      s.ctx.wr.bitPos + bits.length ≤ 8 * s.par.outCap →
      ∃ t, exec (.encblk n) s = .next t ∧ s.ctx.wr.Appended t.ctx.wr bits ∧
        t.ctx.lastDcAt (component n.toNat) = s.ctx.coefAt n.toNat 0 ∧
        (∀ j, j ≠ component n.toNat → t.ctx.lastDcAt j = s.ctx.lastDcAt j) ∧
        t.ctx.faultCode = .internalInvariantViolated ∧
        t.ctx.faultInfo = 0x21#8 ++ n ++ BitVec.ofNat 6 i ++ 0#14 ∧
        t = s.setCtx { s.ctx with
          wr := t.ctx.wr, lastDc := t.ctx.lastDc, faultCode := t.ctx.faultCode, faultInfo := t.ctx.faultInfo }

/-- A DC difference with no prefix aborts `ENCBLK` before anything is written: the bits and the predictors are
as they were (R183, R243). -/
def Obligations.EncblkDcWithoutPrefixAborts : Prop :=
  ∀ (s : State) (n : BitVec 4),
    s.ctx.fsm = .inPicture → n.toNat ≤ 11 → s.par.Legal → s.tab.ready = true →
    s.par.dcNcat ≤ dcCategory (s.ctx.lastDcAt (component n.toNat) - s.ctx.coefAt n.toNat 0) →
    exec (.encblk n) s =
      .next (s.setCtx { s.ctx with
        faultCode := .internalInvariantViolated, faultInfo := 0x21#8 ++ n ++ 0#20 })

/-- An append inside `ENCBLK` that does not fit, the one at place `m` of the block's appends: everything before
it stands, it wrote nothing, and `FAULT_INFO` holds the opcode, the block and the scan position, 0 for the DC
code and the end-of-block. The predictor is updated unless the DC code itself did not fit. The levels met so
far lie in an escape's range: else `EncblkLevelOutOfRangeAborts` tells the end (R183, R247, R249, R250). -/
def Obligations.EncblkOverflowKeepsEarlierCodes : Prop :=
  ∀ (s : State) (n : BitVec 4) (appends : List (Nat × List Bool)) (m pos : Nat) (bits : List Bool),
    s.ctx.fsm = .inPicture → n.toNat ≤ 11 → s.par.Legal → s.tab.ready = true → s.tab.Sound s.par →
    s.ctx.wr.Sound s.par.outCap →
    dcCategory (s.ctx.lastDcAt (component n.toNat) - s.ctx.coefAt n.toNat 0) < s.par.dcNcat →
    appends = blockAppends s.tab s.ctx n.toNat (s.ctx.lastDcAt (component n.toNat)) →
    appends[m]? = some (pos, bits) →
    (∀ p ∈ appends.take (m + 1), 1 ≤ p.1 → LevelOk (s.ctx.coefAt n.toNat (s.ctx.scanAt p.1))) →
    ∀ before : List Bool, before = ((appends.take m).map Prod.snd).flatten →
      s.ctx.wr.bitPos + before.length ≤ 8 * s.par.outCap →
      8 * s.par.outCap < s.ctx.wr.bitPos + before.length + bits.length →
      ∃ t, exec (.encblk n) s = .next t ∧ s.ctx.wr.Appended t.ctx.wr before ∧
        (m = 0 → t.ctx.lastDc = s.ctx.lastDc) ∧
        (1 ≤ m → t.ctx.lastDcAt (component n.toNat) = s.ctx.coefAt n.toNat 0 ∧
          ∀ j, j ≠ component n.toNat → t.ctx.lastDcAt j = s.ctx.lastDcAt j) ∧
        t.ctx.faultCode = .outputOverflow ∧
        t.ctx.faultInfo = 0x21#8 ++ n ++ BitVec.ofNat 6 pos ++ 0#14 ∧
        t = s.setCtx { s.ctx with
          wr := t.ctx.wr, lastDc := t.ctx.lastDc, faultCode := t.ctx.faultCode, faultInfo := t.ctx.faultInfo }

/-- `ENCBLK n` reads `COEF[n][0]`, `LAST[n]`, and `SCAN[i]`, `COEF[n][SCAN[i]]` for `i` in 1 .. `LAST[n]` only:
states that differ elsewhere in those memories give the same bits, predictors and fault (R186). -/
def Obligations.EncblkReadsOnlyItsOwnEntries : Prop :=
  ∀ (s u s' u' : State) (n : BitVec 4),
    u = s.setCtx { s.ctx with coef := u.ctx.coef, last := u.ctx.last, scan := u.ctx.scan } →
    u.ctx.coefAt n.toNat 0 = s.ctx.coefAt n.toNat 0 → u.ctx.lastAt n.toNat = s.ctx.lastAt n.toNat →
    (∀ i, 1 ≤ i → i ≤ s.ctx.lastAt n.toNat →
      u.ctx.coefAt n.toNat (u.ctx.scanAt i) = s.ctx.coefAt n.toNat (s.ctx.scanAt i)) →
    exec (.encblk n) s = .next s' → exec (.encblk n) u = .next u' →
    u'.ctx.wr = s'.ctx.wr ∧ u'.ctx.lastDc = s'.ctx.lastDc ∧
      u'.ctx.faultCode = s'.ctx.faultCode ∧ u'.ctx.faultInfo = s'.ctx.faultInfo

/-- A `last_index` larger than the true position is harmless: the extra positions hold zeros and the bits,
predictors and fault are the same (R186). -/
def Obligations.LargerLastIndexChangesNothing : Prop :=
  ∀ (s s' u' : State) (n : BitVec 4) (m : BitVec 6),
    n.toNat ≤ 11 → s.ctx.lastAt n.toNat ≤ m.toNat →
    (∀ k, s.ctx.lastAt n.toNat < k → k ≤ m.toNat → s.ctx.coefAt n.toNat (s.ctx.scanAt k) = 0) →
    exec (.encblk n) s = .next s' →
    exec (.encblk n) (s.setCtx { s.ctx with last := Tbl.set s.ctx.last n.toNat m }) = .next u' →
    u'.ctx.wr = s'.ctx.wr ∧ u'.ctx.lastDc = s'.ctx.lastDc ∧
      u'.ctx.faultCode = s'.ctx.faultCode ∧ u'.ctx.faultInfo = s'.ctx.faultInfo

/-! ### The macroblock encoder (44_macroblock.md) -/

/-- `ENCMB` on valid data emits its format's blocks in the order of R200, each with the predictor the block
before it in its component left, and changes nothing but the bit writer and the predictors (R105, R200,
R201, R254). The three orders, and component and class of each block index (R185), are written out. -/
def Obligations.EncmbEmitsBlocksInWireOrder : Prop :=
  (List.range 12).map component = [0, 0, 0, 0, 1, 2, 1, 2, 1, 2, 1, 2] ∧
  (List.range 12).map blockClass = [.luma, .luma, .luma, .luma, .chroma, .chroma, .chroma, .chroma,
    .chroma, .chroma, .chroma, .chroma] ∧
  ∀ (s : State) (order : List Nat),
    (s.ctx.chromaFormat = .yuv420 → order = [0, 1, 2, 3, 4, 5]) →
    (s.ctx.chromaFormat = .yuv422 → order = [0, 1, 2, 3, 4, 5, 6, 7]) →
    (s.ctx.chromaFormat = .yuv444 → order = [0, 1, 2, 3, 4, 5, 8, 9, 6, 7, 10, 11]) →
    s.ctx.fsm = .inPicture → s.par.Legal → s.tab.ready = true → s.tab.Sound s.par →
    s.ctx.wr.Sound s.par.outCap → BlocksFit s.par s.ctx order s.ctx.lastDc →
    s.ctx.wr.bitPos + (wireBlocks s.tab s.ctx order s.ctx.lastDc).length ≤ 8 * s.par.outCap →
    ∃ t, exec .encmb s = .next t ∧
      s.ctx.wr.Appended t.ctx.wr (wireBlocks s.tab s.ctx order s.ctx.lastDc) ∧
      t.ctx.lastDc = predictorsAfter s.ctx order s.ctx.lastDc ∧
      t = s.setCtx { s.ctx with wr := t.ctx.wr, lastDc := t.ctx.lastDc }

/-- `ENCMB` equals, in every effect including faults, the sequence `ENCBLK n` for `n` in the block order of
R200, written out, except that the opcode field of a fault's `FAULT_INFO` reads 0x22 instead of 0x21 (R200,
R201). -/
def Obligations.EncmbEqualsEncblkSequence : Prop :=
  ∀ (s : State) (order : List (BitVec 4)),
    (s.ctx.chromaFormat = .yuv420 → order = [0, 1, 2, 3, 4, 5]) →
    (s.ctx.chromaFormat = .yuv422 → order = [0, 1, 2, 3, 4, 5, 6, 7]) →
    (s.ctx.chromaFormat = .yuv444 → order = [0, 1, 2, 3, 4, 5, 8, 9, 6, 7, 10, 11]) →
    s.ctx.fsm = .inPicture → s.tab.ready = true → s.ctx.faulted = false →
    ∃ t u, exec .encmb s = .next t ∧ runCommands (order.map .encblk) s = .next u ∧
      (u.ctx.faulted = false → t = u) ∧
      (u.ctx.faulted = true → u.ctx.faultInfo.extractLsb' 24 8 = 0x21#8 ∧
        t = u.setCtx { u.ctx with faultInfo := 0x22#8 ++ u.ctx.faultInfo.extractLsb' 0 24 })

/-! ### Configuration and framer (45_framer.md) -/

/-- `CFG` of valid dimensions and a supported format latches them and changes nothing else (R210). -/
def Obligations.CfgLatchesValidParameters : Prop :=
  ∀ (s : State) (pixfmt : BitVec 4) (width height : BitVec 16),
    s.ctx.fsm = .idle ∨ s.ctx.fsm = .done → width.toNat % 16 = 0 → width.toNat ≤ 65500 →
    height.toNat ≤ 65500 → pixfmt.toNat ≤ 2 →
    ∃ t, exec (.cfg pixfmt width height) s = .next t ∧ t.ctx.chromaFormat.code.toNat = pixfmt.toNat ∧
      t = s.setCtx { s.ctx with
        width := width, height := height, chromaFormat := t.ctx.chromaFormat, cfgValid := true }

/-- `CFG` rejects: bad dimensions first, then an unsupported format; nothing is latched (R241, R242, R249). -/
def Obligations.CfgRejectsDimensionsThenFormat : Prop :=
  ∀ (s : State) (pixfmt : BitVec 4) (width height : BitVec 16), s.ctx.fsm = .idle ∨ s.ctx.fsm = .done →
    (width.toNat % 16 ≠ 0 ∨ 65500 < width.toNat ∨ 65500 < height.toNat →
      exec (.cfg pixfmt width height) s =
        .next (s.setCtx { s.ctx with faultCode := .invalidDimensions, faultInfo := 0x02000000#32 })) ∧
    (width.toNat % 16 = 0 → width.toNat ≤ 65500 → height.toNat ≤ 65500 → 2 < pixfmt.toNat →
      exec (.cfg pixfmt width height) s =
        .next (s.setCtx { s.ctx with faultCode := .unsupportedPixelFormat, faultInfo := 0x02000000#32 }))

/-- `BEGINP` writes the seven bytes of the header and the first placeholder at `OUT[0]`, puts the cursor at
byte 7, `SLICE_START` at 4 and the predictors at the baseline, and enters `InPicture`; every other byte and
register stands (R211). -/
def Obligations.BeginpWritesTheHeader : Prop :=
  ∀ (s : State) (q : BitVec 8),
    s.ctx.fsm = .idle ∨ s.ctx.fsm = .done → s.par.Legal → s.tab.ready = true → s.ctx.cfgValid = true →
    1 ≤ q.toNat → q.toNat ≤ 50 →
    ∃ t, exec (.beginp q) s = .next t ∧
      (∀ a, a < 7 → (wireHeader q.toNat)[a]? = some (t.ctx.wr.out.read a)) ∧
      (∀ a, 7 ≤ a → t.ctx.wr.out.read a = s.ctx.wr.out.read a) ∧
      t.ctx.wr.byteCursor = 7 ∧ t.ctx.wr.bitCursor = 0 ∧
      (∀ i, i < 3 → t.ctx.lastDcAt i = s.par.dcBaseline.toInt) ∧
      t = s.setCtx { s.ctx with
        wr := t.ctx.wr, qscale := q, sliceStart := 4, lastDc := t.ctx.lastDc, fsm := .inPicture }

/-- `ENDSL` flushes, writes the slice length (the field's three bytes and the payload) at the old
`SLICE_START`, opens the next field as three zero bytes, moves `SLICE_START` and the cursor, and puts the
predictors at the baseline; every other byte and register stands (R103, R212, R218). -/
def Obligations.EndslClosesTheSlice : Prop :=
  ∀ s : State, s.ctx.fsm = .inPicture → s.ctx.wr.Sound s.par.outCap →
    s.ctx.sliceStart + 3 ≤ s.ctx.wr.byteCursor →
    ∀ b, b = (s.ctx.wr.bitPos + 7) / 8 → b - s.ctx.sliceStart < 2 ^ 24 → b + 3 ≤ s.par.outCap →
    ∃ t, exec .endsl s = .next t ∧
      t.ctx.wr.out.memRead s.ctx.sliceStart 3 = b - s.ctx.sliceStart ∧
      t.ctx.wr.out.memRead b 3 = 0 ∧
      (∀ a, ¬(s.ctx.sliceStart ≤ a ∧ a < s.ctx.sliceStart + 3) → ¬(b ≤ a ∧ a < b + 3) →
        t.ctx.wr.out.read a = s.ctx.wr.out.read a) ∧
      t.ctx.wr.byteCursor = b + 3 ∧ t.ctx.wr.bitCursor = 0 ∧
      (∀ i, i < 3 → t.ctx.lastDcAt i = s.par.dcBaseline.toInt) ∧
      t = s.setCtx { s.ctx with wr := t.ctx.wr, sliceStart := b, lastDc := t.ctx.lastDc }

/-- A slice of 2^24 bytes or more: the flush has happened, the back-patch has not, `SLICE_START` stands (R212,
R248). -/
def Obligations.EndslTooLongRaises : Prop :=
  ∀ s : State, s.ctx.fsm = .inPicture →
    ∀ b, b = (s.ctx.wr.bitPos + 7) / 8 → 2 ^ 24 ≤ b - s.ctx.sliceStart →
    ∃ t, exec .endsl s = .next t ∧ t.ctx.wr.out = s.ctx.wr.out ∧ t.ctx.wr.byteCursor = b ∧
      t.ctx.wr.bitCursor = 0 ∧
      t = s.setCtx { s.ctx with
        wr := t.ctx.wr, faultCode := .sliceLengthOverflow, faultInfo := 0x31000000#32 }

/-- No room for the next placeholder: the back-patch has been made and `SLICE_START` has moved; the predictors
stand (R212, R247, R250). -/
def Obligations.EndslWithoutRoomRaises : Prop :=
  ∀ s : State, s.ctx.fsm = .inPicture →
    ∀ b, b = (s.ctx.wr.bitPos + 7) / 8 → b - s.ctx.sliceStart < 2 ^ 24 → s.par.outCap < b + 3 →
    ∃ t, exec .endsl s = .next t ∧
      t.ctx.wr.out.memRead s.ctx.sliceStart 3 = b - s.ctx.sliceStart ∧
      (∀ a, ¬(s.ctx.sliceStart ≤ a ∧ a < s.ctx.sliceStart + 3) →
        t.ctx.wr.out.read a = s.ctx.wr.out.read a) ∧
      t.ctx.wr.byteCursor = b ∧ t.ctx.wr.bitCursor = 0 ∧
      t = s.setCtx { s.ctx with
        wr := t.ctx.wr, sliceStart := b, faultCode := .outputOverflow, faultInfo := 0x31000000#32 }

/-- `ENDP` with the open slice empty moves to `Done` and changes nothing else: no byte is written (R213). -/
def Obligations.EndpFinishesThePicture : Prop :=
  ∀ s : State, s.ctx.fsm = .inPicture → s.ctx.wr.bitCursor = 0 →
    s.ctx.wr.byteCursor = s.ctx.sliceStart + 3 →
    exec .endp s = .next (s.setCtx { s.ctx with fsm := .done })

/-- `ABORTP` in any state moves to `Idle` and zeroes the cursors and `SLICE_START`; `OUT` and everything else
stand (R214). -/
def Obligations.AbortpDiscardsThePicture : Prop :=
  ∀ s : State, ∃ t, exec .abortp s = .next t ∧ t.ctx.wr.out = s.ctx.wr.out ∧ t.ctx.wr.bitPos = 0 ∧
    t = s.setCtx { s.ctx with fsm := .idle, sliceStart := 0, wr := t.ctx.wr }

/-! ### The bit writer (40_bitwriter.md) -/

/-- `FLUSH` moves the cursor to the next byte boundary, within the capacity, writes no byte, changes nothing
else, changes nothing at all at a boundary, and a second `FLUSH` changes nothing (R131, R133). -/
def Obligations.FlushAlignsAndIsIdempotent : Prop :=
  ∀ s : State, s.ctx.fsm = .inPicture →
    (∃ t, exec .flush s = .next t ∧ t.ctx.wr.out = s.ctx.wr.out ∧
      t.ctx.wr.byteCursor = (s.ctx.wr.bitPos + 7) / 8 ∧ t.ctx.wr.bitCursor = 0 ∧
      (s.ctx.wr.Sound s.par.outCap → t.ctx.wr.byteCursor ≤ s.par.outCap) ∧
      t = s.setCtx { s.ctx with wr := t.ctx.wr } ∧ exec .flush t = .next t) ∧
    (s.ctx.wr.bitCursor = 0 → exec .flush s = .next s)

/-- `PUTB` within its contract and the capacity appends the `n` bits of the value, bit 0 into the lowest unused
bit, and changes nothing but the bit writer (R61, R130, R132). -/
def Obligations.PutbAppendsBitsLowestFirst : Prop :=
  ∀ (s : State) (n : BitVec 6) (value : BitVec 32),
    s.ctx.fsm = .inPicture → s.ctx.wr.Sound s.par.outCap → 1 ≤ n.toNat → n.toNat ≤ 32 →
    value.toNat < 2 ^ n.toNat → s.ctx.wr.bitPos + n.toNat ≤ 8 * s.par.outCap →
    ∃ t, exec (.putb n value) s = .next t ∧ s.ctx.wr.Appended t.ctx.wr (bitsOf n.toNat value.toNat) ∧
      t = s.setCtx { s.ctx with wr := t.ctx.wr }

/-- `PUTB` past the capacity raises `OutputOverflow` and writes nothing (R75, R130, R247). -/
def Obligations.PutbPastCapacityWritesNothing : Prop :=
  ∀ (s : State) (n : BitVec 6) (value : BitVec 32),
    s.ctx.fsm = .inPicture → 1 ≤ n.toNat → n.toNat ≤ 32 → value.toNat < 2 ^ n.toNat →
    8 * s.par.outCap < s.ctx.wr.bitPos + n.toNat →
    exec (.putb n value) s =
      .next (s.setCtx { s.ctx with faultCode := .outputOverflow, faultInfo := 0x10000000#32 })

/-- The concatenation law: two appends leave the same state as the joined one where the capacity admits all
bits; else both end in `OutputOverflow`, the joined form having written nothing and the split form the first
value if it fits (R134). -/
def Obligations.TwoPutsEqualTheJoinedPut : Prop :=
  ∀ (s : State) (a b : BitVec 6) (x y : BitVec 32),
    s.ctx.fsm = .inPicture → s.ctx.faulted = false → s.ctx.wr.Sound s.par.outCap →
    1 ≤ a.toNat → 1 ≤ b.toNat → a.toNat + b.toNat ≤ 32 → x.toNat < 2 ^ a.toNat → y.toNat < 2 ^ b.toNat →
    ∃ t u, runCommands [.putb a x, .putb b y] s = .next t ∧
      runCommands [.putb (a + b) (x ||| (y <<< a.toNat))] s = .next u ∧
      (s.ctx.wr.bitPos + a.toNat + b.toNat ≤ 8 * s.par.outCap → t = u ∧ t.ctx.faulted = false) ∧
      (8 * s.par.outCap < s.ctx.wr.bitPos + a.toNat + b.toNat →
        t.ctx.faultCode = .outputOverflow ∧ u.ctx.faultCode = .outputOverflow ∧ u.ctx.wr = s.ctx.wr ∧
        (s.ctx.wr.bitPos + a.toNat ≤ 8 * s.par.outCap →
          s.ctx.wr.Appended t.ctx.wr (bitsOf a.toNat x.toNat)) ∧
        (8 * s.par.outCap < s.ctx.wr.bitPos + a.toNat → t.ctx.wr = s.ctx.wr))

/-- Round trip: after any sequence of appends the capacity admits, reading the output back LSB-first from the
bit where each value began recovers each value (R135). -/
def Obligations.PutSequenceReadsBack : Prop :=
  ∀ (s : State) (puts : List (BitVec 6 × BitVec 32)),
    s.ctx.fsm = .inPicture → s.ctx.faulted = false → s.ctx.wr.Sound s.par.outCap →
    (∀ p ∈ puts, 1 ≤ p.1.toNat ∧ p.1.toNat ≤ 32 ∧ p.2.toNat < 2 ^ p.1.toNat) →
    s.ctx.wr.bitPos + (puts.map fun p => p.1.toNat).sum ≤ 8 * s.par.outCap →
    ∃ t, runCommands (puts.map fun p => .putb p.1 p.2) s = .next t ∧ t.ctx.faulted = false ∧
      ∀ (i : Nat) (h : i < puts.length),
        ofBits ((List.range puts[i].1.toNat).map fun k =>
          t.ctx.wr.bitAt (s.ctx.wr.bitPos + ((puts.take i).map fun p => p.1.toNat).sum + k)) =
            puts[i].2.toNat

/-! ### The whole machine -/

/-- A command one of whose requirements fails raises `ContractViolation` with nothing else changed: the
legality table of R216 and the operand ranges of R245. -/
def Obligations.UnmetRequirementRaisesContractViolation : Prop :=
  ∀ (s : State) (i : Instr), accepts s i = false →
    exec i s =
      .next (s.setCtx { s.ctx with faultCode := .contractViolation, faultInfo := i.opcode.code ++ 0#24 })

/-- A command raises only the faults the table of R240 gives it, and one that meets its requirements raises
no `ContractViolation` (R240, R245). -/
def Obligations.FaultsComeOnlyFromTheirCommands : Prop :=
  ∀ (s t : State) (i : Instr), s.ctx.faulted = false → exec i s = .next t → t.ctx.faulted = true →
    mayRaise t.ctx.faultCode i = true ∧
      (accepts s i = true → t.ctx.faultCode ≠ .contractViolation)

/-- `FAULT_INFO` after a fault (R250): the opcode on top, 0 in bits 13..0, and the block index and scan position
0 but for `ENCBLK` and `ENCMB`. -/
def Obligations.FaultInfoNamesTheCommand : Prop :=
  ∀ (s t : State) (i : Instr), s.ctx.faulted = false → exec i s = .next t → t.ctx.faulted = true →
    t.ctx.faultInfo.extractLsb' 24 8 = i.opcode.code ∧ t.ctx.faultInfo.extractLsb' 0 14 = 0 ∧
      (i.opcode ≠ .encblk → i.opcode ≠ .encmb → t.ctx.faultInfo.extractLsb' 14 10 = 0)

/-- `FSM` moves only as the transition table says (R215). -/
def Obligations.FramerMovesOnlyAlongItsTable : Prop :=
  ∀ (s t : State) (i : Instr), exec i s = .next t → FsmMove s.ctx.fsm i t.ctx.fsm

/-- Inside a picture no command changes a byte before the open length field, nor a whole byte after it that
has been written (R69). -/
def Obligations.WrittenBytesOfThePictureAreFinal : Prop :=
  ∀ (s t : State) (i : Instr), s.ctx.fsm = .inPicture →
    s.ctx.sliceStart + 3 ≤ s.ctx.wr.byteCursor → exec i s = .next t →
    ∀ a, a < s.ctx.sliceStart ∨ (s.ctx.sliceStart + 3 ≤ a ∧ a < s.ctx.wr.byteCursor) →
      t.ctx.wr.out.read a = s.ctx.wr.out.read a

/-- Inside a picture no command but `ABORTP` moves the write position back (R21, W2). -/
def Obligations.WritePositionNeverMovesBack : Prop :=
  ∀ (s t : State) (i : Instr), s.ctx.fsm = .inPicture → i ≠ .abortp → exec i s = .next t →
    s.ctx.wr.bitPos ≤ t.ctx.wr.bitPos

/-- The idempotent commands (R66): repeated at once, `TINIT`, `FLUSH`, `CFG`, `ABORTP` and the loads change
nothing more. -/
def Obligations.IdempotentCommands : Prop :=
  ∀ (s t : State) (i : Instr),
    i.opcode ∈ [Opcode.tinit, .flush, .cfg, .abortp, .lddcp, .ldace, .ldscan, .ldcoef, .ldlast] →
    runCommand i s = .next t → runCommand i t = .next t

/-- A finished picture re-parses (R100, R218): walking the length fields from the offset the header gives ends,
and the payloads found tile the bytes from offset 4 to the trailing placeholder at `SLICE_START`, which is
the last three bytes of the picture. -/
def Obligations.FinishedPictureReparses : Prop :=
  ∀ s : State, s.Sound → s.ctx.fsm = .done → s.ctx.faulted = false →
    s.ctx.wr.bitCursor = 0 ∧ s.ctx.wr.byteCursor = s.ctx.sliceStart + 3 ∧
    s.ctx.wr.out.memRead s.ctx.sliceStart 3 = 0 ∧
    ∃ slices, walkSlices s.ctx.wr.out (s.par.outCap + 1) (s.ctx.wr.out.memRead 1 3) = some slices ∧
      Tiles 4 s.ctx.sliceStart slices

/-! ### The read port (20_memory.md R74, 10_state.md R31) -/

/-- `HostRead` of the register space: `STATUS` by its fields, every register of the table, `LAST_DC`
sign-extended and the others zero-extended, `BITPOS` from the cursors, and 0 from number 14 on (R31, R32,
R74). -/
def Obligations.HostReadOfRegisters : Prop :=
  ∀ (s : State) (k : Nat) (c : Context),
    s.contexts[k]? = some c → c.wr.bitPos < 2 ^ 64 → c.sliceStart < 2 ^ 64 →
    (∃ v, s.hostRead k 0 0 = some v ∧ v.toNat =
      c.fsm.code.toNat + 4 * s.tab.ready.toNat + 8 * c.cfgValid.toNat + 16 * c.faulted.toNat) ∧
    (∃ v, s.hostRead k 0 1 = some v ∧ v.toNat = c.faultCode.code.toNat) ∧
    (∃ v, s.hostRead k 0 2 = some v ∧ v.toNat = c.faultInfo.toNat) ∧
    (∃ v, s.hostRead k 0 3 = some v ∧ v.toNat = c.qscale.toNat) ∧
    (∃ v, s.hostRead k 0 4 = some v ∧ v.toNat = c.chromaFormat.code.toNat) ∧
    (∀ i, i < 3 → ∃ v, s.hostRead k 0 (5 + i) = some v ∧ v.toInt = c.lastDcAt i) ∧
    (∃ v, s.hostRead k 0 8 = some v ∧ v.toNat = c.sliceStart) ∧
    (∃ v, s.hostRead k 0 9 = some v ∧ v.toNat = c.wr.byteCursor) ∧
    (∃ v, s.hostRead k 0 10 = some v ∧ v.toNat = c.wr.bitCursor.val) ∧
    (∃ v, s.hostRead k 0 11 = some v ∧ v.toNat = 8 * c.wr.byteCursor + c.wr.bitCursor.val) ∧
    (∃ v, s.hostRead k 0 12 = some v ∧ v.toNat = c.width.toNat) ∧
    (∃ v, s.hostRead k 0 13 = some v ∧ v.toNat = c.height.toNat) ∧
    (∀ j, 14 ≤ j → s.hostRead k 0 j = some 0)

/-- `HostRead` of every memory: each element zero-extended, a coefficient sign-extended, list entries packed;
0 past the last element of the space (R60, R74). A `DCPFX` index whose category is `DC_NCAT` or more reads 0:
the model takes it to lie outside the space (log 11). -/
def Obligations.HostReadOfMemories : Prop :=
  ∀ (s : State) (k : Nat) (c : Context), s.contexts[k]? = some c →
    let rd : Nat → Nat → Option Nat := fun space j => (s.hostRead k space j).map BitVec.toNat
    (∀ j, rd 1 j = some (if j < s.par.outCap then (c.wr.out.read j).toNat else 0)) ∧
    (∀ j, rd 2 j = some (if j < 512 then (s.tab.uniAt .luma j).toNat else 0)) ∧
    (∀ j, rd 3 j = some (if j < 512 then (s.tab.uniAt .chroma j).toNat else 0)) ∧
    (∀ j, rd 4 j = some (if j < 123 then
      (s.tab.vlcAt j).len.toNat * 2 ^ 16 + (s.tab.vlcAt j).code.toNat else 0)) ∧
    (∀ j, rd 5 j = some (if j < 64 then s.tab.maxLevelAt j else 0)) ∧
    (∀ j, rd 6 j = some (if j < 64 then s.tab.indexRunAt j else 0)) ∧
    (∀ j, rd 7 j = some (if j < 8192 then (s.tab.uniAcLenAt j).toNat else 0)) ∧
    (∀ n p, n < 12 → p < 64 → (s.hostRead k 8 (64 * n + p)).map BitVec.toInt = some (c.coefAt n p)) ∧
    (∀ j, 768 ≤ j → rd 8 j = some 0) ∧
    (∀ j, rd 9 j = some (if j < 12 then c.lastAt j else 0)) ∧
    (∀ j, rd 10 j = some (if j < 64 then c.scanAt j else 0)) ∧
    (∀ cls cat, cat < 16 → rd 11 (16 * classNumber cls + cat) = some (if cat < s.par.dcNcat then
      (s.tab.dcpfxAt cls cat).len.toNat * 2 ^ 16 + (s.tab.dcpfxAt cls cat).code.toNat else 0)) ∧
    (∀ j, 32 ≤ j → rd 11 j = some 0) ∧
    (∀ j, rd 12 j = some (if j < 123 then
      (s.tab.aceAt j).run.toNat * 2 ^ 28 + (s.tab.aceAt j).level.toNat * 2 ^ 21 +
        (s.tab.aceAt j).len.toNat * 2 ^ 16 + (s.tab.aceAt j).code.toNat else 0))
end

