-- ==== Sys2Proof/Laws/Bits.lean ====
section
/-! SUPPORT. Integers as lists of bits, first sent first (Word.lean; spec/00_scope.md R6, R7). -/

namespace Sys2Proof

theorem bitsOf_length (n v : Nat) : (bitsOf n v).length = n := by simp [bitsOf]

theorem bitsOf_getElem (n v k : Nat) (h : k < (bitsOf n v).length) : (bitsOf n v)[k] = v.testBit k := by
  simp [bitsOf]

/-- The low bits, then the rest. -/
theorem bitsOf_add (a b v : Nat) : bitsOf (a + b) v = bitsOf a v ++ bitsOf b (v >>> a) := by
  simp [bitsOf, List.range_add, Function.comp_def, Nat.testBit_shiftRight]

/-- Only the low bits are sent. -/
theorem bitsOf_congr {n v u : Nat} (h : ∀ k < n, v.testBit k = u.testBit k) : bitsOf n v = bitsOf n u := by
  simp only [bitsOf]
  apply List.map_congr_left
  intro k hk
  exact h k (List.mem_range.1 hk)

/-- Two values joined, the first low (R134). -/
theorem bitsOf_join (a b x y : Nat) (hx : x < 2 ^ a) :
    bitsOf (a + b) (x ||| (y <<< a)) = bitsOf a x ++ bitsOf b y := by
  rw [bitsOf_add]
  congr 1
  · apply bitsOf_congr
    intro k hk
    simp [Nat.testBit_or, Nat.testBit_shiftLeft, Nat.not_le.2 hk]
  · apply bitsOf_congr
    intro k _
    simp [Nat.testBit_shiftRight, Nat.testBit_or, Nat.testBit_shiftLeft,
      Nat.testBit_eq_false_of_lt (Nat.lt_of_lt_of_le hx (Nat.pow_le_pow_right (by omega) (Nat.le_add_right a k)))]

/-- Two values added, the first low: the same as joining them. -/
theorem add_shift_eq_or (a x y : Nat) (hx : x < 2 ^ a) : x + (y <<< a) = x ||| (y <<< a) := by
  rw [Nat.or_comm, Nat.shiftLeft_eq, Nat.mul_comm, Nat.add_comm]
  exact Nat.two_pow_add_eq_or_of_lt hx y

/-- Reading back the bits of a value that fits gives the value (R135). -/
theorem ofBits_bitsOf {n v : Nat} (h : v < 2 ^ n) : ofBits (bitsOf n v) = v := by
  induction n generalizing v with
  | zero => simp [bitsOf, ofBits] at *; omega
  | succ n ih =>
    have h1 : bitsOf (n + 1) v = v.testBit 0 :: bitsOf n (v >>> 1) := by
      rw [Nat.add_comm, bitsOf_add]; simp [bitsOf]
    rw [h1, ofBits, ih (by rw [Nat.shiftRight_eq_div_pow]; omega), Nat.shiftRight_eq_div_pow]
    simp only [Nat.testBit_zero]
    rcases Nat.mod_two_eq_zero_or_one v with h2 | h2 <;> simp [h2] <;> omega

theorem ofBits_lt (bs : List Bool) : ofBits bs < 2 ^ bs.length := by
  induction bs with
  | nil => simp [ofBits]
  | cons b bs ih => cases b <;> simp [ofBits, Nat.pow_succ] <;> omega

theorem bitsOf_zero_value (n : Nat) : bitsOf n 0 = List.replicate n false := by
  apply List.ext_getElem <;> simp [bitsOf]

/-- `floor_log2` (R7): the unique `c` with `2^c ≤ x < 2^(c+1)`. -/
theorem floorLog2_eq_iff {x c : Nat} (hx : 1 ≤ x) : floorLog2 x = c ↔ 2 ^ c ≤ x ∧ x < 2 ^ (c + 1) := by
  unfold floorLog2
  exact Nat.log2_eq_iff (by omega)

end Sys2Proof
end

