-- ==== Sys2Proof/Laws/Decode.lean ====
section
/-! SUPPORT. Fields of a joined word, and the opcode map row by row (Decode.lean; spec/30_encoding.md R91,
R93). -/

namespace Sys2Proof

theorem extract_low {v w : Nat} (a : BitVec v) (b : BitVec w) (s len : Nat) (h : s + len ≤ w) :
    (a ++ b).extractLsb' s len = b.extractLsb' s len := by
  ext i hi
  simp only [BitVec.getElem_extractLsb', BitVec.getLsbD_append]
  rw [if_pos (by omega)]

theorem extract_high {v w : Nat} (a : BitVec v) (b : BitVec w) (s len : Nat) (h : w ≤ s) :
    (a ++ b).extractLsb' s len = a.extractLsb' (s - w) len := by
  ext i hi
  simp only [BitVec.getElem_extractLsb', BitVec.getLsbD_append]
  rw [if_neg (by omega), show s + i - w = s - w + i by omega]

theorem extract_all {w : Nat} (b : BitVec w) : b.extractLsb' 0 w = b := by
  ext i hi; simp

/-- A field of the `and` is the `and` of the fields. -/
theorem field_and (w m : Word) (lo len : Nat) : field (w &&& m) lo len = field w lo len &&& field m lo len := by
  ext i hi; simp [field]

/-- Every row's mask covers the opcode byte, and its match word starts with it (R93). -/
theorem Opcode.rows_start_with_code (o : Opcode) :
    field o.mask 56 8 = 0xFF#8 ∧ field o.matchWord 56 8 = o.code := by
  cases o <;> decide

/-- A word that matches a row has the row's opcode byte (R93). -/
theorem Opcode.code_of_matches {o : Opcode} {w : Word} (h : o.matchesWord w = true) :
    field w 56 8 = o.code := by
  have h1 : w &&& o.mask = o.matchWord := by simpa [Opcode.matchesWord] using h
  have h2 := congrArg (fun x => field x 56 8) h1
  simp only [field_and, o.rows_start_with_code.1, o.rows_start_with_code.2] at h2
  rwa [show (0xFF#8) = BitVec.allOnes 8 by decide, BitVec.and_allOnes] at h2

/-- Looking up the opcode byte of a row finds the row: the codes differ (R93). -/
theorem Opcode.ofByte_code (o : Opcode) : Opcode.ofByte o.code = some o := by cases o <;> decide

/-- The row found for an opcode byte has that code. -/
theorem Opcode.code_of_ofByte {b : BitVec 8} {o : Opcode} (h : Opcode.ofByte b = some o) : o.code = b := by
  simpa using List.find?_some h

/-- The decoder on a word that matches a row. -/
theorem decode_of_matches {o : Opcode} {w : Word} (h : o.matchesWord w = true) :
    decode w = .ok (o.operands w) := by
  simp [decode, Opcode.code_of_matches h, Opcode.ofByte_code, h]

/-- What the decoder accepts: the word matches the row it is read by (R93). -/
theorem matches_of_decode {w : Word} {i : Instr} (h : decode w = .ok i) :
    ∃ o : Opcode, o.matchesWord w = true ∧ i = o.operands w := by
  unfold decode at h
  split at h
  · cases h
  · rename_i o _
    split at h
    · exact ⟨o, ‹_›, by cases h; rfl⟩
    · cases h

end Sys2Proof
end

