-- ==== Sys2Proof/Laws/State.lean ====
section
/-! SUPPORT. One lemma per field per named update of the state (Machine/Ops.lean), each true by `rfl`. -/

namespace Sys2Proof.Machine

open Sys2Proof

variable (c : Context) (s : State) (w : Writer)

/-! `Context.setWriter` -/
@[simp] theorem Context.setWriter_wr : (c.setWriter w).wr = w := rfl
@[simp] theorem Context.setWriter_qscale : (c.setWriter w).qscale = c.qscale := rfl
@[simp] theorem Context.setWriter_chromaFormat : (c.setWriter w).chromaFormat = c.chromaFormat := rfl
@[simp] theorem Context.setWriter_lastDc : (c.setWriter w).lastDc = c.lastDc := rfl
@[simp] theorem Context.setWriter_scan : (c.setWriter w).scan = c.scan := rfl
@[simp] theorem Context.setWriter_sliceStart : (c.setWriter w).sliceStart = c.sliceStart := rfl
@[simp] theorem Context.setWriter_fsm : (c.setWriter w).fsm = c.fsm := rfl
@[simp] theorem Context.setWriter_cfgValid : (c.setWriter w).cfgValid = c.cfgValid := rfl
@[simp] theorem Context.setWriter_width : (c.setWriter w).width = c.width := rfl
@[simp] theorem Context.setWriter_height : (c.setWriter w).height = c.height := rfl
@[simp] theorem Context.setWriter_faultCode : (c.setWriter w).faultCode = c.faultCode := rfl
@[simp] theorem Context.setWriter_faultInfo : (c.setWriter w).faultInfo = c.faultInfo := rfl
@[simp] theorem Context.setWriter_coef : (c.setWriter w).coef = c.coef := rfl
@[simp] theorem Context.setWriter_last : (c.setWriter w).last = c.last := rfl

/-! `Context.setLastDc` -/
@[simp] theorem Context.setLastDc_wr (i : Nat) (v : BitVec 16) : (c.setLastDc i v).wr = c.wr := rfl
@[simp] theorem Context.setLastDc_qscale (i : Nat) (v : BitVec 16) : (c.setLastDc i v).qscale = c.qscale := rfl
@[simp] theorem Context.setLastDc_chromaFormat (i : Nat) (v : BitVec 16) : (c.setLastDc i v).chromaFormat = c.chromaFormat := rfl
@[simp] theorem Context.setLastDc_lastDc (i : Nat) (v : BitVec 16) : (c.setLastDc i v).lastDc = Tbl.set c.lastDc i v := rfl
@[simp] theorem Context.setLastDc_scan (i : Nat) (v : BitVec 16) : (c.setLastDc i v).scan = c.scan := rfl
@[simp] theorem Context.setLastDc_sliceStart (i : Nat) (v : BitVec 16) : (c.setLastDc i v).sliceStart = c.sliceStart := rfl
@[simp] theorem Context.setLastDc_fsm (i : Nat) (v : BitVec 16) : (c.setLastDc i v).fsm = c.fsm := rfl
@[simp] theorem Context.setLastDc_cfgValid (i : Nat) (v : BitVec 16) : (c.setLastDc i v).cfgValid = c.cfgValid := rfl
@[simp] theorem Context.setLastDc_width (i : Nat) (v : BitVec 16) : (c.setLastDc i v).width = c.width := rfl
@[simp] theorem Context.setLastDc_height (i : Nat) (v : BitVec 16) : (c.setLastDc i v).height = c.height := rfl
@[simp] theorem Context.setLastDc_faultCode (i : Nat) (v : BitVec 16) : (c.setLastDc i v).faultCode = c.faultCode := rfl
@[simp] theorem Context.setLastDc_faultInfo (i : Nat) (v : BitVec 16) : (c.setLastDc i v).faultInfo = c.faultInfo := rfl
@[simp] theorem Context.setLastDc_coef (i : Nat) (v : BitVec 16) : (c.setLastDc i v).coef = c.coef := rfl
@[simp] theorem Context.setLastDc_last (i : Nat) (v : BitVec 16) : (c.setLastDc i v).last = c.last := rfl

/-! `Context.setSliceStart` -/
@[simp] theorem Context.setSliceStart_wr (v : Nat) : (c.setSliceStart v).wr = c.wr := rfl
@[simp] theorem Context.setSliceStart_qscale (v : Nat) : (c.setSliceStart v).qscale = c.qscale := rfl
@[simp] theorem Context.setSliceStart_chromaFormat (v : Nat) : (c.setSliceStart v).chromaFormat = c.chromaFormat := rfl
@[simp] theorem Context.setSliceStart_lastDc (v : Nat) : (c.setSliceStart v).lastDc = c.lastDc := rfl
@[simp] theorem Context.setSliceStart_scan (v : Nat) : (c.setSliceStart v).scan = c.scan := rfl
@[simp] theorem Context.setSliceStart_sliceStart (v : Nat) : (c.setSliceStart v).sliceStart = v := rfl
@[simp] theorem Context.setSliceStart_fsm (v : Nat) : (c.setSliceStart v).fsm = c.fsm := rfl
@[simp] theorem Context.setSliceStart_cfgValid (v : Nat) : (c.setSliceStart v).cfgValid = c.cfgValid := rfl
@[simp] theorem Context.setSliceStart_width (v : Nat) : (c.setSliceStart v).width = c.width := rfl
@[simp] theorem Context.setSliceStart_height (v : Nat) : (c.setSliceStart v).height = c.height := rfl
@[simp] theorem Context.setSliceStart_faultCode (v : Nat) : (c.setSliceStart v).faultCode = c.faultCode := rfl
@[simp] theorem Context.setSliceStart_faultInfo (v : Nat) : (c.setSliceStart v).faultInfo = c.faultInfo := rfl
@[simp] theorem Context.setSliceStart_coef (v : Nat) : (c.setSliceStart v).coef = c.coef := rfl
@[simp] theorem Context.setSliceStart_last (v : Nat) : (c.setSliceStart v).last = c.last := rfl

/-! `Context.setFsm` -/
@[simp] theorem Context.setFsm_wr (f : Fsm) : (c.setFsm f).wr = c.wr := rfl
@[simp] theorem Context.setFsm_qscale (f : Fsm) : (c.setFsm f).qscale = c.qscale := rfl
@[simp] theorem Context.setFsm_chromaFormat (f : Fsm) : (c.setFsm f).chromaFormat = c.chromaFormat := rfl
@[simp] theorem Context.setFsm_lastDc (f : Fsm) : (c.setFsm f).lastDc = c.lastDc := rfl
@[simp] theorem Context.setFsm_scan (f : Fsm) : (c.setFsm f).scan = c.scan := rfl
@[simp] theorem Context.setFsm_sliceStart (f : Fsm) : (c.setFsm f).sliceStart = c.sliceStart := rfl
@[simp] theorem Context.setFsm_fsm (f : Fsm) : (c.setFsm f).fsm = f := rfl
@[simp] theorem Context.setFsm_cfgValid (f : Fsm) : (c.setFsm f).cfgValid = c.cfgValid := rfl
@[simp] theorem Context.setFsm_width (f : Fsm) : (c.setFsm f).width = c.width := rfl
@[simp] theorem Context.setFsm_height (f : Fsm) : (c.setFsm f).height = c.height := rfl
@[simp] theorem Context.setFsm_faultCode (f : Fsm) : (c.setFsm f).faultCode = c.faultCode := rfl
@[simp] theorem Context.setFsm_faultInfo (f : Fsm) : (c.setFsm f).faultInfo = c.faultInfo := rfl
@[simp] theorem Context.setFsm_coef (f : Fsm) : (c.setFsm f).coef = c.coef := rfl
@[simp] theorem Context.setFsm_last (f : Fsm) : (c.setFsm f).last = c.last := rfl

/-! `Context.raise` -/
@[simp] theorem Context.raise_wr (f : FaultCode) (t : Site) : (c.raise f t).wr = c.wr := rfl
@[simp] theorem Context.raise_qscale (f : FaultCode) (t : Site) : (c.raise f t).qscale = c.qscale := rfl
@[simp] theorem Context.raise_chromaFormat (f : FaultCode) (t : Site) : (c.raise f t).chromaFormat = c.chromaFormat := rfl
@[simp] theorem Context.raise_lastDc (f : FaultCode) (t : Site) : (c.raise f t).lastDc = c.lastDc := rfl
@[simp] theorem Context.raise_scan (f : FaultCode) (t : Site) : (c.raise f t).scan = c.scan := rfl
@[simp] theorem Context.raise_sliceStart (f : FaultCode) (t : Site) : (c.raise f t).sliceStart = c.sliceStart := rfl
@[simp] theorem Context.raise_fsm (f : FaultCode) (t : Site) : (c.raise f t).fsm = c.fsm := rfl
@[simp] theorem Context.raise_cfgValid (f : FaultCode) (t : Site) : (c.raise f t).cfgValid = c.cfgValid := rfl
@[simp] theorem Context.raise_width (f : FaultCode) (t : Site) : (c.raise f t).width = c.width := rfl
@[simp] theorem Context.raise_height (f : FaultCode) (t : Site) : (c.raise f t).height = c.height := rfl
@[simp] theorem Context.raise_faultCode (f : FaultCode) (t : Site) : (c.raise f t).faultCode = f := rfl
@[simp] theorem Context.raise_faultInfo (f : FaultCode) (t : Site) : (c.raise f t).faultInfo = t.info := rfl
@[simp] theorem Context.raise_coef (f : FaultCode) (t : Site) : (c.raise f t).coef = c.coef := rfl
@[simp] theorem Context.raise_last (f : FaultCode) (t : Site) : (c.raise f t).last = c.last := rfl

/-! `Context.resetLastDc` -/
@[simp] theorem Context.resetLastDc_wr (par : Params) : (c.resetLastDc par).wr = c.wr := rfl
@[simp] theorem Context.resetLastDc_qscale (par : Params) : (c.resetLastDc par).qscale = c.qscale := rfl
@[simp] theorem Context.resetLastDc_chromaFormat (par : Params) : (c.resetLastDc par).chromaFormat = c.chromaFormat := rfl
@[simp] theorem Context.resetLastDc_scan (par : Params) : (c.resetLastDc par).scan = c.scan := rfl
@[simp] theorem Context.resetLastDc_sliceStart (par : Params) : (c.resetLastDc par).sliceStart = c.sliceStart := rfl
@[simp] theorem Context.resetLastDc_fsm (par : Params) : (c.resetLastDc par).fsm = c.fsm := rfl
@[simp] theorem Context.resetLastDc_cfgValid (par : Params) : (c.resetLastDc par).cfgValid = c.cfgValid := rfl
@[simp] theorem Context.resetLastDc_width (par : Params) : (c.resetLastDc par).width = c.width := rfl
@[simp] theorem Context.resetLastDc_height (par : Params) : (c.resetLastDc par).height = c.height := rfl
@[simp] theorem Context.resetLastDc_faultCode (par : Params) : (c.resetLastDc par).faultCode = c.faultCode := rfl
@[simp] theorem Context.resetLastDc_faultInfo (par : Params) : (c.resetLastDc par).faultInfo = c.faultInfo := rfl
@[simp] theorem Context.resetLastDc_coef (par : Params) : (c.resetLastDc par).coef = c.coef := rfl
@[simp] theorem Context.resetLastDc_last (par : Params) : (c.resetLastDc par).last = c.last := rfl

/-! `State.setCtx` -/
@[simp] theorem State.setCtx_par : (s.setCtx c).par = s.par := rfl
@[simp] theorem State.setCtx_tab : (s.setCtx c).tab = s.tab := rfl
@[simp] theorem State.setCtx_lower : (s.setCtx c).lower = s.lower := rfl
@[simp] theorem State.setCtx_ctx : (s.setCtx c).ctx = c := rfl
@[simp] theorem State.setCtx_higher : (s.setCtx c).higher = s.higher := rfl
@[simp] theorem State.setCtx_inbox : (s.setCtx c).inbox = s.inbox := rfl
@[simp] theorem State.setCtx_epoch : (s.setCtx c).epoch = s.epoch := rfl

/-! `State.setTab` -/
@[simp] theorem State.setTab_par (t : TableUnit) : (s.setTab t).par = s.par := rfl
@[simp] theorem State.setTab_tab (t : TableUnit) : (s.setTab t).tab = t := rfl
@[simp] theorem State.setTab_lower (t : TableUnit) : (s.setTab t).lower = s.lower := rfl
@[simp] theorem State.setTab_ctx (t : TableUnit) : (s.setTab t).ctx = s.ctx := rfl
@[simp] theorem State.setTab_higher (t : TableUnit) : (s.setTab t).higher = s.higher := rfl
@[simp] theorem State.setTab_inbox (t : TableUnit) : (s.setTab t).inbox = s.inbox := rfl
@[simp] theorem State.setTab_epoch (t : TableUnit) : (s.setTab t).epoch = s.epoch := rfl

/-! Accessors read through updates -/
@[simp] theorem Context.setWriter_coefAt (n p : Nat) : (c.setWriter w).coefAt n p = c.coefAt n p := rfl
@[simp] theorem Context.setWriter_scanAt (i : Nat) : (c.setWriter w).scanAt i = c.scanAt i := rfl
@[simp] theorem Context.setWriter_lastAt (n : Nat) : (c.setWriter w).lastAt n = c.lastAt n := rfl
@[simp] theorem Context.setWriter_lastDcAt (i : Nat) : (c.setWriter w).lastDcAt i = c.lastDcAt i := rfl
@[simp] theorem Context.setLastDc_coefAt (i : Nat) (v : BitVec 16) (n p : Nat) :
    (c.setLastDc i v).coefAt n p = c.coefAt n p := rfl
@[simp] theorem Context.setLastDc_scanAt (j : Nat) (v : BitVec 16) (i : Nat) :
    (c.setLastDc j v).scanAt i = c.scanAt i := rfl
@[simp] theorem Context.setLastDc_lastAt (i : Nat) (v : BitVec 16) (n : Nat) :
    (c.setLastDc i v).lastAt n = c.lastAt n := rfl
@[simp] theorem Context.setWriter_setWriter (w' : Writer) : (c.setWriter w).setWriter w' = c.setWriter w' := rfl
@[simp] theorem State.setCtx_setCtx (c' : Context) : (s.setCtx c).setCtx c' = s.setCtx c' := rfl
@[simp] theorem State.setCtx_self : s.setCtx s.ctx = s := rfl
@[simp] theorem State.setTab_self : s.setTab s.tab = s := rfl
@[simp] theorem Context.setWriter_self : c.setWriter c.wr = c := rfl

/-! How a piece of pseudocode ends -/
@[simp] theorem Flow.context_ran : (Flow.ran c).context = c := rfl
@[simp] theorem Flow.context_raised : (Flow.raised c).context = c := rfl
@[simp] theorem Flow.andThen_ran (k : Context → Flow) : (Flow.ran c).andThen k = k c := rfl
@[simp] theorem Flow.andThen_raised (k : Context → Flow) : (Flow.raised c).andThen k = .raised c := rfl

end Sys2Proof.Machine
end

