-- ==== Sys2Proof/Laws/Table.lean ====
section
/-! SUPPORT. What reading, writing and building a memory of fixed size give (Machine/Table.lean). -/

namespace Sys2Proof.Machine

variable {α : Type} {n : Nat}

/-- Reading entry `i` of a built memory gives the value it was built from. -/
theorem Tbl.get_build [Inhabited α] (f : Nat → α) {i : Nat} (h : i < n) :
    Tbl.get (Tbl.build n f) i = f i := by
  have hl : i < (Tbl.build n f).toList.length := by simpa [Tbl.build] using h
  simp [Tbl.get, h, Tbl.build, Vector.getElem_mk]

/-- Reading the entry just written gives the value written. -/
theorem Tbl.get_set_same [Inhabited α] (v : Vector α n) {i : Nat} (a : α) (h : i < n) :
    Tbl.get (Tbl.set v i a) i = a := by
  simp [Tbl.get, Tbl.set, h]

/-- Writing one entry leaves every other entry alone. -/
theorem Tbl.get_set_other [Inhabited α] (v : Vector α n) {i j : Nat} (a : α) (h : j ≠ i) :
    Tbl.get (Tbl.set v i a) j = Tbl.get v j := by
  by_cases hi : i < n <;> by_cases hj : j < n <;>
    simp [Tbl.get, Tbl.set, hi, hj, Ne.symm h]

/-- Two memories with the same entries are the same. -/
theorem Tbl.ext_get [Inhabited α] {v u : Vector α n} (h : ∀ i, i < n → Tbl.get v i = Tbl.get u i) :
    v = u := by
  ext i hi
  simpa [Tbl.get, hi] using h i hi

/-- Writing an entry a second time replaces the first value. -/
theorem Tbl.set_set [Inhabited α] (v : Vector α n) (i : Nat) (a b : α) :
    Tbl.set (Tbl.set v i a) i b = Tbl.set v i b := by
  by_cases hi : i < n <;> simp [Tbl.set, hi]

/-- Writing back what an entry holds changes nothing. -/
theorem Tbl.set_get [Inhabited α] (v : Vector α n) {i : Nat} (h : i < n) :
    Tbl.set v i (Tbl.get v i) = v := by
  simp [Tbl.set, Tbl.get, h]

end Sys2Proof.Machine
end

