-- ==== Sys2Proof/Laws/Memory.lean ====
section
/-! SUPPORT. What reading and writing `OUT` give (spec/20_memory.md R68): read after write, the frame, and
the canonical form every write keeps. -/

namespace Sys2Proof.Machine

open Sys2Proof

/-- A cell list after a put: the new byte at its address, every other address as before. -/
theorem cellsGet_put (l : List Host.Cell) (a : Nat) (x : Byte) (b : Nat) :
    cellsGet (cellsPut l a x) b = if b = a then some x else cellsGet l b := by
  induction l with
  | nil => simp [cellsPut, cellsGet]
  | cons p rest ih =>
    obtain ⟨d, y⟩ := p
    simp only [cellsPut]
    split
    · simp [cellsGet]
    · split
      · subst d; simp only [cellsGet]; split <;> rfl
      · simp only [cellsGet, ih]
        split
        · rw [if_neg]; omega
        · rfl

/-- Every cell of a put is the new one or was there before. -/
theorem mem_cellsPut {l : List Host.Cell} {a : Nat} {x : Byte} {p : Host.Cell} (h : p ∈ cellsPut l a x) :
    p = (a, x) ∨ p ∈ l := by
  induction l with
  | nil => simpa [cellsPut] using h
  | cons q rest ih =>
    obtain ⟨d, y⟩ := q
    simp only [cellsPut] at h
    split at h
    · simpa using h
    · split at h
      · rcases List.mem_cons.1 h with h | h
        · exact .inl h
        · exact .inr (List.mem_cons_of_mem _ h)
      · rcases List.mem_cons.1 h with h | h
        · exact .inr (by simp [h])
        · exact (ih h).imp id (List.mem_cons_of_mem _)

/-- A put keeps the addresses strictly rising. -/
theorem cellsPut_rising {l : List Host.Cell} (h : l.Pairwise fun p q => p.1 < q.1) (a : Nat) (x : Byte) :
    (cellsPut l a x).Pairwise fun p q => p.1 < q.1 := by
  induction l with
  | nil => simp [cellsPut]
  | cons q rest ih =>
    obtain ⟨d, y⟩ := q
    have hq := (List.pairwise_cons.1 h).1
    have hr := (List.pairwise_cons.1 h).2
    simp only [cellsPut]
    split
    · refine List.pairwise_cons.2 ⟨fun p hp => ?_, h⟩
      rcases List.mem_cons.1 hp with rfl | hp
      · assumption
      · have := hq p hp; simp only at this ⊢; omega
    · split
      · subst d; exact List.pairwise_cons.2 ⟨hq, hr⟩
      · refine List.pairwise_cons.2 ⟨fun p hp => ?_, ih hr⟩
        rcases mem_cellsPut hp with rfl | hp
        · simp only; omega
        · exact hq p hp

/-- Read after write (R68). -/
theorem OutMem.read_write (m : OutMem) (a : Nat) (x : Byte) (b : Nat) :
    (m.write a x).read b = if b = a then x else m.read b := by
  simp only [OutMem.read, OutMem.write, cellsGet_put]
  split
  · rename_i h; split at h <;> simp_all
  · rename_i h; split at h <;> simp_all

/-- A write keeps the canonical form. -/
theorem OutMem.write_wellFormed {m : OutMem} (h : m.WellFormed) (a : Nat) (x : Byte) :
    (m.write a x).WellFormed := cellsPut_rising h a x

/-- A write inside the memory lists no address outside it. -/
theorem OutMem.write_inside {m : OutMem} {cap a : Nat} (h : ∀ p ∈ m.cells, p.1 < cap) (ha : a < cap)
    (x : Byte) : ∀ p ∈ (m.write a x).cells, p.1 < cap := by
  intro p hp
  rcases mem_cellsPut hp with rfl | hp
  · exact ha
  · exact h p hp

/-- `MemWrite(addr, 3, v)` as three byte writes (R68, R212). -/
theorem OutMem.memWrite_three (m : OutMem) (addr v : Nat) :
    m.memWrite addr 3 v =
      ((m.write addr (BitVec.ofNat 8 v)).write (addr + 1) (BitVec.ofNat 8 (v >>> 8))).write (addr + 2)
        (BitVec.ofNat 8 (v >>> 16)) := by
  simp [OutMem.memWrite, List.range_succ]

/-- `MemRead(addr, 3)` as a sum of three bytes (R68). -/
theorem OutMem.memRead_three (m : OutMem) (addr : Nat) :
    m.memRead addr 3 =
      (m.read addr).toNat + (m.read (addr + 1)).toNat * 256 + (m.read (addr + 2)).toNat * 65536 := by
  simp [OutMem.memRead, List.range_succ]; ring

/-- Reading back a three-byte write gives the value (R68, R103). -/
theorem OutMem.memRead_memWrite_three (m : OutMem) (addr : Nat) {v : Nat} (h : v < 2 ^ 24) :
    (m.memWrite addr 3 v).memRead addr 3 = v := by
  simp only [OutMem.memRead_three, OutMem.memWrite_three, OutMem.read_write, Nat.shiftRight_eq_div_pow]
  simp
  omega

/-- A three-byte write leaves every other byte alone. -/
theorem OutMem.read_memWrite_three (m : OutMem) {addr b : Nat} (v : Nat) (h : b < addr ∨ addr + 3 ≤ b) :
    (m.memWrite addr 3 v).read b = m.read b := by
  simp only [OutMem.memWrite_three, OutMem.read_write]
  rw [if_neg (by omega), if_neg (by omega), if_neg (by omega)]

/-- `MemRead` depends only on the bytes it reads. -/
theorem OutMem.memRead_congr {m m' : OutMem} {addr n : Nat}
    (h : ∀ b, addr ≤ b → b < addr + n → m.read b = m'.read b) : m.memRead addr n = m'.memRead addr n := by
  unfold OutMem.memRead
  congr 1
  apply List.map_congr_left
  intro b hb
  rw [h (addr + b) (by omega) (by simpa using hb)]

/-- A three-byte write keeps the canonical form. -/
theorem OutMem.memWrite_three_wellFormed {m : OutMem} (h : m.WellFormed) (addr v : Nat) :
    (m.memWrite addr 3 v).WellFormed := by
  rw [OutMem.memWrite_three]
  exact write_wellFormed (write_wellFormed (write_wellFormed h _ _) _ _) _ _

/-- A three-byte write inside the memory lists no address outside it. -/
theorem OutMem.memWrite_three_inside {m : OutMem} {cap addr : Nat} (h : ∀ p ∈ m.cells, p.1 < cap)
    (ha : addr + 3 ≤ cap) (v : Nat) : ∀ p ∈ (m.memWrite addr 3 v).cells, p.1 < cap := by
  rw [OutMem.memWrite_three]
  exact write_inside (write_inside (write_inside h (by omega) _) (by omega) _) (by omega) _

end Sys2Proof.Machine
end

