-- ==== Sys2Proof/Laws/Writer.lean ====
section
/-! SUPPORT. What the bit writer does (spec/40_bitwriter.md R130, R131): where a bit lands, what stays, and
that soundness (10_state.md R21: W1, W3) is kept. -/

namespace Sys2Proof.Machine

open Sys2Proof

variable (w : Writer)

/-! ### One bit -/

/-- The cursor moves one bit. -/
theorem Writer.putBit_bitPos (b : Bool) : (w.putBit b).bitPos = w.bitPos + 1 := by
  simp only [Writer.bitPos, Writer.putBit]
  have := w.bitCursor.isLt
  split <;> split <;> simp at * <;> omega

/-- No byte but the current one changes. -/
theorem Writer.putBit_read_other (b : Bool) {a : Nat} (h : a ≠ w.byteCursor) :
    (w.putBit b).out.read a = w.out.read a := by
  simp [Writer.putBit, OutMem.read_write, h]

/-- Where the output bits come from after one bit (R130). -/
theorem Writer.putBit_bitAt (b : Bool) (p : Nat) :
    (w.putBit b).bitAt p =
      if p / 8 = w.byteCursor then
        (decide (w.bitCursor ≠ 0) && w.bitAt p) || (decide (p = w.bitPos) && b)
      else w.bitAt p := by
  simp only [Writer.bitAt, Writer.putBit, OutMem.read_write]
  split
  · rename_i h
    have hp : p % 8 < 8 := Nat.mod_lt _ (by omega)
    have hk := w.bitCursor.isLt
    have hd : (p = w.bitPos) ↔ p % 8 = w.bitCursor.val := by
      simp only [Writer.bitPos, ← h]; omega
    rw [BitVec.getLsbD_or, BitVec.getLsbD_shiftLeft, BitVec.getLsbD_setWidth, BitVec.getLsbD_ofBool]
    rw [h]
    congr 1
    · by_cases h0 : w.bitCursor = 0 <;> simp [h0]
    · simp only [hd]
      rcases Nat.lt_trichotomy (p % 8) w.bitCursor.val with hl | he | hg
      · simp [hl]; intro h; omega
      · simp [he]
      · have h1 : ¬ p % 8 < w.bitCursor.val := by omega
        have h2 : ¬ p % 8 = w.bitCursor.val := by omega
        have h3 : p % 8 - w.bitCursor.val ≠ 0 := by omega
        simp [h1, h2, h3]
  · rfl

/-- W1 for bits (R21): the bits of the current byte at and above the cursor are 0. -/
def Writer.Clean : Prop := w.bitCursor ≠ 0 → ∀ p, w.bitPos ≤ p → p / 8 = w.byteCursor → w.bitAt p = false

theorem Writer.clean_of_lt
    (h : w.bitCursor ≠ 0 → (w.out.read w.byteCursor).toNat < 2 ^ w.bitCursor.val) : w.Clean := by
  intro h0 p hp h8
  simp only [Writer.bitAt, h8, BitVec.getLsbD]
  refine Nat.testBit_eq_false_of_lt (Nat.lt_of_lt_of_le (h h0) (Nat.pow_le_pow_right (by omega) ?_))
  simp only [Writer.bitPos] at hp; omega

theorem Writer.lt_of_clean (h : w.Clean) (h0 : w.bitCursor ≠ 0) :
    (w.out.read w.byteCursor).toNat < 2 ^ w.bitCursor.val := by
  apply Nat.lt_pow_two_of_testBit
  intro i hi
  by_cases h8 : i < 8
  · have := h h0 (8 * w.byteCursor + i) (by simp only [Writer.bitPos]; omega) (by omega)
    simp only [Writer.bitAt, BitVec.getLsbD] at this
    have e1 : (8 * w.byteCursor + i) / 8 = w.byteCursor := by omega
    have e2 : (8 * w.byteCursor + i) % 8 = i := by omega
    rwa [e1, e2] at this
  · exact Nat.testBit_eq_false_of_lt
      (Nat.lt_of_lt_of_le (BitVec.isLt _) (Nat.pow_le_pow_right (by omega) (by omega)))

/-- The byte and bit cursors as quotient and remainder of the bit position. -/
theorem Writer.byteCursor_eq : w.byteCursor = w.bitPos / 8 := by
  have := w.bitCursor.isLt; simp only [Writer.bitPos]; omega

theorem Writer.bitCursor_eq : w.bitCursor.val = w.bitPos % 8 := by
  have := w.bitCursor.isLt; simp only [Writer.bitPos]; omega

theorem Writer.bitCursor_ne_zero : w.bitCursor ≠ 0 ↔ w.bitPos % 8 ≠ 0 := by
  rw [← Writer.bitCursor_eq, ne_eq, ne_eq, Fin.ext_iff]; rfl

/-- One bit keeps W1. -/
theorem Writer.putBit_clean (b : Bool) (h : w.Clean) : (w.putBit b).Clean := by
  intro h0 p hp h8
  rw [Writer.bitCursor_ne_zero, Writer.putBit_bitPos] at h0
  rw [Writer.putBit_bitPos] at hp
  rw [Writer.byteCursor_eq, Writer.putBit_bitPos] at h8
  rw [Writer.putBit_bitAt]
  have hb := w.byteCursor_eq
  split
  · rename_i h1
    have : p ≠ w.bitPos := by omega
    by_cases hc : w.bitCursor = 0
    · simp [hc, this]
    · simp [h hc p (by omega) h1, this]
  · rename_i h1; omega

/-! ### A list of bits -/

theorem Writer.emit_nil : w.emit [] = w := rfl

theorem Writer.emit_cons (b : Bool) (bs : List Bool) : w.emit (b :: bs) = (w.putBit b).emit bs := rfl

theorem Writer.emit_append (bs cs : List Bool) : w.emit (bs ++ cs) = (w.emit bs).emit cs := by
  simp [Writer.emit, List.foldl_append]

/-- The cursor moves by the number of bits (R130). -/
theorem Writer.emit_bitPos (bs : List Bool) : (w.emit bs).bitPos = w.bitPos + bs.length := by
  induction bs generalizing w with
  | nil => rfl
  | cons b bs ih => rw [Writer.emit_cons, ih, Writer.putBit_bitPos]; simp; omega

theorem Writer.emit_clean (bs : List Bool) (h : w.Clean) : (w.emit bs).Clean := by
  induction bs generalizing w with
  | nil => exact h
  | cons b bs ih => exact ih _ (w.putBit_clean b h)

/-- Bits below the old cursor are not changed (R130). -/
theorem Writer.emit_bitAt_below (bs : List Bool) {p : Nat} (h : p < w.bitPos) :
    (w.emit bs).bitAt p = w.bitAt p := by
  induction bs generalizing w with
  | nil => rfl
  | cons b bs ih =>
    rw [Writer.emit_cons, ih _ (by rw [Writer.putBit_bitPos]; omega), Writer.putBit_bitAt]
    have hb := w.byteCursor_eq
    split
    · rename_i h1
      have h2 : p ≠ w.bitPos := by omega
      have h3 : w.bitCursor ≠ 0 := by rw [Writer.bitCursor_ne_zero]; omega
      simp [h2, h3]
    · rfl

/-- Bit `k` of the list lands `k` bits after the old cursor (R61, R130). -/
theorem Writer.emit_bitAt (bs : List Bool) (h : w.Clean) (k : Nat) (hk : k < bs.length) :
    (w.emit bs).bitAt (w.bitPos + k) = bs[k] := by
  induction bs generalizing w k with
  | nil => simp at hk
  | cons b bs ih =>
    rw [Writer.emit_cons]
    cases k with
    | zero =>
      rw [Writer.emit_bitAt_below _ _ (by rw [Writer.putBit_bitPos]; omega), Writer.putBit_bitAt]
      have hb := w.byteCursor_eq
      rw [if_pos (by simp [hb])]
      by_cases hc : w.bitCursor = 0
      · simp [hc]
      · simp [h hc w.bitPos (Nat.le_refl _) hb.symm]
    | succ k =>
      have := ih (w.putBit b) (w.putBit_clean b h) k (by simpa using hk)
      rw [Writer.putBit_bitPos] at this
      rw [show w.bitPos + (k + 1) = w.bitPos + 1 + k by omega, this]
      simp

/-- Bytes before the current one are not changed. -/
theorem Writer.emit_read_below (bs : List Bool) {a : Nat} (h : a < w.byteCursor) :
    (w.emit bs).out.read a = w.out.read a := by
  induction bs generalizing w with
  | nil => rfl
  | cons b bs ih =>
    have : a < (w.putBit b).byteCursor := by simp only [Writer.putBit]; split <;> omega
    rw [Writer.emit_cons, ih _ this, Writer.putBit_read_other _ _ (by omega)]

/-- Bytes the new bits do not reach are not changed. -/
theorem Writer.emit_read_above (bs : List Bool) {a : Nat} (h : w.bitPos + bs.length ≤ 8 * a) :
    (w.emit bs).out.read a = w.out.read a := by
  induction bs generalizing w with
  | nil => rfl
  | cons b bs ih =>
    have hb := w.byteCursor_eq
    simp only [List.length_cons] at h
    rw [Writer.emit_cons, ih _ (by rw [Writer.putBit_bitPos]; omega), Writer.putBit_read_other _ _ (by omega)]

/-- The epoch and owner of the memory never change. -/
theorem Writer.emit_tags (bs : List Bool) :
    (w.emit bs).out.epoch = w.out.epoch ∧ (w.emit bs).out.owner = w.out.owner := by
  induction bs generalizing w with
  | nil => exact ⟨rfl, rfl⟩
  | cons b bs ih => exact ih (w.putBit b)

/-- A byte holds the eight output bits at its place. -/
theorem Writer.read_eq_ofBits (a : Nat) :
    (w.out.read a).toNat = ofBits ((List.range 8).map fun k => w.bitAt (8 * a + k)) := by
  have h := ofBits_bitsOf (n := 8) (v := (w.out.read a).toNat) (BitVec.isLt _)
  rw [← h]
  congr 1
  simp only [bitsOf]
  apply List.map_congr_left
  intro k hk
  have hk := List.mem_range.1 hk
  simp only [Writer.bitAt, BitVec.getLsbD, show (8 * a + k) / 8 = a by omega, show (8 * a + k) % 8 = k by omega]

/-- A bit position on a byte boundary gives both cursors. -/
theorem Writer.cursors_of_bitPos {w : Writer} {n : Nat} (h : w.bitPos = 8 * n) :
    w.byteCursor = n ∧ w.bitCursor = 0 := by
  refine ⟨by rw [Writer.byteCursor_eq, h]; omega, ?_⟩
  apply Fin.ext
  rw [Writer.bitCursor_eq, h]
  simp

/-- From a byte boundary, `PutBits(8·n, v)` stores `v` little-endian in the next `n` bytes (R64, R101, R103). -/
theorem Writer.emit_bytes (h : w.bitCursor = 0) (n v i : Nat) (hi : i < n) :
    (w.emit (bitsOf (8 * n) v)).out.read (w.byteCursor + i) = BitVec.ofNat 8 (v >>> (8 * i)) := by
  have hcl : w.Clean := fun h0 => absurd h h0
  have hp : w.bitPos = 8 * w.byteCursor := by simp [Writer.bitPos, h]
  apply BitVec.eq_of_toNat_eq
  rw [Writer.read_eq_ofBits]
  have e : ((List.range 8).map fun k => (w.emit (bitsOf (8 * n) v)).bitAt (8 * (w.byteCursor + i) + k)) =
      bitsOf 8 ((v >>> (8 * i)) % 2 ^ 8) := by
    simp only [bitsOf]
    apply List.map_congr_left
    intro k hk
    have hk := List.mem_range.1 hk
    have := w.emit_bitAt (bitsOf (8 * n) v) hcl (8 * i + k) (by rw [bitsOf_length]; omega)
    rw [bitsOf_getElem] at this
    rw [show 8 * (w.byteCursor + i) + k = w.bitPos + (8 * i + k) by omega, Nat.testBit_mod_two_pow,
      Nat.testBit_shiftRight]
    simpa [hk, bitsOf] using this
  rw [e, ofBits_bitsOf (Nat.mod_lt _ (by omega)), BitVec.toNat_ofNat]

/-- From a byte boundary, `PutBits(24, v)` writes what `MemRead` of three bytes reads back (R103). -/
theorem Writer.memRead_emit24 (h : w.bitCursor = 0) {v : Nat} (hv : v < 2 ^ 24) :
    (w.emit (bitsOf 24 v)).out.memRead w.byteCursor 3 = v := by
  have key := fun i hi => w.emit_bytes h 3 v i hi
  simp only [Nat.reduceMul] at key
  have k0 := key 0 (by omega)
  rw [Nat.add_zero] at k0
  rw [OutMem.memRead_three, k0, key 1 (by omega), key 2 (by omega)]
  simp [Nat.shiftRight_eq_div_pow]
  omega

/-! ### Soundness -/

variable {w} {cap : Nat}

theorem Writer.Sound.clean (h : w.Sound cap) : w.Clean := w.clean_of_lt fun h0 => (h.openByte h0).2

/-- What emitting bits does to a sound writer, seen through its reads (R61, R62, R130). -/
theorem Writer.Sound.appended (h : w.Sound cap) (bs : List Bool) : w.Appended (w.emit bs) bs where
  position := w.emit_bitPos bs
  newBits k hk := w.emit_bitAt bs h.clean k hk
  oldBits _ hp := w.emit_bitAt_below bs hp
  padding p h1 h2 h3 := w.emit_clean bs h.clean h3 p h1 h2
  otherBytes a ha := by
    rcases ha with ha | ha
    · exact w.emit_read_below bs ha
    · rw [w.emit_bitPos] at ha; exact w.emit_read_above bs ha

theorem Writer.Sound.putBit (h : w.Sound cap) (b : Bool) (hc : w.bitPos < 8 * cap) :
    (w.putBit b).Sound cap := by
  have hb := w.byteCursor_eq
  have hp := w.putBit_bitPos b
  have hb' := (w.putBit b).byteCursor_eq
  refine ⟨OutMem.write_wellFormed h.canonical _ _, OutMem.write_inside h.inside (by omega) _, by omega, ?_⟩
  intro h0
  have h1 := (Writer.bitCursor_ne_zero _).1 h0
  exact ⟨by omega, Writer.lt_of_clean _ (w.putBit_clean b h.clean) h0⟩

/-- Emitting bits that fit keeps the writer sound (W1, W3, the canonical form, the capacity). -/
theorem Writer.Sound.emit (h : w.Sound cap) (bs : List Bool) (hc : w.bitPos + bs.length ≤ 8 * cap) :
    (w.emit bs).Sound cap := by
  induction bs generalizing w with
  | nil => exact h
  | cons b bs ih =>
    simp only [List.length_cons] at hc
    exact ih (h.putBit b (by omega)) (by rw [Writer.putBit_bitPos]; omega)

/-- `FlushBits` moves the cursor to the next byte boundary (R131). -/
theorem Writer.flush_bitPos (w : Writer) : w.flush.bitPos = 8 * ((w.bitPos + 7) / 8) := by
  have := w.bitCursor.isLt
  unfold Writer.flush
  split
  · rename_i h; simp [Writer.bitPos, h]; omega
  · rename_i h
    have : w.bitCursor.val ≠ 0 := fun h0 => h (Fin.ext h0)
    simp [Writer.bitPos]; omega

/-- `FlushBits` writes no byte (R131). -/
theorem Writer.flush_out (w : Writer) : w.flush.out = w.out := by unfold Writer.flush; split <;> rfl

/-- After `FlushBits` the cursor is at a byte boundary (R131). -/
theorem Writer.flush_bitCursor (w : Writer) : w.flush.bitCursor = 0 := by
  unfold Writer.flush; split <;> simp_all

/-- `FlushBits` twice equals once (R133). -/
theorem Writer.flush_flush (w : Writer) : w.flush.flush = w.flush := by
  rw [Writer.flush, if_pos w.flush_bitCursor]

theorem Writer.Sound.flush (h : w.Sound cap) : w.flush.Sound cap := by
  refine ⟨by rw [Writer.flush_out]; exact h.canonical, by rw [Writer.flush_out]; exact h.inside, ?_,
    fun h0 => absurd w.flush_bitCursor h0⟩
  unfold Writer.flush
  split
  · exact h.cursorMax
  · rename_i h0; exact (h.openByte h0).1

end Sys2Proof.Machine
end

