-- ==== Sys2Proof/Laws/Ops.lean ====
section
/-! SUPPORT. What each shared operation of Machine/Ops.lean can do, said once: `require`, `PutBits`, fault
entry, `LAST_DC`. -/

namespace Sys2Proof.Machine

open Sys2Proof

variable {par : Params} {t : Site} {c : Context}

/-! ### `require` -/

theorem require_true (k : Context → Flow) : require true t c k = k c := rfl

theorem require_false (k : Context → Flow) :
    require false t c k = .raised (c.raise .contractViolation t) := rfl

theorem require_of {b : Bool} (h : b = true) (k : Context → Flow) : require b t c k = k c := by
  subst h; rfl

theorem require_of_not {b : Bool} (h : b = false) (k : Context → Flow) :
    require b t c k = .raised (c.raise .contractViolation t) := by subst h; rfl

/-- `require` either runs the rest or raises `ContractViolation` (R8, R245). -/
theorem require_cases (b : Bool) (k : Context → Flow) :
    (b = true ∧ require b t c k = k c) ∨
    (b = false ∧ require b t c k = .raised (c.raise .contractViolation t)) := by
  cases b
  · exact .inr ⟨rfl, rfl⟩
  · exact .inl ⟨rfl, rfl⟩

/-! ### Statement order -/

theorem Flow.andThen_assoc (f : Flow) (g k : Context → Flow) :
    (f.andThen g).andThen k = f.andThen fun c => (g c).andThen k := by cases f <;> rfl

/-! ### `PutBits` -/

/-- `PutBits` within the capacity (R130). -/
theorem putBits_fits {n v : Nat} (h : c.wr.bitPos + n ≤ 8 * par.outCap) :
    putBits par t n v c = .ran (c.setWriter (c.wr.emit (bitsOf n v))) := by
  rw [putBits, if_neg (by omega)]

/-- `PutBits` beyond the capacity (R130, R247): nothing is written. -/
theorem putBits_overflow {n v : Nat} (h : 8 * par.outCap < c.wr.bitPos + n) :
    putBits par t n v c = .raised (c.raise .outputOverflow t) := by
  rw [putBits, if_pos h]

/-- `PutBits` does one of two things (R130, R247). -/
theorem putBits_cases (par : Params) (t : Site) (n v : Nat) (c : Context) :
    (c.wr.bitPos + n ≤ 8 * par.outCap ∧
      putBits par t n v c = .ran (c.setWriter (c.wr.emit (bitsOf n v)))) ∨
    (8 * par.outCap < c.wr.bitPos + n ∧ putBits par t n v c = .raised (c.raise .outputOverflow t)) := by
  rcases Nat.lt_or_ge (8 * par.outCap) (c.wr.bitPos + n) with h | h
  · exact .inr ⟨h, putBits_overflow h⟩
  · exact .inl ⟨h, putBits_fits h⟩

/-! ### `LAST_DC` -/

theorem Context.lastDcAt_setLastDc_same {i : Nat} (h : i < 3) (v : BitVec 16) :
    (c.setLastDc i v).lastDcAt i = sext16 v := by
  simp [Context.lastDcAt, Tbl.get_set_same _ _ h]

theorem Context.lastDcAt_setLastDc_other {i j : Nat} (h : j ≠ i) (v : BitVec 16) :
    (c.setLastDc i v).lastDcAt j = c.lastDcAt j := by
  simp [Context.lastDcAt, Tbl.get_set_other _ _ h]

/-- After the reset of the predictors all three hold `DC_BASELINE` (R211, R212). -/
theorem Context.lastDcAt_resetLastDc {i : Nat} (h : i < 3) :
    (c.resetLastDc par).lastDcAt i = sext16 par.dcBaseline := by
  have h3 : i = 0 ∨ i = 1 ∨ i = 2 := by omega
  rcases h3 with rfl | rfl | rfl <;>
    simp [Context.resetLastDc, Context.lastDcAt_setLastDc_same, Context.lastDcAt_setLastDc_other]

theorem component_lt (n : Nat) : component n < 3 := by
  unfold component
  have := Nat.and_le_right (n := n) (m := 1)
  split <;> omega

/-! ### Fault entry -/

/-- The fields of `FAULT_INFO` (R250). -/
theorem Site.info_plain (op : BitVec 8) : (Site.plain op).info = op ++ 0#24 := by
  unfold Site.info Site.plain
  ext i hi
  change (op ++ 0#4 ++ 0#6 ++ 0#14)[i] = (op ++ 0#24)[i]
  simp only [BitVec.getElem_append]
  grind

end Sys2Proof.Machine
end

