-- ==== Sys2Proof/Laws/Tables.lean ====
section
/-! SUPPORT. What the table builder builds (spec/41_tables.md R143 to R147; 10_state.md R39, invariant T1):
the entries of each built table, and that (run, level) finds its own list entry. -/

namespace Sys2Proof.Machine

open Sys2Proof

variable {par : Params} {tab : TableUnit}

/-! ### The inputs are kept -/

theorem buildTables_aceAt (i : Nat) : (buildTables tab).aceAt i = tab.aceAt i := rfl
theorem buildTables_dcpfxAt (cls : DcClass) (k : Nat) : (buildTables tab).dcpfxAt cls k = tab.dcpfxAt cls k := rfl
theorem buildTables_ready : (buildTables tab).ready = true := rfl

/-- Building again from the same inputs gives the same tables (R148). -/
theorem buildTables_idem : buildTables (buildTables tab) = buildTables tab := rfl

theorem tablesWellFormed_build : tablesWellFormed par (buildTables tab) = tablesWellFormed par tab := rfl

/-! ### R143 as a proposition -/

/-- What the input check says. -/
structure TablesOk (par : Params) (tab : TableUnit) : Prop where
  dcpfx : ∀ cls cat, cat < par.dcNcat → (tab.dcpfxAt cls cat).codeFits = true
  ace : ∀ i, i < 121 → (tab.aceAt i).codeFits = true
  firstLevel : (tab.aceAt 0).level.toNat = 1
  grouped : ∀ i, 1 ≤ i → i < 121 → continuesOrOpens tab i = true
  escLen : (tab.aceAt 121).len.toNat = 6
  escCode : (tab.aceAt 121).code.toNat = 32
  eobLen : (tab.aceAt 122).len.toNat = 4
  eobCode : (tab.aceAt 122).code.toNat = 6

theorem tablesWellFormed_iff : tablesWellFormed par tab = true ↔ TablesOk par tab := by
  constructor
  · intro h
    simp only [tablesWellFormed, Bool.and_eq_true, List.all_eq_true, List.mem_range, List.mem_range'_1,
      decide_eq_true_eq] at h
    obtain ⟨⟨⟨⟨⟨⟨⟨⟨h1, h2⟩, h3⟩, h4⟩, h5⟩, h6⟩, h7⟩, h8⟩, h9⟩ := h
    refine ⟨fun cls cat hc => ?_, h3, h4, fun i h1 h2 => h5 i ⟨h1, by omega⟩, h6, h7, h8, h9⟩
    cases cls
    · exact h1 cat hc
    · exact h2 cat hc
  · intro h
    simp only [tablesWellFormed, Bool.and_eq_true, List.all_eq_true, List.mem_range, List.mem_range'_1,
      decide_eq_true_eq]
    exact ⟨⟨⟨⟨⟨⟨⟨⟨h.dcpfx .luma, h.dcpfx .chroma⟩, h.ace⟩, h.firstLevel⟩,
      fun i hi => h.grouped i hi.1 (by omega)⟩, h.escLen⟩, h.escCode⟩, h.eobLen⟩, h.eobCode⟩

theorem DcpfxEntry.codeFits_iff (e : DcpfxEntry) :
    e.codeFits = true ↔ 1 ≤ e.len.toNat ∧ e.len.toNat ≤ 16 ∧ e.code.toNat < 2 ^ e.len.toNat := by
  simp [DcpfxEntry.codeFits, and_assoc]

theorem AceEntry.codeFits_iff (e : AceEntry) :
    e.codeFits = true ↔ 1 ≤ e.len.toNat ∧ e.len.toNat ≤ 16 ∧ e.code.toNat < 2 ^ e.len.toNat ∧
      1 ≤ e.level.toNat := by
  simp [AceEntry.codeFits, and_assoc]

/-- R143 item 3 at one index. -/
theorem continuesOrOpens_iff (i : Nat) : continuesOrOpens tab i = true ↔
    ((tab.aceAt i).run = (tab.aceAt (i - 1)).run ∧
      (tab.aceAt i).level.toNat = (tab.aceAt (i - 1)).level.toNat + 1) ∨
    ((∀ j, j < i → (tab.aceAt i).run ≠ (tab.aceAt j).run) ∧ (tab.aceAt i).level.toNat = 1) := by
  simp [continuesOrOpens, List.all_eq_true]

/-! ### Runs of the list -/

namespace TablesOk

variable (h : TablesOk par tab)
include h

/-- Below an entry of level `l` lie the entries of its run with the lower levels. -/
theorem lower_levels {i : Nat} (hi : i < 121) {l : Nat} (h1 : 1 ≤ l) (hl : l ≤ (tab.aceAt i).level.toNat) :
    (tab.aceAt i).level.toNat - l ≤ i ∧
      (tab.aceAt (i - ((tab.aceAt i).level.toNat - l))).run = (tab.aceAt i).run ∧
      (tab.aceAt (i - ((tab.aceAt i).level.toNat - l))).level.toNat = l := by
  induction i with
  | zero =>
    have := h.firstLevel
    have hl' : l = 1 := by omega
    subst hl'; simp [this]
  | succ i ih =>
    rcases (continuesOrOpens_iff (i + 1)).1 (h.grouped (i + 1) (by omega) hi) with ⟨hr, hlev⟩ | ⟨_, hlev⟩
    · simp only [Nat.add_sub_cancel] at hr hlev
      rcases Nat.lt_or_ge (tab.aceAt i).level.toNat l with hlt | hge
      · have : l = (tab.aceAt (i + 1)).level.toNat := by omega
        subst this; simp
      · obtain ⟨a, b, c⟩ := ih (by omega) hge
        have e : i + 1 - ((tab.aceAt (i + 1)).level.toNat - l) = i - ((tab.aceAt i).level.toNat - l) := by omega
        rw [e, hr]
        exact ⟨by omega, b, c⟩
    · have hl' : l = 1 := by omega
      subst hl'; simp [hlev]

/-- A level-1 entry is the first of its run. -/
theorem level_one_first {i : Nat} (hi : i < 121) (hl : (tab.aceAt i).level.toNat = 1) :
    ∀ j, j < i → (tab.aceAt j).run ≠ (tab.aceAt i).run := by
  intro j hj
  rcases (continuesOrOpens_iff i).1 (h.grouped i (by omega) hi) with ⟨_, hlev⟩ | ⟨hd, _⟩
  · have := ((AceEntry.codeFits_iff _).1 (h.ace (i - 1) (by omega))).2.2.2
    omega
  · exact (hd j hj).symm

/-- The first entry of a run is the one of level 1. -/
theorem firstOfRun_eq {i : Nat} (hi : i < 121) :
    firstOfRun tab (tab.aceAt i).run.toNat = i + 1 - (tab.aceAt i).level.toNat ∧
      (tab.aceAt i).level.toNat ≤ i + 1 := by
  have hlev := ((AceEntry.codeFits_iff _).1 (h.ace i hi)).2.2.2
  obtain ⟨a, b, c⟩ := h.lower_levels hi (Nat.le_refl 1) hlev
  refine ⟨?_, by omega⟩
  have e : i - ((tab.aceAt i).level.toNat - 1) = i + 1 - (tab.aceAt i).level.toNat := by omega
  rw [e] at b c
  have hf : (List.range 121).find? (fun k => decide ((tab.aceAt k).run.toNat = (tab.aceAt i).run.toNat)) =
      some (i + 1 - (tab.aceAt i).level.toNat) := by
    rw [List.find?_range_eq_some]
    refine ⟨by simp [b], by simp; omega, ?_⟩
    intro j hj
    have := h.level_one_first (i := i + 1 - (tab.aceAt i).level.toNat) (by omega) c j hj
    rw [b] at this
    simpa using fun h => this (BitVec.eq_of_toNat_eq h)
  simp [firstOfRun, hf]

end TablesOk

/-- `greatestOfRun` bounds the levels of its run. -/
theorem le_greatestOfRun {i : Nat} (hi : i < 121) :
    (tab.aceAt i).level.toNat ≤ greatestOfRun tab (tab.aceAt i).run.toNat := by
  have key : ∀ (l : List Nat) (m : Nat), (∀ k ∈ l, (tab.aceAt k).run.toNat = (tab.aceAt i).run.toNat →
      (tab.aceAt k).level.toNat ≤ l.foldl (fun m k => if (tab.aceAt k).run.toNat = (tab.aceAt i).run.toNat
        then max m (tab.aceAt k).level.toNat else m) m) ∧
      m ≤ l.foldl (fun m k => if (tab.aceAt k).run.toNat = (tab.aceAt i).run.toNat
        then max m (tab.aceAt k).level.toNat else m) m := by
    intro l
    induction l with
    | nil => intro m; simp
    | cons k l ih =>
      intro m
      simp only [List.foldl_cons, List.mem_cons, forall_eq_or_imp]
      refine ⟨⟨fun hk => ?_, (ih _).1⟩, ?_⟩
      · rw [if_pos hk]; exact le_trans (le_max_right _ _) (ih _).2
      · refine le_trans ?_ (ih _).2
        split
        · exact le_max_left _ _
        · exact le_refl _
  exact (key (List.range 121) 0).1 i (List.mem_range.2 hi) rfl

/-- A positive `greatestOfRun` is the level of an entry of its run. -/
theorem greatestOfRun_mem {r : Nat} (hg : 1 ≤ greatestOfRun tab r) :
    ∃ i, i < 121 ∧ (tab.aceAt i).run.toNat = r ∧ (tab.aceAt i).level.toNat = greatestOfRun tab r := by
  have key : ∀ (l : List Nat) (m : Nat), (∀ k ∈ l, k < 121) →
      l.foldl (fun m k => if (tab.aceAt k).run.toNat = r then max m (tab.aceAt k).level.toNat else m) m = m ∨
      ∃ i, i < 121 ∧ (tab.aceAt i).run.toNat = r ∧ (tab.aceAt i).level.toNat =
        l.foldl (fun m k => if (tab.aceAt k).run.toNat = r then max m (tab.aceAt k).level.toNat else m) m := by
    intro l
    induction l with
    | nil => intro m _; exact .inl rfl
    | cons k l ih =>
      intro m hm
      simp only [List.foldl_cons]
      rcases ih (if (tab.aceAt k).run.toNat = r then max m (tab.aceAt k).level.toNat else m)
        (fun x hx => hm x (List.mem_cons_of_mem _ hx)) with he | he
      · rw [he]
        split
        · rename_i hk
          rcases le_total (tab.aceAt k).level.toNat m with hle | hle
          · exact .inl (max_eq_left hle)
          · exact .inr ⟨k, hm k (by simp), hk, (max_eq_right hle).symm⟩
        · exact .inl rfl
      · exact .inr he
  rcases key (List.range 121) 0 (fun k hk => List.mem_range.1 hk) with he | he
  · simp only [greatestOfRun] at hg; omega
  · exact he

theorem greatestOfRun_lt (r : Nat) : greatestOfRun tab r < 128 := by
  rcases Nat.eq_zero_or_pos (greatestOfRun tab r) with h | h
  · omega
  · obtain ⟨i, _, _, hi⟩ := greatestOfRun_mem h
    rw [← hi]; exact (tab.aceAt i).level.isLt

theorem firstOfRun_le (r : Nat) : firstOfRun tab r ≤ 121 := by
  simp only [firstOfRun]
  rcases hf : (List.range 121).find? (fun i => decide ((tab.aceAt i).run.toNat = r)) with _ | k
  · simp
  · have := List.mem_of_find?_eq_some hf
    simp at this ⊢; omega

/-! ### The built tables entry by entry -/

theorem maxLevelAt_build {r : Nat} (hr : r < 64) : (buildTables tab).maxLevelAt r = greatestOfRun tab r := by
  have := greatestOfRun_lt (tab := tab) r
  simp only [TableUnit.maxLevelAt, buildTables, Tbl.get_build _ hr, BitVec.toNat_ofNat]
  omega

theorem indexRunAt_build {r : Nat} (hr : r < 64) : (buildTables tab).indexRunAt r = firstOfRun tab r := by
  have := firstOfRun_le (tab := tab) r
  simp only [TableUnit.indexRunAt, buildTables, Tbl.get_build _ hr, BitVec.toNat_ofNat]
  omega

theorem vlcAt_build {i : Nat} (hi : i < 123) :
    (buildTables tab).vlcAt i = ⟨(tab.aceAt i).code, (tab.aceAt i).len⟩ := by
  simp only [TableUnit.vlcAt, buildTables, Tbl.get_build _ hi]

/-- Invariant T1 (R39): the entry found for a (run, level) that does not escape is the list entry with that
run and that level. -/
theorem TablesOk.entry_of_level (h : TablesOk par tab) {r l : Nat} (h1 : 1 ≤ l) (hl : l ≤ greatestOfRun tab r) :
    firstOfRun tab r + l - 1 ≤ 120 ∧ (tab.aceAt (firstOfRun tab r + l - 1)).run.toNat = r ∧
      (tab.aceAt (firstOfRun tab r + l - 1)).level.toNat = l := by
  obtain ⟨i, hi, hr, hg⟩ := greatestOfRun_mem (tab := tab) (r := r) (by omega)
  obtain ⟨a, b, c⟩ := h.lower_levels hi h1 (by omega)
  have hf := h.firstOfRun_eq hi
  rw [hr] at hf
  have e : firstOfRun tab r + l - 1 = i - ((tab.aceAt i).level.toNat - l) := by omega
  rw [e, b, c]
  exact ⟨by omega, hr, rfl⟩

/-- The list has at most one entry for a run and a level. -/
theorem TablesOk.entry_unique (h : TablesOk par tab) {i : Nat} (hi : i < 121) :
    i = firstOfRun tab (tab.aceAt i).run.toNat + (tab.aceAt i).level.toNat - 1 := by
  have := h.firstOfRun_eq hi
  omega

/-- The list search of the wire format finds what `MAX_LEVEL` and `INDEX_RUN` find (R187). -/
theorem TablesOk.aceFor_eq (h : TablesOk par tab) {r l : Nat} (h1 : 1 ≤ l) :
    aceFor tab r l =
      if l ≤ greatestOfRun tab r then some (tab.aceAt (firstOfRun tab r + l - 1)) else none := by
  split
  · rename_i hl
    obtain ⟨a, b, c⟩ := h.entry_of_level h1 hl
    rcases hf : aceFor tab r l with _ | e
    · exfalso
      simp only [aceFor, List.find?_eq_none, List.mem_map, List.mem_range] at hf
      exact hf _ ⟨firstOfRun tab r + l - 1, by omega, rfl⟩ (by simp [b, c])
    · have hm := List.mem_of_find?_eq_some hf
      have hp := List.find?_some hf
      obtain ⟨i, hi, rfl⟩ := List.mem_map.1 hm
      simp only [Bool.and_eq_true, decide_eq_true_eq] at hp
      have := h.entry_unique (List.mem_range.1 hi)
      rw [hp.1, hp.2] at this
      rw [← this]
  · rename_i hl
    simp only [aceFor, List.find?_eq_none, List.mem_map, List.mem_range]
    rintro e ⟨i, hi, rfl⟩ hp
    simp only [Bool.and_eq_true, decide_eq_true_eq] at hp
    have := le_greatestOfRun (tab := tab) hi
    rw [hp.1, hp.2] at this
    omega

/-! ### DC codes -/

theorem modPow2_lt (x : Int) (c : Nat) : modPow2 x c < 2 ^ c := by
  have h1 := Int.emod_nonneg x (show ((2 : Int) ^ c) ≠ 0 by positivity)
  have h2 := Int.emod_lt_of_pos x (show (0 : Int) < (2 : Int) ^ c by positivity)
  have h3 : (((2 : Nat) ^ c : Nat) : Int) = (2 : Int) ^ c := by push_cast; rfl
  unfold modPow2; omega

theorem dcTail_lt (diff : Int) : dcTail diff < 2 ^ dcCategory diff := modPow2_lt _ _

/-- `DcCode` meets the contract of `PutBits` (R144). -/
theorem dcCodeFrom_fits {e : DcpfxEntry} (he : e.codeFits = true) (diff : Int) :
    (dcCodeFrom e diff).1 = e.len.toNat + dcCategory diff ∧
      (dcCodeFrom e diff).2 < 2 ^ (dcCodeFrom e diff).1 := by
  refine ⟨rfl, ?_⟩
  have h1 := ((DcpfxEntry.codeFits_iff e).1 he).2.2
  have h2 := dcTail_lt diff
  simp only [dcCodeFrom]
  rw [add_shift_eq_or _ _ _ h1, Nat.add_comm]
  exact Nat.or_lt_two_pow (Nat.lt_of_lt_of_le h1 (Nat.pow_le_pow_right (by omega) (by omega)))
    (by rw [Nat.shiftLeft_eq, Nat.pow_add]; exact Nat.mul_lt_mul_of_pos_right h2 (by positivity))

/-- The bits of a DC code: prefix, then tail (R107). -/
theorem bitsOf_dcCodeFrom {e : DcpfxEntry} (he : e.codeFits = true) (diff : Int) :
    bitsOf (dcCodeFrom e diff).1 (dcCodeFrom e diff).2 =
      bitsOf e.len.toNat e.code.toNat ++ bitsOf (dcCategory diff) (dcTail diff) := by
  have h1 := ((DcpfxEntry.codeFits_iff e).1 he).2.2
  simp only [dcCodeFrom]
  rw [add_shift_eq_or _ _ _ h1, bitsOf_join _ _ _ _ h1]

/-- A difference on the fast path has a category of at most 8 (R144). -/
theorem dcCategory_le_eight {diff : Int} (h : diff.natAbs ≤ 255) : dcCategory diff ≤ 8 := by
  unfold dcCategory floorLog2
  have : max (2 * diff.natAbs) 1 < 2 ^ 9 := by omega
  have := (Nat.log2_lt (by omega)).2 this
  omega

theorem uniLen_uniEntry {p : Nat × Nat} (h : p.1 < 2 ^ 8) : uniLen (uniEntry p) = p.1 := by
  have : (uniEntry p).extractLsb' 0 8 = BitVec.ofNat 8 p.1 := by
    ext i hi
    simp only [uniEntry, BitVec.getElem_extractLsb', BitVec.getLsbD_append]
    simp [hi]
  simp only [uniLen, this, BitVec.toNat_ofNat]
  omega

theorem uniCode_uniEntry {p : Nat × Nat} (h : p.2 < 2 ^ 24) : uniCode (uniEntry p) = p.2 := by
  have : (uniEntry p).extractLsb' 8 24 = BitVec.ofNat 24 p.2 := by
    ext i hi
    simp only [uniEntry, BitVec.getElem_extractLsb', BitVec.getLsbD_append]
    simp [hi]
  simp only [uniCode, this, BitVec.toNat_ofNat]
  omega

/-- An entry of a built unified table (R142). -/
theorem uniAt_build (cls : DcClass) {k : Nat} (hk : k < 512) :
    (buildTables tab).uniAt cls k =
      if k = 511 then 0#32
      else uniEntry (dcCodeFrom (tab.dcpfxAt cls (dcCategory ((k : Int) - 255))) ((k : Int) - 255)) := by
  cases cls <;> simp only [TableUnit.uniAt, buildTables, builtUni, Tbl.get_build _ hk]

end Sys2Proof.Machine
end

