-- ==== Sys2Proof/Laws/Encode.lean ====
section
/-! SUPPORT. What the encoders can do, said once (spec/42_dc.md R170; 43_block.md R183; 44_macroblock.md
R201): whatever happens, bits were appended within the capacity, `LAST_DC` may have changed, and a fault may
have been entered; nothing else. And what they emit when nothing goes wrong: the wire format. -/

namespace Sys2Proof.Machine

open Sys2Proof

variable {par : Params} {tab : TableUnit} {t : Site} {op : BitVec 8} {c : Context}

theorem Context.emitted_nil : c.emitted [] c.lastDc = c := rfl

theorem Context.emitted_emitted (b1 b2 : List Bool) (d1 d2 : Vector (BitVec 16) 3) :
    (c.emitted b1 d1).emitted b2 d2 = c.emitted (b1 ++ b2) d2 := by
  simp [Context.emitted, Writer.emit_append]

theorem Context.emitted_setLastDc (b : List Bool) (d : Vector (BitVec 16) 3) (i : Nat) (v : BitVec 16) :
    (c.emitted b d).setLastDc i v = c.emitted b (Tbl.set d i v) := rfl

theorem Context.setWriter_emit (b : List Bool) : c.setWriter (c.wr.emit b) = c.emitted b c.lastDc := rfl

@[simp] theorem Context.emitted_wr (b : List Bool) (d : Vector (BitVec 16) 3) :
    (c.emitted b d).wr = c.wr.emit b := rfl
@[simp] theorem Context.emitted_lastDc (b : List Bool) (d : Vector (BitVec 16) 3) :
    (c.emitted b d).lastDc = d := rfl
@[simp] theorem Context.emitted_qscale (b : List Bool) (d : Vector (BitVec 16) 3) :
    (c.emitted b d).qscale = c.qscale := rfl
@[simp] theorem Context.emitted_chromaFormat (b : List Bool) (d : Vector (BitVec 16) 3) :
    (c.emitted b d).chromaFormat = c.chromaFormat := rfl
@[simp] theorem Context.emitted_scan (b : List Bool) (d : Vector (BitVec 16) 3) :
    (c.emitted b d).scan = c.scan := rfl
@[simp] theorem Context.emitted_sliceStart (b : List Bool) (d : Vector (BitVec 16) 3) :
    (c.emitted b d).sliceStart = c.sliceStart := rfl
@[simp] theorem Context.emitted_fsm (b : List Bool) (d : Vector (BitVec 16) 3) :
    (c.emitted b d).fsm = c.fsm := rfl
@[simp] theorem Context.emitted_cfgValid (b : List Bool) (d : Vector (BitVec 16) 3) :
    (c.emitted b d).cfgValid = c.cfgValid := rfl
@[simp] theorem Context.emitted_width (b : List Bool) (d : Vector (BitVec 16) 3) :
    (c.emitted b d).width = c.width := rfl
@[simp] theorem Context.emitted_height (b : List Bool) (d : Vector (BitVec 16) 3) :
    (c.emitted b d).height = c.height := rfl
@[simp] theorem Context.emitted_faultCode (b : List Bool) (d : Vector (BitVec 16) 3) :
    (c.emitted b d).faultCode = c.faultCode := rfl
@[simp] theorem Context.emitted_faultInfo (b : List Bool) (d : Vector (BitVec 16) 3) :
    (c.emitted b d).faultInfo = c.faultInfo := rfl
@[simp] theorem Context.emitted_coef (b : List Bool) (d : Vector (BitVec 16) 3) :
    (c.emitted b d).coef = c.coef := rfl
@[simp] theorem Context.emitted_last (b : List Bool) (d : Vector (BitVec 16) 3) :
    (c.emitted b d).last = c.last := rfl
@[simp] theorem Context.emitted_coefAt (b : List Bool) (d : Vector (BitVec 16) 3) (n p : Nat) :
    (c.emitted b d).coefAt n p = c.coefAt n p := rfl
@[simp] theorem Context.emitted_scanAt (b : List Bool) (d : Vector (BitVec 16) 3) (i : Nat) :
    (c.emitted b d).scanAt i = c.scanAt i := rfl
@[simp] theorem Context.emitted_lastAt (b : List Bool) (d : Vector (BitVec 16) 3) (n : Nat) :
    (c.emitted b d).lastAt n = c.lastAt n := rfl

/-- How an encoder may end: bits within the capacity appended, predictors changed, perhaps a fault of R243 or
R247 raised under the command's opcode. -/
def Flow.Encodes (par : Params) (op : BitVec 8) (c : Context) (f : Flow) : Prop :=
  ∃ bits dc, (bits = [] ∨ c.wr.bitPos + bits.length ≤ 8 * par.outCap) ∧
    (f = .ran (c.emitted bits dc) ∨
      ∃ code site, (code = .internalInvariantViolated ∨ code = .outputOverflow) ∧ site.opcode = op ∧
        f = .raised ((c.emitted bits dc).raise code site))

theorem Flow.Encodes.ran (par : Params) (op : BitVec 8) (c : Context) : Flow.Encodes par op c (.ran c) :=
  ⟨[], c.lastDc, .inl rfl, .inl rfl⟩

theorem Flow.Encodes.raised (par : Params) (c : Context) {code : FaultCode}
    (h : code = .internalInvariantViolated ∨ code = .outputOverflow) (t : Site) :
    Flow.Encodes par t.opcode c (.raised (c.raise code t)) :=
  ⟨[], c.lastDc, .inl rfl, .inr ⟨code, t, h, rfl, rfl⟩⟩

theorem Flow.Encodes.andThen {f : Flow} {k : Context → Flow} (hf : Flow.Encodes par op c f)
    (hk : ∀ c', Flow.Encodes par op c' (k c')) : Flow.Encodes par op c (f.andThen k) := by
  obtain ⟨b1, d1, h1, rfl | ⟨code, site, hc, ho, rfl⟩⟩ := hf
  · obtain ⟨b2, d2, h2, h⟩ := hk (c.emitted b1 d1)
    refine ⟨b1 ++ b2, d2, ?_, ?_⟩
    · simp only [Context.emitted_wr, Writer.emit_bitPos] at h2
      rcases h2 with rfl | h2
      · simpa using h1
      · exact .inr (by simp; omega)
    · simpa only [Flow.andThen_ran, Context.emitted_emitted] using h
  · exact ⟨b1, d1, h1, .inr ⟨code, site, hc, ho, rfl⟩⟩

/-- What an encoder that ran through leaves alone. -/
theorem Flow.Encodes.ran_frame {f : Flow} {c' : Context} (h : Flow.Encodes par op c f) (hr : f = .ran c') :
    ∃ bits dc, c' = c.emitted bits dc := by
  obtain ⟨b, dc, _, h | ⟨_, _, _, _, h⟩⟩ := h
  · rw [hr] at h; cases h; exact ⟨b, dc, rfl⟩
  · rw [hr] at h; cases h

theorem Flow.Encodes.setLastDc (par : Params) (op : BitVec 8) (c : Context) (i : Nat) (v : BitVec 16) :
    Flow.Encodes par op c (.ran (c.setLastDc i v)) := ⟨[], Tbl.set c.lastDc i v, .inl rfl, .inl rfl⟩

theorem putBits_encodes (par : Params) (t : Site) (n v : Nat) (c : Context) :
    Flow.Encodes par t.opcode c (putBits par t n v c) := by
  rcases putBits_cases par t n v c with ⟨h, e⟩ | ⟨_, e⟩ <;> rw [e]
  · exact ⟨bitsOf n v, c.lastDc, .inr (by rw [bitsOf_length]; exact h), .inl rfl⟩
  · exact Flow.Encodes.raised par c (.inr rfl) t

theorem encodeDC_encodes (cls : DcClass) (diff : Int) :
    Flow.Encodes par t.opcode c (encodeDC par tab t cls diff c) := by
  unfold encodeDC
  split
  · exact putBits_encodes ..
  · split
    · exact Flow.Encodes.raised par c (.inl rfl) t
    · exact putBits_encodes ..

theorem encodeLevel_encodes (run : Nat) (level : Int) :
    Flow.Encodes par t.opcode c (encodeLevel par tab t run level c) := by
  unfold encodeLevel
  split
  · exact putBits_encodes ..
  · split
    · exact Flow.Encodes.raised par c (.inl rfl) t
    · exact ((putBits_encodes ..).andThen fun c' => putBits_encodes ..).andThen fun c' => putBits_encodes ..

theorem encodeAc_encodes (n : Nat) (is : List Nat) (z : Nat) (c : Context) :
    Flow.Encodes par op c (encodeAc par tab op n is z c) := by
  induction is generalizing z c with
  | nil => exact Flow.Encodes.ran par op c
  | cons i rest ih =>
    simp only [encodeAc]
    split
    · exact ih z c
    · exact (encodeLevel_encodes (t := .inBlock op n i) ..).andThen fun c' => ih i c'

theorem encodeBlock_encodes (n : Nat) (c : Context) :
    Flow.Encodes par op c (encodeBlock par tab op n c) := by
  unfold encodeBlock encodeBlockDC
  exact (((encodeDC_encodes (t := .inBlock op n 0) ..).andThen fun c' => Flow.Encodes.setLastDc ..).andThen
    fun c' => encodeAc_encodes ..).andThen fun c' => putBits_encodes par (.inBlock op n 0) 4 6 c'

theorem encodeBlocks_encodes (ns : List Nat) (c : Context) :
    Flow.Encodes par op c (encodeBlocks par tab op ns c) := by
  induction ns generalizing c with
  | nil => exact Flow.Encodes.ran par op c
  | cons n rest ih => exact (encodeBlock_encodes n c).andThen fun c' => ih c'

/-! ### What is emitted when nothing goes wrong -/

/-- With built tables, the fast path and the slow path of `EncodeDC` emit the same bits: the DC code of the
wire format (R107, R170, R173). -/
theorem encodeDC_ran (hp : par.Legal) (h : TablesOk par tab) (cls : DcClass) {diff : Int}
    (hd : dcCategory diff < par.dcNcat)
    (hfit : c.wr.bitPos + (wireDc tab cls diff).length ≤ 8 * par.outCap) :
    encodeDC par (buildTables tab) t cls diff c = .ran (c.setWriter (c.wr.emit (wireDc tab cls diff))) := by
  have he := h.dcpfx cls _ hd
  have hb := bitsOf_dcCodeFrom he diff
  have hlen : (wireDc tab cls diff).length = (dcCodeFrom (tab.dcpfxAt cls (dcCategory diff)) diff).1 := by
    unfold wireDc; rw [← hb, bitsOf_length]
  rw [hlen] at hfit
  have hput : ∀ n v, n = (dcCodeFrom (tab.dcpfxAt cls (dcCategory diff)) diff).1 →
      v = (dcCodeFrom (tab.dcpfxAt cls (dcCategory diff)) diff).2 →
      putBits par t n v c = .ran (c.setWriter (c.wr.emit (wireDc tab cls diff))) := by
    rintro n v rfl rfl
    rw [putBits_fits hfit, hb]; rfl
  unfold encodeDC
  split
  · rename_i hr
    have hk : (diff + 255).toNat < 512 := by omega
    have hi : (((diff + 255).toNat : Nat) : Int) - 255 = diff := by omega
    have hc := dcCategory_le_eight (diff := diff) (by omega)
    obtain ⟨f1, f2⟩ := dcCodeFrom_fits he diff
    have hl := ((DcpfxEntry.codeFits_iff _).1 he).2.1
    simp only [uniAt_build cls hk, hi, if_neg (show ¬ (diff + 255).toNat = 511 by omega)]
    exact hput _ _ (uniLen_uniEntry (by omega))
      (uniCode_uniEntry (Nat.lt_of_lt_of_le f2 (Nat.pow_le_pow_right (by omega) (by omega))))
  · simp only [dcCode, if_neg (show ¬ par.dcNcat ≤ dcCategory diff by omega), buildTables_dcpfxAt]
    exact hput _ _ rfl rfl

/-- Bits of a table code with its sign bit (R108). -/
theorem bitsOf_signed {e : AceEntry} (he : e.codeFits = true) (level : Int) :
    bitsOf (e.len.toNat + 1) (e.code.toNat ||| (signBit level <<< e.len.toNat)) =
      bitsOf e.len.toNat e.code.toNat ++ [decide (level < 0)] := by
  rw [bitsOf_join _ _ _ _ ((AceEntry.codeFits_iff e).1 he).2.2.1]
  congr 1
  by_cases hl : level < 0 <;> simp [bitsOf, signBit, hl]

/-- One non-zero coefficient emits its AC code (R108, R109, R183). -/
theorem encodeLevel_ran (h : TablesOk par tab) {run : Nat} {level : Int} (hr : run < 64) (hl : level ≠ 0)
    (hrange : level.natAbs ≤ greatestOfRun tab run ∨ (-2048 ≤ level ∧ level ≤ 2047))
    (hfit : c.wr.bitPos + (wireAc tab run level).length ≤ 8 * par.outCap) :
    encodeLevel par (buildTables tab) t run level c =
      .ran (c.setWriter (c.wr.emit (wireAc tab run level))) := by
  have h1 : 1 ≤ level.natAbs := by omega
  have ha := h.aceFor_eq (r := run) h1
  unfold encodeLevel
  rw [maxLevelAt_build hr]
  split
  · rename_i hle
    rw [if_pos hle] at ha
    obtain ⟨i1, _, _⟩ := h.entry_of_level h1 hle
    have hf := h.ace (firstOfRun tab run + level.natAbs - 1) (by omega)
    have hw : wireAc tab run level = bitsOf (tab.aceAt (firstOfRun tab run + level.natAbs - 1)).len.toNat
        (tab.aceAt (firstOfRun tab run + level.natAbs - 1)).code.toNat ++ [decide (level < 0)] := by rw [wireAc, ha]
    rw [indexRunAt_build hr, vlcAt_build (by omega)]
    simp only
    rw [← bitsOf_signed hf] at hw
    rw [hw, bitsOf_length] at hfit
    rw [putBits_fits hfit, hw]
  · rename_i hgt
    rw [if_neg hgt] at ha
    have hb : -2048 ≤ level ∧ level ≤ 2047 := by omega
    have hw : wireAc tab run level = bitsOf 6 32 ++ bitsOf 6 run ++ bitsOf 12 (level + 2048).toNat := by
      rw [wireAc, ha]
    have hesc : (!escapable level) = false := by simp [escapable, hb]
    rw [if_neg (by simp [hesc])]
    rw [hw] at hfit ⊢
    simp only [List.length_append, bitsOf_length] at hfit
    rw [putBits_fits (by omega)]
    simp only [Flow.andThen_ran]
    rw [putBits_fits (by simp [Writer.emit_bitPos, bitsOf_length]; omega)]
    simp only [Flow.andThen_ran]
    rw [putBits_fits (by simp [Writer.emit_bitPos, bitsOf_length]; omega)]
    simp [Writer.emit_append]

/-- The AC codes of the levels of a scanned vector. -/
def wireLevels (tab : TableUnit) (z : Nat) (levels : List Int) : List Bool :=
  ((runLevels z levels).map fun p => wireAc tab p.1 p.2).flatten

theorem wireLevels_zero (z : Nat) (rest : List Int) :
    wireLevels tab z (0 :: rest) = wireLevels tab (z + 1) rest := by simp [wireLevels, runLevels]

theorem wireLevels_cons {l : Int} (h : l ≠ 0) (z : Nat) (rest : List Int) :
    wireLevels tab z (l :: rest) = wireAc tab z l ++ wireLevels tab 0 rest := by
  simp [wireLevels, runLevels, h]

/-- The appends of a scanned vector are its AC codes, cut where `PutBits` is called (R183). -/
theorem levelAppends_flatten (i z : Nat) (levels : List Int) :
    ((levelAppends tab i z levels).map Prod.snd).flatten = wireLevels tab z levels := by
  induction levels generalizing i z with
  | nil => rfl
  | cons l rest ih =>
    by_cases h : l = 0
    · subst h
      simp [levelAppends, wireLevels_zero, ih]
    · have ha : (acAppends tab z l).flatten = wireAc tab z l := by
        unfold acAppends wireAc
        split <;> simp
      simp [levelAppends, h, wireLevels_cons h, ih, Function.comp_def, ha]

/-- The appends of a block are its wire format. -/
theorem blockAppends_flatten (n : Nat) (previous : Int) :
    ((blockAppends tab c n previous).map Prod.snd).flatten = wireBlock tab c n previous := by
  simp [blockAppends, levelAppends_flatten, wireBlock, wireAcPart, wireLevels]

/-- The AC loop from scan position `i` on, `last_nonzero_position` being `z`: the run of the next non-zero
coefficient counts the zeros since then (R10, R183). -/
theorem encodeAc_ran (h : TablesOk par tab) (n m i z : Nat) (c : Context) (hz : z < i) (him : i + m ≤ 64)
    (hlev : ∀ k, i ≤ k → k < i + m → LevelOk (c.coefAt n (c.scanAt k)))
    (hfit : c.wr.bitPos + (wireLevels tab (i - z - 1)
      ((List.range' i m).map fun k => c.coefAt n (c.scanAt k))).length ≤ 8 * par.outCap) :
    encodeAc par (buildTables tab) op n (List.range' i m) z c =
      .ran (c.setWriter (c.wr.emit (wireLevels tab (i - z - 1)
        ((List.range' i m).map fun k => c.coefAt n (c.scanAt k))))) := by
  induction m generalizing i z c with
  | zero => simp [encodeAc, wireLevels, runLevels, Writer.emit_nil]
  | succ m ih =>
    simp only [List.range'_succ, List.map_cons, encodeAc] at hfit ⊢
    split
    · rename_i h0
      rw [h0, wireLevels_zero] at hfit ⊢
      rw [show i - z - 1 + 1 = i + 1 - z - 1 by omega] at hfit ⊢
      exact ih (i + 1) z c (by omega) (by omega) (fun k h1 h2 => hlev k (by omega) (by omega)) hfit
    · rename_i h0
      rw [wireLevels_cons h0] at hfit ⊢
      simp only [List.length_append] at hfit
      rw [encodeLevel_ran h (by omega) h0 (.inr (hlev i (by omega) (by omega))) (by omega)]
      simp only [Flow.andThen_ran]
      have := ih (i + 1) i (c.setWriter (c.wr.emit (wireAc tab (i - z - 1) (c.coefAt n (c.scanAt i)))))
        (by omega) (by omega) (fun k h1 h2 => hlev k (by omega) (by omega))
      simp only [Context.setWriter_coefAt, Context.setWriter_scanAt, Context.setWriter_wr,
        show i + 1 - i - 1 = 0 by omega, Writer.emit_bitPos] at this
      rw [this (by omega)]
      simp [Writer.emit_append]

/-- The DC step of a block (R107, R183). -/
theorem encodeBlockDC_ran (hp : par.Legal) (h : TablesOk par tab) {n : Nat}
    (hd : dcCategory (c.lastDcAt (component n) - c.coefAt n 0) < par.dcNcat)
    (hfit : c.wr.bitPos + (wireDc tab (blockClass n) (c.lastDcAt (component n) - c.coefAt n 0)).length ≤
      8 * par.outCap) :
    encodeBlockDC par (buildTables tab) op n c =
      .ran (c.emitted (wireDc tab (blockClass n) (c.lastDcAt (component n) - c.coefAt n 0))
        (nextPredictors c n c.lastDc)) := by
  unfold encodeBlockDC
  rw [encodeDC_ran hp h _ hd hfit, Context.setWriter_emit, Flow.andThen_ran, Context.emitted_setLastDc]
  rfl

/-- `EncodeBlock` emits the block's wire format and updates one predictor (R106, R183). -/
theorem encodeBlock_ran (hp : par.Legal) (h : TablesOk par tab) {n : Nat}
    (hb : BlockFits par c n (c.lastDcAt (component n)))
    (hroom : c.wr.bitPos + (wireBlock tab c n (c.lastDcAt (component n))).length ≤ 8 * par.outCap) :
    encodeBlock par (buildTables tab) op n c =
      .ran (c.emitted (wireBlock tab c n (c.lastDcAt (component n))) (nextPredictors c n c.lastDc)) := by
  have hL : c.lastAt n < 64 := (Tbl.get c.last n).isLt
  have hw : wireBlock tab c n (c.lastDcAt (component n)) =
      wireDc tab (blockClass n) (c.lastDcAt (component n) - c.coefAt n 0) ++
        (wireLevels tab 0 (scannedLevels c n) ++ bitsOf 4 6) := rfl
  rw [hw] at hroom ⊢
  simp only [List.length_append, bitsOf_length] at hroom
  generalize hdc : wireDc tab (blockClass n) (c.lastDcAt (component n) - c.coefAt n 0) = dcBits at *
  have hdcran := encodeBlockDC_ran (op := op) hp h hb.dc (by rw [hdc]; omega)
  rw [hdc] at hdcran
  unfold encodeBlock
  rw [hdcran, Flow.andThen_ran, Context.emitted_lastAt]
  have hac := encodeAc_ran (op := op) h n (c.lastAt n) 1 0 (c.emitted dcBits (nextPredictors c n c.lastDc))
    (by omega) (by omega)
    (fun k h1 h2 => by
      rw [Context.emitted_scanAt, Context.emitted_coefAt]; exact hb.ac k h1 (by omega))
  simp only [Context.emitted_coefAt, Context.emitted_scanAt, Nat.sub_self, Nat.sub_zero] at hac
  have hs : ((List.range' 1 (c.lastAt n)).map fun k => c.coefAt n (c.scanAt k)) = scannedLevels c n := rfl
  rw [hs] at hac
  generalize wireLevels tab 0 (scannedLevels c n) = acBits at *
  rw [hac (by rw [Context.emitted_wr, Writer.emit_bitPos]; omega), Flow.andThen_ran, Context.setWriter_emit,
    Context.emitted_emitted, putBits_fits (by
      rw [Context.emitted_wr, Writer.emit_bitPos, List.length_append]; omega),
    Context.setWriter_emit, Context.emitted_emitted, List.append_assoc]
  rfl

/-- The wire format of blocks does not depend on what was emitted before. -/
theorem wireBlocks_emitted (b : List Bool) (d : Vector (BitVec 16) 3) (ns : List Nat)
    (p : Vector (BitVec 16) 3) :
    wireBlocks tab (c.emitted b d) ns p = wireBlocks tab c ns p ∧
      predictorsAfter (c.emitted b d) ns p = predictorsAfter c ns p := by
  induction ns generalizing p with
  | nil => exact ⟨rfl, rfl⟩
  | cons m ns ih =>
    have hn : nextPredictors (c.emitted b d) m p = nextPredictors c m p := rfl
    have hb : ∀ x, wireBlock tab (c.emitted b d) m x = wireBlock tab c m x := fun x => rfl
    simp only [wireBlocks, predictorsAfter, hn, hb]
    exact ⟨by rw [(ih _).1], (ih _).2⟩

theorem BlocksFit.emitted {b : List Bool} {d : Vector (BitVec 16) 3} {ns : List Nat}
    {p : Vector (BitVec 16) 3} (h : BlocksFit par c ns p) : BlocksFit par (c.emitted b d) ns p := by
  induction ns generalizing p with
  | nil => trivial
  | cons n rest ih => exact ⟨⟨h.1.dc, h.1.ac⟩, ih h.2⟩

/-- Several blocks emit their wire formats one after another, the predictors chained (R105, R200). -/
theorem encodeBlocks_ran (hp : par.Legal) (h : TablesOk par tab) {ns : List Nat}
    (hb : BlocksFit par c ns c.lastDc)
    (hroom : c.wr.bitPos + (wireBlocks tab c ns c.lastDc).length ≤ 8 * par.outCap) :
    encodeBlocks par (buildTables tab) op ns c =
      .ran (c.emitted (wireBlocks tab c ns c.lastDc) (predictorsAfter c ns c.lastDc)) := by
  induction ns generalizing c with
  | nil => rfl
  | cons n rest ih =>
    have hw : wireBlocks tab c (n :: rest) c.lastDc =
        wireBlock tab c n (c.lastDcAt (component n)) ++ wireBlocks tab c rest (nextPredictors c n c.lastDc) := rfl
    rw [hw, List.length_append] at hroom
    rw [encodeBlocks, encodeBlock_ran hp h hb.1 (by omega), Flow.andThen_ran]
    have hnext := ih (c := c.emitted (wireBlock tab c n (c.lastDcAt (component n)))
      (nextPredictors c n c.lastDc)) (BlocksFit.emitted hb.2) (by
        rw [(wireBlocks_emitted (tab := tab) ..).1, Context.emitted_wr, Writer.emit_bitPos,
          Context.emitted_lastDc]; omega)
    rw [hnext, Context.emitted_emitted, (wireBlocks_emitted (tab := tab) ..).1,
      (wireBlocks_emitted (tab := tab) ..).2, Context.emitted_lastDc, hw]
    rfl

end Sys2Proof.Machine
end

