-- ==== Sys2Proof/Laws/Framer.lean ====
section
/-! SUPPORT. What the bodies of the framer's commands can do, said once (spec/45_framer.md R210 to R212). -/

namespace Sys2Proof.Machine

open Sys2Proof

variable {par : Params} {c : Context}

theorem Context.inPicture_of (h : c.fsm = .inPicture) : c.inPicture = true := by simp [Context.inPicture, h]

theorem Context.inPicture_iff : c.inPicture = true ↔ c.fsm = .inPicture := by simp [Context.inPicture]

theorem Context.outsidePicture_iff : c.outsidePicture = true ↔ c.fsm = .idle ∨ c.fsm = .done := by
  simp [Context.outsidePicture]

/-- A `pixfmt` operand names a format exactly when it is at most 2, and the format has that code (R23, R210). -/
theorem formatOfPixfmt_cases (p : BitVec 4) :
    (∃ f, formatOfPixfmt p = some f ∧ f.code.toNat = p.toNat ∧ p.toNat ≤ 2) ∨
      (formatOfPixfmt p = none ∧ 2 < p.toNat) := by
  have hs : p.toNat ≤ 2 → p = 0#4 ∨ p = 1#4 ∨ p = 2#4 := by revert p; decide
  have hn : 2 < p.toNat → formatOfPixfmt p = none := by revert p; decide
  rcases Nat.lt_or_ge 2 p.toNat with h | h
  · exact .inr ⟨hn h, h⟩
  · rcases hs h with rfl | rfl | rfl
    exacts [.inl ⟨.yuv420, rfl, rfl, by decide⟩, .inl ⟨.yuv422, rfl, rfl, by decide⟩,
      .inl ⟨.yuv444, rfl, rfl, by decide⟩]

theorem dimensionsValid_iff {w h : BitVec 16} :
    dimensionsValid w h = true ↔ w.toNat % 16 = 0 ∧ w.toNat ≤ 65500 ∧ h.toNat ≤ 65500 := by
  simp [dimensionsValid, and_assoc]

/-! ### `BEGINP` -/

/-- The 56 bits `BEGINP` puts: the picture header and the first placeholder (R101, R102, R211). -/
def headerBits (qscale : Nat) : List Bool := bitsOf 8 (100 - 2 * qscale) ++ bitsOf 24 4 ++ bitsOf 24 0

theorem headerBits_length (q : Nat) : (headerBits q).length = 56 := by simp [headerBits, bitsOf_length]

/-- The updates of `BEGINP` as one. -/
theorem Context.beginPicture_frame (q : BitVec 8) (w0 w1 w2 w3 : Writer) (n : Nat) :
    (((((({ c with wr := w0, qscale := q } : Context).setWriter w1).setWriter w2).setSliceStart n).setWriter
      w3).resetLastDc par).setFsm .inPicture =
        { c with wr := w3, qscale := q, sliceStart := n, lastDc := (c.resetLastDc par).lastDc,
                 fsm := .inPicture } := rfl

/-- `BEGINP`'s body never overflows (`OUT_CAP ≥ 7`) and does this (R211). -/
theorem beginPicture_ran (hl : par.Legal) (q : BitVec 8) (c : Context) :
    beginPicture par q c =
      .ran { c with wr := (Writer.mk c.wr.out 0 0).emit (headerBits q.toNat), qscale := q, sliceStart := 4,
                    lastDc := (c.resetLastDc par).lastDc, fsm := .inPicture } := by
  have h7 := hl.1
  unfold beginPicture
  have p0 : (Writer.mk c.wr.out 0 0).bitPos = 0 := rfl
  simp only
  rw [putBits_fits (by show (Writer.mk c.wr.out 0 0).bitPos + 8 ≤ _; omega), Flow.andThen_ran, putBits_fits (by
    show ((Writer.mk c.wr.out 0 0).emit _).bitPos + 24 ≤ _
    rw [Writer.emit_bitPos, bitsOf_length]; omega), Flow.andThen_ran]
  have hb : (((Writer.mk c.wr.out 0 0).emit (bitsOf 8 (100 - 2 * q.toNat))).emit (bitsOf 24 4)).byteCursor = 4 := by
    rw [Writer.byteCursor_eq, Writer.emit_bitPos, Writer.emit_bitPos, bitsOf_length, bitsOf_length, p0]
  rw [putBits_fits (by
    show (((Writer.mk c.wr.out 0 0).emit _).emit _).bitPos + 24 ≤ _
    rw [Writer.emit_bitPos, Writer.emit_bitPos, bitsOf_length, bitsOf_length]; omega), Flow.andThen_ran,
    Context.beginPicture_frame]
  simp only [Context.setWriter_wr, Context.setSliceStart_wr, hb, headerBits, Writer.emit_append]

/-! ### `ENDSL` -/

/-- The byte cursor after `FlushBits` (R131). -/
def Context.sliceEnd (c : Context) : Nat := (c.wr.bitPos + 7) / 8

/-- The bit writer after the flush and the back-patch of `ENDSL` (R212). -/
def Context.patched (c : Context) : Writer :=
  ⟨c.wr.out.memWrite c.sliceStart 3 (c.sliceEnd - c.sliceStart), c.sliceEnd, 0⟩

theorem flushBits_eq (c : Context) : flushBits c = { c with wr := ⟨c.wr.out, c.sliceEnd, 0⟩ } := by
  obtain ⟨h1, h2⟩ := Writer.cursors_of_bitPos (Writer.flush_bitPos c.wr)
  have : c.wr.flush = ⟨c.wr.out, c.sliceEnd, 0⟩ := by
    rw [← Writer.flush_out c.wr, ← h2, Context.sliceEnd, ← h1]
  rw [flushBits, this]; rfl

theorem backPatch_flush (c : Context) :
    backPatch (c.sliceEnd - c.sliceStart) (flushBits c) = { c with wr := c.patched, sliceStart := c.sliceEnd } := by
  rw [flushBits_eq]; rfl

/-- The updates of `ENDSL` after the back-patch as one. -/
theorem Context.endSlice_frame (w v : Writer) (n : Nat) :
    (({ c with wr := w, sliceStart := n } : Context).setWriter v).resetLastDc par =
      { c with wr := v, sliceStart := n, lastDc := (c.resetLastDc par).lastDc } := rfl

/-- `ENDSL`'s body does one of three things (R212, R247, R248). -/
theorem endSlice_cases (par : Params) (c : Context) :
    (2 ^ 24 ≤ c.sliceEnd - c.sliceStart ∧
      endSlice par c = .raised ((flushBits c).raise .sliceLengthOverflow (.plain 0x31))) ∨
    (c.sliceEnd - c.sliceStart < 2 ^ 24 ∧ par.outCap < c.sliceEnd + 3 ∧
      endSlice par c = .raised (({ c with wr := c.patched, sliceStart := c.sliceEnd } : Context).raise
        .outputOverflow (.plain 0x31))) ∨
    (c.sliceEnd - c.sliceStart < 2 ^ 24 ∧ c.sliceEnd + 3 ≤ par.outCap ∧
      endSlice par c =
        .ran { c with wr := c.patched.emit (bitsOf 24 0), sliceStart := c.sliceEnd,
                      lastDc := (c.resetLastDc par).lastDc }) := by
  have e1 : (flushBits c).wr.byteCursor = c.sliceEnd := by rw [flushBits_eq]
  have e2 : (flushBits c).sliceStart = c.sliceStart := rfl
  have hp : c.patched.bitPos = 8 * c.sliceEnd := rfl
  unfold endSlice
  simp only [e1, e2]
  split
  · exact .inl ⟨‹_›, rfl⟩
  · refine .inr ?_
    rw [backPatch_flush]
    generalize hd : ({ c with wr := c.patched, sliceStart := c.sliceEnd } : Context) = d
    have hdw : d.wr = c.patched := by rw [← hd]
    rcases putBits_cases par (.plain 0x31) 24 0 d with ⟨h, e⟩ | ⟨h, e⟩ <;> rw [hdw, hp] at h
    · refine .inr ⟨by omega, by omega, ?_⟩
      rw [e, Flow.andThen_ran, hdw, ← hd, Context.endSlice_frame]
    · refine .inl ⟨by omega, by omega, ?_⟩
      rw [e, Flow.andThen_raised]

/-- After `ENDSL` closed a slice: the length field, the new placeholder, and every other byte (R103, R212). -/
theorem endSlice_memory (h1 : c.sliceStart + 3 ≤ c.sliceEnd) (h2 : c.sliceEnd - c.sliceStart < 2 ^ 24) :
    (c.patched.emit (bitsOf 24 0)).out.memRead c.sliceStart 3 = c.sliceEnd - c.sliceStart ∧
      (c.patched.emit (bitsOf 24 0)).out.memRead c.sliceEnd 3 = 0 ∧
      ∀ a, ¬(c.sliceStart ≤ a ∧ a < c.sliceStart + 3) → ¬(c.sliceEnd ≤ a ∧ a < c.sliceEnd + 3) →
        (c.patched.emit (bitsOf 24 0)).out.read a = c.wr.out.read a := by
  have hp : c.patched.bitPos = 8 * c.sliceEnd := rfl
  have hr : ∀ a, ¬(c.sliceEnd ≤ a ∧ a < c.sliceEnd + 3) →
      (c.patched.emit (bitsOf 24 0)).out.read a = c.patched.out.read a := by
    intro a ha
    rcases Nat.lt_or_ge a c.sliceEnd with h | h
    · exact Writer.emit_read_below _ _ h
    · exact Writer.emit_read_above _ _ (by rw [bitsOf_length]; omega)
  refine ⟨?_, Writer.memRead_emit24 c.patched rfl (by omega), fun a ha hb => ?_⟩
  · rw [OutMem.memRead_congr (m' := c.patched.out) fun b h3 h4 => hr b (by omega)]
    exact OutMem.memRead_memWrite_three _ _ h2
  · rw [hr a hb]
    exact OutMem.read_memWrite_three _ _ (by omega)

end Sys2Proof.Machine
end

