-- ==== Sys2Proof/Laws/Exec.lean ====
section
/-! SUPPORT. What a command can do, said once for all sixteen (spec/60_exceptions.md R251; each command's own
rule). Lemmas about all commands start from `exec_cases` instead of unfolding every meaning. -/

namespace Sys2Proof.Machine

open Sys2Proof

/-- How the pseudocode of a command that touches no table may end once its requirements hold. `TINIT` and the
table loads are no such command. -/
def Performs (par : Params) (tab : TableUnit) (c : Context) (f : Flow) : Instr → Prop
  | .cfg _ w h =>
      (dimensionsValid w h = false ∧ f = .raised (c.raise .invalidDimensions (.plain 0x02))) ∨
      (dimensionsValid w h = true ∧ f = .raised (c.raise .unsupportedPixelFormat (.plain 0x02))) ∨
      (dimensionsValid w h = true ∧
        ∃ g, f = .ran { c with width := w, height := h, chromaFormat := g, cfgValid := true })
  | .ldscan k j => f = .ran { c with scan := Tbl.set c.scan k.toNat j }
  | .ldcoef b p v => f = .ran { c with coef := Tbl.set c.coef (64 * b.toNat + p.toNat) v }
  | .ldlast b l => f = .ran { c with last := Tbl.set c.last b.toNat l }
  | .putb n v => f = putBits par (.plain 0x10) n.toNat v.toNat c
  | .flush => f = .ran (flushBits c)
  | .encdc cls d => f = encodeDC par tab (.plain 0x20) cls (sext32 d) c
  | .encblk n => f = encodeBlock par tab 0x21 n.toNat c
  | .encmb => f = encodeBlocks par tab 0x22 (blockOrder c.chromaFormat) c
  | .beginp q => f = beginPicture par q c
  | .endsl => f = endSlice par c
  | .endp => f = .ran (c.setFsm .done)
  | .abortp => f = .ran { c with wr := ⟨c.wr.out, 0, 0⟩, sliceStart := 0, fsm := .idle }
  | .tinit => False
  | .lddcp _ _ _ _ => False
  | .ldace _ _ _ _ _ => False

/-- Everything a command can do: raise `ContractViolation`; with its requirements met, end as `Performs` says;
or load, build, find built or reject the tables. -/
theorem exec_cases (i : Instr) (s : State) :
    exec i s = .next (s.setCtx (s.ctx.raise .contractViolation (.plain i.opcode.code))) ∨
    (accepts s i = true ∧ ∃ f, Performs s.par s.tab s.ctx f i ∧ exec i s = .next (s.setCtx f.context)) ∨
    (accepts s i = true ∧
      ((s.tab.ready = false ∧ ∃ tab, exec i s = .next (s.setTab tab) ∧
          ((i = .tinit ∧ tablesWellFormed s.par s.tab = true ∧ tab = buildTables s.tab) ∨ tab.ready = false)) ∨
        (i = .tinit ∧ exec i s = .next s) ∨
        (i = .tinit ∧ exec i s = .next (s.setCtx (s.ctx.raise .badTable (.plain 0x01)))))) := by
  cases i
  case tinit =>
    refine .inr (.inr ⟨rfl, ?_⟩)
    simp only [exec, execTinit]
    cases hr : s.tab.ready
    · simp only [Bool.false_eq_true, if_false]
      split
      · rename_i hw; refine .inl ⟨trivial, _, rfl, .inl ⟨trivial, hw, rfl⟩⟩
      · exact .inr (.inr ⟨trivial, rfl⟩)
    · exact .inr (.inl ⟨trivial, rfl⟩)
  case lddcp cls cat len code =>
    simp only [exec, execLddcp, accepts]
    split
    · rename_i h; rw [Bool.and_eq_true] at h
      have hr : s.tab.ready = false := by simpa using h.1
      exact .inr (.inr ⟨by simp [h], .inl ⟨hr, _, rfl, .inr hr⟩⟩)
    · exact .inl rfl
  case ldace idx r l len code =>
    simp only [exec, execLdace, accepts]
    split
    · rename_i h; rw [Bool.and_eq_true] at h
      have hr : s.tab.ready = false := by simpa using h.1
      exact .inr (.inr ⟨by simp [h], .inl ⟨hr, _, rfl, .inr hr⟩⟩)
    · exact .inl rfl
  case abortp => exact .inr (.inl ⟨rfl, _, rfl, rfl⟩)
  case cfg p w h =>
    simp only [exec, execCfg, accepts]
    cases hb : s.ctx.outsidePicture
    · exact .inl rfl
    · rw [require_of rfl]; refine .inr (.inl ⟨rfl, _, ?_, rfl⟩)
      simp only [Performs]
      split
      · rename_i hd
        split
        · rename_i g _; exact .inr (.inr ⟨hd, g, rfl⟩)
        · exact .inr (.inl ⟨hd, rfl⟩)
      · rename_i hd; exact .inl ⟨by simpa using hd, rfl⟩
  case ldscan k j =>
    simp only [exec, execLdscan, accepts]
    cases hb : s.ctx.outsidePicture
    · exact .inl rfl
    · exact .inr (.inl ⟨rfl, _, rfl, rfl⟩)
  case ldcoef b p v =>
    simp only [exec, execLdcoef, accepts]
    cases hb : decide (b.toNat ≤ 11)
    · exact .inl rfl
    · exact .inr (.inl ⟨rfl, _, rfl, rfl⟩)
  case ldlast b l =>
    simp only [exec, execLdlast, accepts]
    cases hb : decide (b.toNat ≤ 11)
    · exact .inl rfl
    · exact .inr (.inl ⟨rfl, _, rfl, rfl⟩)
  case flush =>
    simp only [exec, execFlush, accepts]
    cases hb : s.ctx.inPicture
    · exact .inl rfl
    · exact .inr (.inl ⟨rfl, _, rfl, rfl⟩)
  case endsl =>
    simp only [exec, execEndsl, accepts]
    cases hb : s.ctx.inPicture
    · exact .inl rfl
    · exact .inr (.inl ⟨rfl, _, rfl, rfl⟩)
  case endp =>
    simp only [exec, execEndp, accepts]
    cases hb : s.ctx.inPicture
    · exact .inl rfl
    · cases hb : s.ctx.sliceEmpty
      · rw [require_of rfl, require_of_not hb]; exact .inl rfl
      · rw [require_of rfl, require_of hb]; exact .inr (.inl ⟨rfl, _, rfl, rfl⟩)
  case encdc cls d =>
    simp only [exec, execEncdc, accepts]
    cases hb : s.ctx.inPicture
    · exact .inl rfl
    · cases hb : s.tab.ready
      · rw [require_of rfl, require_of_not rfl]; exact .inl rfl
      · rw [require_of rfl, require_of rfl]; exact .inr (.inl ⟨rfl, _, rfl, rfl⟩)
  case encmb =>
    simp only [exec, execEncmb, accepts]
    cases hb : s.ctx.inPicture
    · exact .inl rfl
    · cases hb : s.tab.ready
      · rw [require_of rfl, require_of_not rfl]; exact .inl rfl
      · rw [require_of rfl, require_of rfl]; exact .inr (.inl ⟨rfl, _, rfl, rfl⟩)
  case encblk n =>
    simp only [exec, execEncblk, accepts]
    cases hb : s.ctx.inPicture
    · exact .inl rfl
    · cases hb : s.tab.ready
      · rw [require_of rfl, require_of_not rfl]; exact .inl rfl
      · rw [require_of rfl, require_of rfl]
        cases hb : decide (n.toNat ≤ 11)
        · exact .inl rfl
        · exact .inr (.inl ⟨rfl, _, rfl, rfl⟩)
  case putb n v =>
    simp only [exec, execPutb, accepts]
    cases hb : s.ctx.inPicture
    · exact .inl rfl
    · rw [require_of rfl, Bool.true_and]
      cases hb : (decide (1 ≤ n.toNat) && decide (n.toNat ≤ 32))
      · exact .inl rfl
      · rw [require_of rfl]
        cases hb : decide (v.toNat < 2 ^ n.toNat)
        · exact .inl rfl
        · exact .inr (.inl ⟨rfl, _, rfl, rfl⟩)
  case beginp q =>
    simp only [exec, execBeginp, accepts]
    cases hb : s.ctx.outsidePicture
    · exact .inl rfl
    · rw [require_of rfl, Bool.true_and]
      cases hb : (s.tab.ready && s.ctx.cfgValid)
      · exact .inl rfl
      · rw [require_of rfl, Bool.true_and]
        cases hb : (decide (1 ≤ q.toNat) && decide (q.toNat ≤ 50))
        · exact .inl rfl
        · exact .inr (.inl ⟨rfl, _, rfl, rfl⟩)

/-- The bit-emitting commands end as an encoder may end. -/
theorem Performs.encodes {par : Params} {tab : TableUnit} {c : Context} {f : Flow} {i : Instr}
    (h : Performs par tab c f i)
    (hi : i.opcode = .putb ∨ i.opcode = .encdc ∨ i.opcode = .encblk ∨ i.opcode = .encmb) :
    Flow.Encodes par i.opcode.code c f := by
  cases i <;> simp only [Instr.opcode] at hi <;> simp at hi <;> simp only [Performs] at h <;> subst h
  · exact putBits_encodes _ (.plain 0x10) _ _ _
  · exact encodeDC_encodes (t := .plain 0x20) _ _
  · exact encodeBlock_encodes _ _
  · exact encodeBlocks_encodes _ _

end Sys2Proof.Machine
end

