-- ==== Sys2Proof/Laws/PerInstr.lean ====
section
/-! SUPPORT. Statements made of every command, one lemma per constructor of `Instr`. -/

namespace Sys2Proof.Laws.EncodesOwnRow

open Sys2Proof

/-- The word of a command has 0 in every reserved bit and its row's opcode on top: it matches its own row
(R91, R93). -/
def Statement (i : Instr) : Prop := encode i &&& i.opcode.mask = i.opcode.matchWord

theorem tinit : Statement .tinit := by unfold Statement; decide

theorem cfg (pixfmt : BitVec 4) (width : BitVec 16) (height : BitVec 16) :
    Statement (.cfg pixfmt width height) := by
  have hm : Opcode.mask .cfg = (0xFF#8 ++ 0xFFFFF#20 ++ 0#4 ++ 0#16 ++ 0#16 : BitVec 64) := by decide
  simp only [Statement, Instr.opcode, encode]
  rw [hm]
  change ((_ : BitVec 8) ++ (_ : BitVec 20) ++ (_ : BitVec 4) ++ (_ : BitVec 16) ++ (_ : BitVec 16)) &&&
    (0xFF#8 ++ 0xFFFFF#20 ++ 0#4 ++ 0#16 ++ 0#16) = _
  simp only [BitVec.and_append, BitVec.and_zero]
  decide

theorem lddcp (cls : DcClass) (cat : BitVec 4) (len : BitVec 5) (code : BitVec 16) :
    Statement (.lddcp cls cat len code) := by
  have hm : Opcode.mask .lddcp = (0xFF#8 ++ 0x7F#7 ++ 0#1 ++ 0xF#4 ++ 0#4 ++ 0x7#3 ++ 0#5 ++ 0xFFFF#16 ++ 0#16 : BitVec 64) := by decide
  simp only [Statement, Instr.opcode, encode]
  rw [hm]
  change ((_ : BitVec 8) ++ (_ : BitVec 7) ++ (_ : BitVec 1) ++ (_ : BitVec 4) ++ (_ : BitVec 4) ++ (_ : BitVec 3) ++ (_ : BitVec 5) ++ (_ : BitVec 16) ++ (_ : BitVec 16)) &&&
    (0xFF#8 ++ 0x7F#7 ++ 0#1 ++ 0xF#4 ++ 0#4 ++ 0x7#3 ++ 0#5 ++ 0xFFFF#16 ++ 0#16) = _
  cases cls <;>
  · simp only [BitVec.and_append, BitVec.and_zero, DcClass.bit]
    decide

theorem ldace (idx : BitVec 7) (run : BitVec 6) (level : BitVec 7) (len : BitVec 5) (code : BitVec 16) :
    Statement (.ldace idx run level len code) := by
  have hm : Opcode.mask .ldace = (0xFF#8 ++ 1#1 ++ 0#7 ++ 3#2 ++ 0#6 ++ 1#1 ++ 0#7 ++ 0x7FF#11 ++ 0#5 ++ 0#16 : BitVec 64) := by decide
  simp only [Statement, Instr.opcode, encode]
  rw [hm]
  change ((_ : BitVec 8) ++ (_ : BitVec 1) ++ (_ : BitVec 7) ++ (_ : BitVec 2) ++ (_ : BitVec 6) ++ (_ : BitVec 1) ++ (_ : BitVec 7) ++ (_ : BitVec 11) ++ (_ : BitVec 5) ++ (_ : BitVec 16)) &&&
    (0xFF#8 ++ 1#1 ++ 0#7 ++ 3#2 ++ 0#6 ++ 1#1 ++ 0#7 ++ 0x7FF#11 ++ 0#5 ++ 0#16) = _
  simp only [BitVec.and_append, BitVec.and_zero]
  decide

theorem ldscan (k : BitVec 6) (j : BitVec 6) :
    Statement (.ldscan k j) := by
  have hm : Opcode.mask .ldscan = (0xFF#8 ++ 0x3FFFF#18 ++ 0#6 ++ 0x3FFFFFF#26 ++ 0#6 : BitVec 64) := by decide
  simp only [Statement, Instr.opcode, encode]
  rw [hm]
  change ((_ : BitVec 8) ++ (_ : BitVec 18) ++ (_ : BitVec 6) ++ (_ : BitVec 26) ++ (_ : BitVec 6)) &&&
    (0xFF#8 ++ 0x3FFFF#18 ++ 0#6 ++ 0x3FFFFFF#26 ++ 0#6) = _
  simp only [BitVec.and_append, BitVec.and_zero]
  decide

theorem ldcoef (blk : BitVec 4) (pos : BitVec 6) (value : BitVec 16) :
    Statement (.ldcoef blk pos value) := by
  have hm : Opcode.mask .ldcoef = (0xFF#8 ++ 0xFFF#12 ++ 0#4 ++ 3#2 ++ 0#6 ++ 0xFFFF#16 ++ 0#16 : BitVec 64) := by decide
  simp only [Statement, Instr.opcode, encode]
  rw [hm]
  change ((_ : BitVec 8) ++ (_ : BitVec 12) ++ (_ : BitVec 4) ++ (_ : BitVec 2) ++ (_ : BitVec 6) ++ (_ : BitVec 16) ++ (_ : BitVec 16)) &&&
    (0xFF#8 ++ 0xFFF#12 ++ 0#4 ++ 3#2 ++ 0#6 ++ 0xFFFF#16 ++ 0#16) = _
  simp only [BitVec.and_append, BitVec.and_zero]
  decide

theorem ldlast (blk : BitVec 4) (last : BitVec 6) :
    Statement (.ldlast blk last) := by
  have hm : Opcode.mask .ldlast = (0xFF#8 ++ 0xFFF#12 ++ 0#4 ++ 0x3FFFFFFFF#34 ++ 0#6 : BitVec 64) := by decide
  simp only [Statement, Instr.opcode, encode]
  rw [hm]
  change ((_ : BitVec 8) ++ (_ : BitVec 12) ++ (_ : BitVec 4) ++ (_ : BitVec 34) ++ (_ : BitVec 6)) &&&
    (0xFF#8 ++ 0xFFF#12 ++ 0#4 ++ 0x3FFFFFFFF#34 ++ 0#6) = _
  simp only [BitVec.and_append, BitVec.and_zero]
  decide

theorem putb (n : BitVec 6) (value : BitVec 32) :
    Statement (.putb n value) := by
  have hm : Opcode.mask .putb = (0xFF#8 ++ 0x3FFFF#18 ++ 0#6 ++ 0#32 : BitVec 64) := by decide
  simp only [Statement, Instr.opcode, encode]
  rw [hm]
  change ((_ : BitVec 8) ++ (_ : BitVec 18) ++ (_ : BitVec 6) ++ (_ : BitVec 32)) &&&
    (0xFF#8 ++ 0x3FFFF#18 ++ 0#6 ++ 0#32) = _
  simp only [BitVec.and_append, BitVec.and_zero]
  decide

theorem flush : Statement .flush := by unfold Statement; decide

theorem encdc (cls : DcClass) (diff : BitVec 32) :
    Statement (.encdc cls diff) := by
  have hm : Opcode.mask .encdc = (0xFF#8 ++ 0x7FFFFF#23 ++ 0#1 ++ 0#32 : BitVec 64) := by decide
  simp only [Statement, Instr.opcode, encode]
  rw [hm]
  change ((_ : BitVec 8) ++ (_ : BitVec 23) ++ (_ : BitVec 1) ++ (_ : BitVec 32)) &&&
    (0xFF#8 ++ 0x7FFFFF#23 ++ 0#1 ++ 0#32) = _
  cases cls <;>
  · simp only [BitVec.and_append, BitVec.and_zero, DcClass.bit]
    decide

theorem encblk (n : BitVec 4) :
    Statement (.encblk n) := by
  have hm : Opcode.mask .encblk = (0xFF#8 ++ 0xFFFFFFFFFFFFF#52 ++ 0#4 : BitVec 64) := by decide
  simp only [Statement, Instr.opcode, encode]
  rw [hm]
  change ((_ : BitVec 8) ++ (_ : BitVec 52) ++ (_ : BitVec 4)) &&&
    (0xFF#8 ++ 0xFFFFFFFFFFFFF#52 ++ 0#4) = _
  simp only [BitVec.and_append, BitVec.and_zero]
  decide

theorem encmb : Statement .encmb := by unfold Statement; decide

theorem beginp (qscale : BitVec 8) :
    Statement (.beginp qscale) := by
  have hm : Opcode.mask .beginp = (0xFF#8 ++ 0xFFFFFFFFFFFF#48 ++ 0#8 : BitVec 64) := by decide
  simp only [Statement, Instr.opcode, encode]
  rw [hm]
  change ((_ : BitVec 8) ++ (_ : BitVec 48) ++ (_ : BitVec 8)) &&&
    (0xFF#8 ++ 0xFFFFFFFFFFFF#48 ++ 0#8) = _
  simp only [BitVec.and_append, BitVec.and_zero]
  decide

theorem endsl : Statement .endsl := by unfold Statement; decide

theorem endp : Statement .endp := by unfold Statement; decide

theorem abortp : Statement .abortp := by unfold Statement; decide

end Sys2Proof.Laws.EncodesOwnRow
end

