-- ==== Sys2Proof/Laws/Sound.lean ====
section
/-! SUPPORT. Pieces of the invariant of Safety.lean: chains of length fields (spec/45_framer.md R218), and what
fault entry (60_exceptions.md R250) and emitting bits (40_bitwriter.md R130) keep of it. -/

namespace Sys2Proof.Machine

open Sys2Proof

variable {par : Params} {tab tab' : TableUnit} {c : Context} {m m' : OutMem} {a b : Nat}

/-! ### Chains of length fields -/

theorem SliceChain.le (h : SliceChain m a b) : a ≤ b := by
  induction h with
  | here => exact le_refl _
  | field a b h1 _ ih => omega

/-- A chain depends only on the bytes before its end. -/
theorem SliceChain.congr (h : SliceChain m a b) (hm : ∀ x, x < b → m'.read x = m.read x) :
    SliceChain m' a b := by
  induction h with
  | here a => exact .here a
  | field a b h1 h2 ih =>
    have hab := h2.le
    have e : m'.memRead a 3 = m.memRead a 3 := OutMem.memRead_congr fun x h3 h4 => hm x (by omega)
    exact .field a b (by rw [e]; exact h1) (by rw [e]; exact ih hm)

/-- One more length field at the end of a chain. -/
theorem SliceChain.snoc (h : SliceChain m a b) (h3 : 3 ≤ m.memRead b 3) :
    SliceChain m a (b + m.memRead b 3) := by
  induction h with
  | here a => exact .field a _ h3 (.here _)
  | field a b h1 h2 ih => exact .field a _ h1 (ih h3)

/-! ### What keeps a context sound -/

theorem Context.Sound.mono (h : c.Sound par tab) (ht : tab.ready = true → tab'.ready = true) :
    c.Sound par tab' :=
  { h with begun := fun hf => ⟨ht (h.begun hf).1, (h.begun hf).2⟩ }

/-- Fault entry keeps a context sound (R250). -/
theorem Context.Sound.raise (h : c.Sound par tab) {code : FaultCode} (hc : code ≠ .clear) (site : Site) :
    (c.raise code site).Sound par tab where
  writer := h.writer
  dimensions := h.dimensions
  qscaleMax := h.qscaleMax
  sliceStartMax := h.sliceStartMax
  begun := h.begun
  openField _ h0 := absurd h0 hc
  header _ h0 := absurd h0 hc
  chain _ h0 := absurd h0 hc
  finished _ h0 := absurd h0 hc
  faultInfoClear h0 := absurd h0 hc

/-- Appending bits inside a picture keeps a context sound (R130). -/
theorem Context.Sound.emitted (h : c.Sound par tab) (hf : c.fsm = .inPicture) {bits : List Bool}
    (hb : bits = [] ∨ c.wr.bitPos + bits.length ≤ 8 * par.outCap) (dc : Vector (BitVec 16) 3) :
    (c.emitted bits dc).Sound par tab := by
  have hw : (c.wr.emit bits).Sound par.outCap := by
    rcases hb with rfl | hb
    · rw [Writer.emit_nil]; exact h.writer
    · exact h.writer.emit bits hb
  have hi : c.fsm ≠ .idle := by rw [hf]; decide
  have hpos : c.wr.byteCursor ≤ (c.wr.emit bits).byteCursor := by
    have h1 := c.wr.emit_bitPos bits
    have h2 := c.wr.byteCursor_eq
    have h3 := (c.wr.emit bits).byteCursor_eq
    omega
  have hrd : ∀ x, x < c.wr.byteCursor → (c.wr.emit bits).out.read x = c.wr.out.read x :=
    fun x hx => Writer.emit_read_below _ _ hx
  generalize hv : c.wr.emit bits = v at *
  have hcw : (c.emitted bits dc).wr = v := hv
  have hmem : ∀ x, x + 3 ≤ c.wr.byteCursor → v.out.memRead x 3 = c.wr.out.memRead x 3 :=
    fun x hx => OutMem.memRead_congr fun y h3 h4 => hrd y (by omega)
  have ho := fun h0 => h.openField hi h0
  exact
    { writer := hcw ▸ hw
      dimensions := h.dimensions
      qscaleMax := h.qscaleMax
      sliceStartMax := h.sliceStartMax
      begun := h.begun
      openField := fun _ h0 => by
        rw [hcw]
        exact ⟨(ho h0).1, le_trans (ho h0).2.1 hpos, (hmem _ (ho h0).2.1).trans (ho h0).2.2⟩
      header := fun _ h0 => by
        have h1 := (ho h0).1
        have h2 := (ho h0).2.1
        rw [hcw, hmem 1 (by omega), hrd 0 (by omega)]
        exact h.header hi h0
      chain := fun _ h0 => by
        rw [hcw]
        have h2 := (ho h0).2.1
        exact (h.chain hi h0).congr fun x hx => hrd x (by omega)
      finished := fun hd => absurd (hf.symm.trans hd) (by decide)
      faultInfoClear := h.faultInfoClear }

/-- However an encoder ends, the context is sound. -/
theorem Flow.Encodes.sound {op : BitVec 8} {f : Flow} (he : Flow.Encodes par op c f) (h : c.Sound par tab)
    (hf : c.fsm = .inPicture) : f.context.Sound par tab := by
  obtain ⟨bits, dc, hb, rfl | ⟨code, site, hcode, _, rfl⟩⟩ := he
  · exact h.emitted hf hb dc
  · exact (h.emitted hf hb dc).raise (by rcases hcode with rfl | rfl <;> decide) site

end Sys2Proof.Machine
end

