-- ==== Sys2Proof/Laws/Step.lean ====
section
/-! SUPPORT. What a step can do, said once (spec/60_exceptions.md R251; 70_reset_and_hazards.md R262, R280):
serving a port, the frame of a command, the three kinds of step. -/

namespace Sys2Proof.Machine

open Sys2Proof

variable {s t : State} {k : Nat}

/-! ### Serving a port -/

/-- What serving context `k` gives: the context, with the ones below and above it around it. -/
theorem focus_eq_some (h : s.focus k = some t) :
    k < s.contexts.length ∧ s.contexts[k]? = some t.ctx ∧
      t = { s with lower := s.contexts.take k, ctx := t.ctx, higher := s.contexts.drop (k + 1) } := by
  unfold State.focus at h
  split at h
  · cases h
  · rename_i c above hd
    have hk : k < s.contexts.length := by
      by_contra hk
      rw [List.drop_eq_nil_of_le (by omega)] at hd
      cases hd
    rw [List.drop_eq_getElem_cons hk] at hd
    obtain ⟨rfl, rfl⟩ := List.cons.inj hd
    cases h
    exact ⟨hk, List.getElem?_eq_getElem hk, rfl⟩

theorem focus_isSome (h : k < s.contexts.length) : ∃ t, s.focus k = some t := by
  unfold State.focus
  rw [List.drop_eq_getElem_cons h]
  exact ⟨_, rfl⟩

theorem focus_eq_none (h : s.contexts.length ≤ k) : s.focus k = none := by
  unfold State.focus
  rw [List.drop_eq_nil_of_le h]

/-- The contexts after the served one and the table unit were changed. -/
theorem contexts_after (h : s.focus k = some t) (c : Context) (tab : TableUnit) :
    ((t.setTab tab).setCtx c).contexts = s.contexts.set k c := by
  obtain ⟨hk, _, e⟩ := focus_eq_some h
  rw [e]
  show s.contexts.take k ++ c :: s.contexts.drop (k + 1) = _
  rw [List.set_eq_take_append_cons_drop, if_pos hk]

/-! ### The frame of a command -/

/-- Every command answers a next state; only the served context and the table unit may differ, and built tables
do not (R72, R148). -/
theorem exec_frame (i : Instr) (s : State) :
    ∃ c tab, exec i s = .next ((s.setTab tab).setCtx c) ∧ (s.tab.ready = true → tab = s.tab) := by
  cases i
  case tinit =>
    simp only [exec, execTinit]
    split
    · exact ⟨s.ctx, s.tab, rfl, fun _ => rfl⟩
    · split
      · exact ⟨s.ctx, buildTables s.tab, rfl, fun h => absurd h ‹_›⟩
      · exact ⟨_, s.tab, rfl, fun _ => rfl⟩
  case lddcp cls cat len code =>
    simp only [exec, execLddcp]
    split
    · rename_i h
      exact ⟨s.ctx, { s.tab with dcpfx := Tbl.set s.tab.dcpfx (16 * classNumber cls + cat.toNat) ⟨len, code⟩ },
        rfl, fun h' => by simp [h'] at h⟩
    · exact ⟨_, s.tab, rfl, fun _ => rfl⟩
  case ldace idx run level len code =>
    simp only [exec, execLdace]
    split
    · rename_i h
      exact ⟨s.ctx, { s.tab with aclist := Tbl.set s.tab.aclist idx.toNat ⟨run, level, len, code⟩ },
        rfl, fun h' => by simp [h'] at h⟩
    · exact ⟨_, s.tab, rfl, fun _ => rfl⟩
  all_goals exact ⟨_, s.tab, rfl, fun _ => rfl⟩

/-- The same of a word on the port; a faulted context changes in no way (R251, R252). -/
theorem runWord_frame (w : Word) (s : State) :
    ∃ c tab, runWord w s = .next ((s.setTab tab).setCtx c) ∧ (s.tab.ready = true → tab = s.tab) ∧
      (s.ctx.faulted = true → c = s.ctx ∧ tab = s.tab) := by
  unfold runWord
  cases hf : s.ctx.faulted
  · simp only [Bool.false_eq_true, if_false]
    split
    · exact ⟨_, s.tab, rfl, fun _ => rfl, fun h => by cases h⟩
    · rename_i i _
      obtain ⟨c, tab, h1, h2⟩ := exec_frame i s
      exact ⟨c, tab, h1, h2, fun h => by cases h⟩
  · exact ⟨s.ctx, s.tab, rfl, fun _ => rfl, fun _ => ⟨rfl, rfl⟩⟩

/-! ### Steps -/

/-- A step that answers a next state waited, was reset, or served one command word. -/
theorem step_cases (h : step s = .next t) :
    (s.inbox = [] ∧ t = s) ∨
    (∃ rest, s.inbox = .reset :: rest ∧ t = ({ s with inbox := rest } : State).applyReset) ∨
    ∃ k w rest u, s.inbox = .command k w :: rest ∧ ({ s with inbox := rest } : State).focus k = some u ∧
      runWord w u = .next t := by
  rcases hin : s.inbox with _ | ⟨_ | _, rest⟩
  · left; simp [step, serve, hin] at h; exact ⟨rfl, h.symm⟩
  · right; right
    simp only [step, serve, hin] at h
    split at h
    · cases h
    · exact ⟨_, _, _, _, rfl, ‹_›, h⟩
  · right; left; simp [step, serve, hin] at h; exact ⟨rest, rfl, h.symm⟩

end Sys2Proof.Machine
end

