-- ==== Sys2Proof/Machine/Assembler.lean ====
section
/-! DEFINITION. The assembler (spec/30_encoding.md R96) and its pseudo-commands (R97). A line of text gives
the commands it stands for, or none where it is no line of R96. What R96 leaves open is in log 15. -/

namespace Sys2Proof.Machine

open Sys2Proof

/-! ### Pseudo-commands (R97) -/

/-- `ENDPIC`. -/
def asmEndpic : List Instr := [.endsl, .endp]

/-- `LDBLK n, last, v0, ..., v63`. -/
def asmLdblk (n : BitVec 4) (last : BitVec 6) (v : List (BitVec 16)) : List Instr :=
  v.mapIdx (fun pos x => .ldcoef n (BitVec.ofNat 6 pos) x) ++ [.ldlast n last]

/-- `CLRBLK n`. -/
def asmClrblk (n : BitVec 4) : List Instr := asmLdblk n 0 (List.replicate 64 0)

/-- `LDSCANT j0, ..., j63`. -/
def asmLdscant (j : List (BitVec 6)) : List Instr := j.mapIdx fun k x => .ldscan (BitVec.ofNat 6 k) x

/-- `PUT24 v`. -/
def asmPut24 (v : BitVec 32) : List Instr := [.putb 24 v]

/-- `LDESC`. -/
def asmLdesc : List Instr := [.ldace 121 0 0 6 32]

/-- `LDEOB`. -/
def asmLdeob : List Instr := [.ldace 122 0 0 4 6]

/-! ### Numbers and names (R96) -/

/-- The value of a digit in base `base`. -/
def digitValue (base : Nat) (ch : Char) : Option Nat :=
  let k := ch.toNat
  let d := if 48 ≤ k ∧ k ≤ 57 then k - 48
    else if 65 ≤ k ∧ k ≤ 70 then k - 55
    else if 97 ≤ k ∧ k ≤ 102 then k - 87
    else base
  if d < base then some d else none

/-- The digits of a number, most significant first, `acc` being what stands before them. -/
def digitsValue (base : Nat) : List Char → Nat → Option Nat
  | [], acc => some acc
  | ch :: rest, acc => (digitValue base ch).bind fun d => digitsValue base rest (acc * base + d)

/-- An unsigned integer, decimal or `0x` hexadecimal. -/
def natToken : List Char → Option Nat
  | [] => none
  | '0' :: 'x' :: ch :: rest => digitsValue 16 (ch :: rest) 0
  | tok => digitsValue 10 tok 0

/-- An unsigned operand of `w` bits. -/
def unsignedToken (w : Nat) (tok : List Char) : Option (BitVec w) :=
  (natToken tok).bind fun v => if v < 2 ^ w then some (BitVec.ofNat w v) else none

/-- A two's-complement operand of `w` bits; only these may have a leading minus sign. -/
def signedToken (w : Nat) (tok : List Char) : Option (BitVec w) :=
  match tok with
  | '-' :: rest =>
      (natToken rest).bind fun v =>
        if 2 * v ≤ 2 ^ w then some (BitVec.ofInt w (-(v : Int))) else none
  | _ => (natToken tok).bind fun v => if 2 * v < 2 ^ w then some (BitVec.ofNat w v) else none

/-- A class operand: `lum` (0), `chr` (1), or the number. -/
def classToken (tok : List Char) : Option DcClass :=
  if tok = "lum".toList then some .luma
  else if tok = "chr".toList then some .chroma
  else (unsignedToken 1 tok).map DcClass.ofBit

/-- A `pixfmt` operand: `420` (0), `422` (1), `444` (2), or the number. -/
def pixfmtToken (tok : List Char) : Option (BitVec 4) :=
  if tok = "420".toList then some 0#4
  else if tok = "422".toList then some 1#4
  else if tok = "444".toList then some 2#4
  else unsignedToken 4 tok

/-! ### Lines -/

/-- The command of a row from its operand tokens, in the order of R96's list. -/
def assembleRow : Opcode → List (List Char) → Option Instr
  | .tinit, [] => some .tinit
  | .cfg, [p, w, h] =>
      (pixfmtToken p).bind fun p => (unsignedToken 16 w).bind fun w => (unsignedToken 16 h).map fun h => .cfg p w h
  | .lddcp, [c, k, l, d] =>
      (classToken c).bind fun c => (unsignedToken 4 k).bind fun k => (unsignedToken 5 l).bind fun l =>
      (unsignedToken 16 d).map fun d => .lddcp c k l d
  | .ldace, [i, r, v, l, d] =>
      (unsignedToken 7 i).bind fun i => (unsignedToken 6 r).bind fun r => (unsignedToken 7 v).bind fun v =>
      (unsignedToken 5 l).bind fun l => (unsignedToken 16 d).map fun d => .ldace i r v l d
  | .ldscan, [k, j] => (unsignedToken 6 k).bind fun k => (unsignedToken 6 j).map fun j => .ldscan k j
  | .ldcoef, [b, p, v] =>
      (unsignedToken 4 b).bind fun b => (unsignedToken 6 p).bind fun p => (signedToken 16 v).map fun v =>
      .ldcoef b p v
  | .ldlast, [b, l] => (unsignedToken 4 b).bind fun b => (unsignedToken 6 l).map fun l => .ldlast b l
  | .putb, [n, v] => (unsignedToken 6 n).bind fun n => (unsignedToken 32 v).map fun v => .putb n v
  | .flush, [] => some .flush
  | .encdc, [c, d] => (classToken c).bind fun c => (signedToken 32 d).map fun d => .encdc c d
  | .encblk, [n] => (unsignedToken 4 n).map fun n => .encblk n
  | .encmb, [] => some .encmb
  | .beginp, [q] => (unsignedToken 8 q).map fun q => .beginp q
  | .endsl, [] => some .endsl
  | .endp, [] => some .endp
  | .abortp, [] => some .abortp
  | _, _ => none

/-- All tokens read as unsigned operands of `w` bits. -/
def unsignedTokens (w : Nat) : List (List Char) → Option (List (BitVec w))
  | [] => some []
  | t :: rest => (unsignedToken w t).bind fun x => (unsignedTokens w rest).map fun xs => x :: xs

/-- All tokens read as two's-complement operands of `w` bits. -/
def signedTokens (w : Nat) : List (List Char) → Option (List (BitVec w))
  | [] => some []
  | t :: rest => (signedToken w t).bind fun x => (signedTokens w rest).map fun xs => x :: xs

/-- The expansion of a pseudo-command (R97). -/
def assemblePseudo (name : List Char) (ops : List (List Char)) : Option (List Instr) :=
  if name = "ENDPIC".toList then (if ops = [] then some asmEndpic else none)
  else if name = "LDBLK".toList then
    match ops with
    | n :: l :: vs =>
        if vs.length = 64 then
          (unsignedToken 4 n).bind fun n => (unsignedToken 6 l).bind fun l => (signedTokens 16 vs).map (asmLdblk n l)
        else none
    | _ => none
  else if name = "CLRBLK".toList then
    match ops with
    | [n] => (unsignedToken 4 n).map asmClrblk
    | _ => none
  else if name = "LDSCANT".toList then
    if ops.length = 64 then (unsignedTokens 6 ops).map asmLdscant else none
  else if name = "PUT24".toList then
    match ops with
    | [v] => (unsignedToken 32 v).map asmPut24
    | _ => none
  else if name = "LDESC".toList then (if ops = [] then some asmLdesc else none)
  else if name = "LDEOB".toList then (if ops = [] then some asmLdeob else none)
  else none

/-- A blank of a line. -/
def isBlank (ch : Char) : Bool := ch == ' ' || ch == '\t'

/-- A text without the blanks at its two ends. -/
def trimBlanks (cs : List Char) : List Char := ((cs.dropWhile isBlank).reverse.dropWhile isBlank).reverse

/-- The pieces of a text between commas. -/
def splitCommas (cs : List Char) : List (List Char) :=
  match cs with
  | [] => [[]]
  | ch :: rest =>
      match splitCommas rest with
      | [] => [[ch]]
      | p :: ps => if ch = ',' then [] :: p :: ps else (ch :: p) :: ps

/-- One line (R96): a comment from `;` on is dropped; an empty line gives no command. -/
def assembleLine (line : List Char) : Option (List Instr) :=
  let text := trimBlanks (line.takeWhile fun ch => ch != ';')
  let name := text.takeWhile fun ch => !isBlank ch
  let args := trimBlanks (text.dropWhile fun ch => !isBlank ch)
  let ops := if args = [] then [] else (splitCommas args).map trimBlanks
  if text = [] then some []
  else
    match Opcode.all.find? fun o => decide (o.mnemonic.toList = name) with
    | some o => (assembleRow o ops).map fun i => [i]
    | none => assemblePseudo name ops

end Sys2Proof.Machine
end

