-- ==== Sys2Proof/Tests/Slice0.lean ====
section
/-! SUPPORT. Tests: ill-formed operands, command words, one step of each command, and for each statement with
hypotheses a witness that meets them all. Expected values come from spec/95_test_vectors.md (its section is
named at each test) or from the rule cited. -/

namespace Sys2Proof.Tests

set_option Elab.async false

open Sys2Proof Sys2Proof.Machine

/-! ### The fixture of 95_test_vectors.md section 0 -/

/-- The fixture's parameters, with `OUT_CAP` as given. -/
def fixPar (cap : Nat) : Params := ⟨cap, 128, 12⟩

/-- (len, code) of the fixture's DC prefixes: luma categories 0 .. 11, four unused entries, then chroma. -/
def fixDcpfx : List (Nat × Nat) :=
  [(3, 1), (2, 0), (2, 2), (3, 5), (3, 3), (4, 7), (5, 15), (6, 31), (7, 63), (8, 127), (9, 255), (9, 511),
   (0, 0), (0, 0), (0, 0), (0, 0),
   (2, 0), (2, 2), (2, 1), (3, 3), (4, 7), (5, 15), (6, 31), (7, 63), (8, 127), (9, 255), (10, 511), (10, 1023)]

/-- The fixture's synthetic AC list. -/
def fixAce (i : Nat) : AceEntry :=
  if i = 121 then ⟨0, 0, 6, 32⟩
  else if i = 122 then ⟨0, 0, 4, 6⟩
  else
    ⟨BitVec.ofNat 6 (i / 2), BitVec.ofNat 7 (i % 2 + 1), BitVec.ofNat 5 (3 + i % 10),
     BitVec.ofNat 16 ((i * i + 3 * i + 1) % 2 ^ (3 + i % 10))⟩

/-- The fixture's scan order. -/
def fixScan : List Nat :=
  [0, 1, 8, 16, 9, 2, 3, 10, 17, 24, 32, 25, 18, 11, 4, 5, 12, 19, 26, 33, 40, 48, 41, 34, 27, 20, 13, 6, 7, 14,
   21, 28, 35, 42, 49, 56, 57, 50, 43, 36, 29, 22, 15, 23, 30, 37, 44, 51, 58, 59, 52, 45, 38, 31, 39, 46, 53,
   60, 61, 54, 47, 55, 62, 63]

/-- The table unit with the fixture's inputs loaded and nothing built. -/
def fixTab : TableUnit where
  dcpfx := Tbl.build 32 fun i => ⟨BitVec.ofNat 5 (fixDcpfx.getD i (0, 0)).1, BitVec.ofNat 16 (fixDcpfx.getD i (0, 0)).2⟩
  aclist := Tbl.build 123 fixAce
  dcLumUni := Tbl.build 512 fun _ => 0
  dcChrUni := Tbl.build 512 fun _ => 0
  acVlc := Tbl.build 123 fun _ => ⟨0, 0⟩
  maxLevel := Tbl.build 64 fun _ => 0
  indexRun := Tbl.build 64 fun _ => 0
  uniAcLen := Tbl.build 8192 fun _ => 0
  ready := false

/-- The table unit after `TINIT`. -/
def builtTab : TableUnit := buildTables fixTab

/-- A context after BOOT (section 0): idle and configured, the scan order loaded. -/
def idleCtx : Context where
  wr := ⟨⟨0, 0, []⟩, 0, 0⟩
  qscale := 0
  chromaFormat := .yuv420
  lastDc := Tbl.build 3 fun _ => 0
  scan := Tbl.build 64 fun i => BitVec.ofNat 6 (fixScan.getD i 0)
  sliceStart := 0
  fsm := .idle
  cfgValid := true
  width := 16
  height := 16
  faultCode := .clear
  faultInfo := 0
  coef := Tbl.build 768 fun _ => 0
  last := Tbl.build 12 fun _ => 0

/-- The seven bytes `BEGINP 7` writes (S6), and the writer after it. -/
def headerCells : List Host.Cell := [(0, 0x56), (1, 4), (2, 0), (3, 0), (4, 0), (5, 0), (6, 0)]

/-- A context after `BEGINP 7`. -/
def pictureCtx : Context :=
  { idleCtx with wr := ⟨⟨0, 0, headerCells⟩, 7, 0⟩, qscale := 7, sliceStart := 4, fsm := .inPicture,
                 lastDc := Tbl.build 3 fun _ => 128 }

/-- A context that wrote one slice with the payload byte A5 and closed it: `ENDSL` of 45_framer.md R212. -/
def closedCtx : Context :=
  { pictureCtx with
    wr := ⟨⟨0, 0, [(0, 0x56), (1, 4), (2, 0), (3, 0), (4, 4), (5, 0), (6, 0), (7, 0xA5), (8, 0), (9, 0), (10, 0)]⟩,
           11, 0⟩,
    sliceStart := 8 }

/-- A finished picture. -/
def doneCtx : Context := { closedCtx with fsm := .done }

/-- A context with the DC coefficients of block 0 and the AC coefficients given as (position, value) pairs. -/
def withBlock (c : Context) (last : Nat) (values : List (Nat × Int)) : Context :=
  { c with
    coef := values.foldl (fun v p => Tbl.set v p.1 (BitVec.ofInt 16 p.2)) c.coef
    last := Tbl.set c.last 0 (BitVec.ofNat 6 last) }

/-- A block with one context. -/
def single (tab : TableUnit) (c : Context) (cap : Nat := 64) : State where
  par := fixPar cap
  tab := tab
  lower := []
  ctx := c
  higher := []
  inbox := []
  epoch := 0

/-- After reset and the loads. -/
def unbuilt : State := single fixTab idleCtx

/-- After BOOT. -/
def idle : State := single builtTab idleCtx

/-- After BOOT and `BEGINP 7`. -/
def picture : State := single builtTab pictureCtx

/-- One step of the word `w` from `s` ends in a next state of which `p` holds. -/
def stepHas (s : State) (w : Nat) (p : State → Bool) : Bool :=
  match step (s.withFetchWord 64 w) with
  | .next t => p t
  | _ => false

/-- The bytes of `OUT` from address `a` on, up to `n` of them. -/
def bytes (s : State) (a n : Nat) : List Byte := (List.range n).map fun k => s.ctx.wr.out.read (a + k)

/-- `(BYTE_CURSOR, BIT_CURSOR)`. -/
def cursor (s : State) : Nat × Nat := (s.ctx.wr.byteCursor, s.ctx.wr.bitCursor.val)

/-- `(FAULT_CODE, FAULT_INFO)`. -/
def faultOf (s : State) : FaultCode × BitVec 32 := (s.ctx.faultCode, s.ctx.faultInfo)

/-! ### Ill-formed operands: one term per check, refused (30_encoding.md R92) -/

theorem test_illformed_cfg_multiple : (Instr.cfg 0 1000 1080).wellFormed (fixPar 64) = false := by decide
theorem test_illformed_cfg_width : (Instr.cfg 0 65504 16).wellFormed (fixPar 64) = false := by decide
theorem test_illformed_cfg_height : (Instr.cfg 0 16 65501).wellFormed (fixPar 64) = false := by decide
theorem test_illformed_cfg_format : (Instr.cfg 3 16 16).wellFormed (fixPar 64) = false := by decide
theorem test_illformed_lddcp_cat : (Instr.lddcp .luma 12 3 1).wellFormed (fixPar 64) = false := by decide
theorem test_illformed_ldace_idx : (Instr.ldace 123 0 1 3 1).wellFormed (fixPar 64) = false := by decide
theorem test_illformed_ldcoef_blk : (Instr.ldcoef 12 0 0).wellFormed (fixPar 64) = false := by decide
theorem test_illformed_ldlast_blk : (Instr.ldlast 12 0).wellFormed (fixPar 64) = false := by decide
theorem test_illformed_putb_zero : (Instr.putb 0 0).wellFormed (fixPar 64) = false := by decide
theorem test_illformed_putb_33 : (Instr.putb 33 0).wellFormed (fixPar 64) = false := by decide
theorem test_illformed_putb_value : (Instr.putb 3 8).wellFormed (fixPar 64) = false := by decide
theorem test_illformed_encblk : (Instr.encblk 12).wellFormed (fixPar 64) = false := by decide
theorem test_illformed_beginp_zero : (Instr.beginp 0).wellFormed (fixPar 64) = false := by decide
theorem test_illformed_beginp_51 : (Instr.beginp 51).wellFormed (fixPar 64) = false := by decide
theorem test_wellformed_largest_cfg : (Instr.cfg 2 65488 65500).wellFormed (fixPar 64) = true := by decide

/-! ### Words written out from the formats of 30_encoding.md R91 and R93, field by field, and their decoding -/

theorem test_decode_tinit : decode (0x01#8 ++ 0#56) = .ok .tinit := by decide

/-- `CFG 444, 65488, 65500`: bits 35..32, 31..16, 15..0. -/
theorem test_decode_cfg :
    decode (0b00000010#8 ++ 0#20 ++ 0b0010#4 ++ 0b1111111111010000#16 ++ 0b1111111111011100#16) =
      .ok (.cfg 2 65488 65500) := by decide

/-- `LDDCP chr, 11, 10, 1023`: bits 48, 43..40, 36..32, 15..0. -/
theorem test_decode_lddcp :
    decode (0b00000011#8 ++ 0#7 ++ 1#1 ++ 0#4 ++ 0b1011#4 ++ 0#3 ++ 0b01010#5 ++ 0#16 ++ 0b0000001111111111#16) =
      .ok (.lddcp .chroma 11 10 1023) := by decide

/-- `LDACE 120, 60, 1, 3, 1`: bits 54..48, 45..40, 38..32, 20..16, 15..0. -/
theorem test_decode_ldace :
    decode (0b00000100#8 ++ 0#1 ++ 0b1111000#7 ++ 0#2 ++ 0b111100#6 ++ 0#1 ++ 0b0000001#7 ++ 0#11 ++ 0b00011#5 ++
      0b0000000000000001#16) = .ok (.ldace 120 60 1 3 1) := by decide

/-- `LDSCAN 2, 8`: bits 37..32 and 5..0. -/
theorem test_decode_ldscan :
    decode (0b00000101#8 ++ 0#18 ++ 0b000010#6 ++ 0#26 ++ 0b001000#6) = .ok (.ldscan 2 8) := by decide

/-- `LDCOEF 0, 8, -3000`: bits 43..40, 37..32, 15..0 (F448 is -3000). -/
theorem test_decode_ldcoef :
    decode (0b00000110#8 ++ 0#12 ++ 0b0000#4 ++ 0#2 ++ 0b001000#6 ++ 0#16 ++ 0b1111010001001000#16) =
      .ok (.ldcoef 0 8 0xF448) ∧ sext16 0xF448 = -3000 := by decide

/-- `LDLAST 11, 63`: bits 43..40 and 5..0. -/
theorem test_decode_ldlast :
    decode (0b00000111#8 ++ 0#12 ++ 0b1011#4 ++ 0#34 ++ 0b111111#6) = .ok (.ldlast 11 63) := by decide

/-- `PUTB 32, 0xFFFFFFFF`: bits 37..32 and 31..0. -/
theorem test_decode_putb :
    decode (0b00010000#8 ++ 0#18 ++ 0b100000#6 ++ 0xFFFFFFFF#32) = .ok (.putb 32 0xFFFFFFFF) := by decide

theorem test_decode_flush : decode (0b00010001#8 ++ 0#56) = .ok .flush := by decide

/-- `ENCDC chr, -1`: bit 32 and bits 31..0. -/
theorem test_decode_encdc :
    decode (0b00100000#8 ++ 0#23 ++ 1#1 ++ 0xFFFFFFFF#32) = .ok (.encdc .chroma 0xFFFFFFFF) ∧
      sext32 0xFFFFFFFF = -1 := by decide

theorem test_decode_encblk : decode (0b00100001#8 ++ 0#52 ++ 0b1011#4) = .ok (.encblk 11) := by decide
theorem test_decode_encmb : decode (0b00100010#8 ++ 0#56) = .ok .encmb := by decide
theorem test_decode_beginp : decode (0b00110000#8 ++ 0#48 ++ 0b00110010#8) = .ok (.beginp 50) := by decide
theorem test_decode_endsl : decode (0b00110001#8 ++ 0#56) = .ok .endsl := by decide
theorem test_decode_endp : decode (0b00110010#8 ++ 0#56) = .ok .endp := by decide
theorem test_decode_abortp : decode (0b00110011#8 ++ 0#56) = .ok .abortp := by decide

/-- Words of section E that match no row, with the reason. -/
theorem test_decode_illegal :
    decode 0 = .error .unassignedOpcode ∧ decode 0xFFFFFFFFFFFFFFFF = .error .unassignedOpcode ∧
    decode 0x0800000000000000 = .error .unassignedOpcode ∧ decode 0x0100000000000001 = .error .reservedBitSet ∧
    decode 0x0200001000100010 = .error .reservedBitSet ∧ decode 0x2100000000000010 = .error .reservedBitSet ∧
    decode 0x3000000000000100 = .error .reservedBitSet ∧ decode 0x0600000000010000 = .error .reservedBitSet := by
  decide

/-- Section E, the words of `encode`. -/
theorem test_encode_words :
    encode (.cfg 1 1920 1080) = 0x0200000107800438 ∧ encode (.lddcp .luma 0 3 1) = 0x0300000300000001 ∧
    encode (.ldace 121 0 0 6 32) = 0x0479000000060020 ∧ encode (.ldcoef 11 63 0xFFFF) = 0x06000B3F0000FFFF ∧
    encode (.encdc .luma 300) = 0x200000000000012C := by decide

/-! ### One step of each command -/

/-- T4, first row: the fixture passes R143. -/
theorem test_tables_wellFormed : tablesWellFormed (fixPar 64) fixTab = true := by decide +kernel

/-- T1, T2, T3: entries the fixture builds. -/
theorem test_tinit_builds :
    exec .tinit unbuilt = .next (unbuilt.setTab builtTab) ∧ builtTab.uniAt .luma 251 = 0x00001D06 ∧
    builtTab.uniAt .chroma 510 = 0x00FF7F10 ∧ builtTab.maxLevelAt 60 = 1 ∧ builtTab.indexRunAt 61 = 121 ∧
    builtTab.uniAcLenAt 190 = 7 ∧ builtTab.uniAcLenAt 7746 = 24 := by
  refine ⟨?_, by decide +kernel⟩
  have h : tablesWellFormed unbuilt.par unbuilt.tab = true := test_tables_wellFormed
  simp only [exec, execTinit, show unbuilt.tab.ready = false from rfl, Bool.false_eq_true, if_false]
  rw [if_pos h]
  rfl

/-- T4: run 0 again after run 1. -/
theorem test_tinit_bad_table :
    stepHas (unbuilt.setTab { fixTab with aclist := Tbl.set fixTab.aclist 4 ⟨0, 1, 7, 29⟩ }) 0x0100000000000000
      (fun t => decide (faultOf t = (.badTable, 0x01000000)) && !t.tab.ready) = true := by decide +kernel

/-- F: `CFG 422, 1920, 1080`. -/
theorem test_cfg_latches :
    stepHas idle 0x0200000107800438 (fun t => decide (t.ctx.width = 1920) && decide (t.ctx.height = 1080) &&
      decide (t.ctx.chromaFormat = .yuv422) && t.ctx.cfgValid) = true := by decide +kernel

/-- F: `CFG 3, 1000, 16`, dimensions first. -/
theorem test_cfg_dimensions_first :
    stepHas idle 0x0200000303E80010 (fun t => decide (faultOf t = (.invalidDimensions, 0x02000000))) = true := by
  decide +kernel

theorem test_lddcp_stores :
    stepHas unbuilt 0x03010B0A000003FF (fun t => decide (t.tab.dcpfxAt .chroma 11 = ⟨10, 1023⟩)) = true := by
  decide +kernel

/-- T4: a load after `TINIT`. -/
theorem test_lddcp_after_tinit :
    stepHas idle 0x0300000300000001 (fun t => decide (faultOf t = (.contractViolation, 0x03000000))) = true := by
  decide +kernel

theorem test_ldace_stores :
    stepHas unbuilt 0x0479000000060020 (fun t => decide (t.tab.aceAt 121 = ⟨0, 0, 6, 32⟩)) = true := by
  decide +kernel

/-- R141: index 123 is out of range. -/
theorem test_ldace_index :
    stepHas unbuilt 0x047B000000000000 (fun t => decide (faultOf t = (.contractViolation, 0x04000000))) = true := by
  decide +kernel

theorem test_ldscan_stores :
    stepHas idle 0x0500003F00000005 (fun t => decide (t.ctx.scanAt 63 = 5)) = true := by decide +kernel

/-- R180: no scan load inside a picture. -/
theorem test_ldscan_in_picture :
    stepHas picture 0x0500000200000008 (fun t => decide (faultOf t = (.contractViolation, 0x05000000))) = true := by
  decide +kernel

theorem test_ldcoef_stores_signed :
    stepHas picture 0x060000080000F448 (fun t => decide (t.ctx.coefAt 0 8 = -3000)) = true := by decide +kernel

theorem test_ldcoef_block :
    stepHas picture 0x06000C0000000000 (fun t => decide (faultOf t = (.contractViolation, 0x06000000))) = true := by
  decide +kernel

theorem test_ldlast_stores :
    stepHas picture 0x07000B000000003F (fun t => decide (t.ctx.lastAt 11 = 63)) = true := by decide +kernel

theorem test_ldlast_block :
    stepHas picture 0x07000C0000000000 (fun t => decide (faultOf t = (.contractViolation, 0x07000000))) = true := by
  decide +kernel

/-- W6: an aligned 32-bit put is a little-endian word. -/
theorem test_putb_word :
    stepHas picture 0x10000020DEADBEEF (fun t => decide (bytes t 7 4 = [0xEF, 0xBE, 0xAD, 0xDE]) &&
      decide (cursor t = (11, 0))) = true := by decide +kernel

/-- W18's second put: 5 bits from (8, 4) with `OUT_CAP` = 9. -/
theorem test_putb_overflow :
    stepHas (single builtTab { pictureCtx with wr := ⟨⟨0, 0, headerCells ++ [(7, 0xBC), (8, 0x0A)]⟩, 8, 4⟩ } 9)
      0x100000050000001F (fun t => decide (faultOf t = (.outputOverflow, 0x10000000)) &&
        decide (bytes t 7 2 = [0xBC, 0x0A]) && decide (cursor t = (8, 4))) = true := by decide +kernel

/-- W8: the flush of three bits. -/
theorem test_flush_pads :
    stepHas (single builtTab { pictureCtx with wr := ⟨⟨0, 0, headerCells ++ [(7, 7)]⟩, 7, 3⟩ }) 0x1100000000000000
      (fun t => decide (cursor t = (8, 0)) && decide (bytes t 7 1 = [7])) = true := by decide +kernel

theorem test_flush_idle :
    stepHas idle 0x1100000000000000 (fun t => decide (faultOf t = (.contractViolation, 0x11000000))) = true := by
  decide +kernel

/-- D: `ENCDC chr, 5`, the fast path. -/
theorem test_encdc_fast :
    stepHas picture 0x2000000100000005 (fun t => decide (bytes t 7 1 = [0x2B]) && decide (cursor t = (7, 6))) =
      true := by decide +kernel

/-- D: `ENCDC lum, 256`, the slow path. -/
theorem test_encdc_slow :
    stepHas picture 0x2000000000000100 (fun t => decide (bytes t 7 3 = [0x7F, 0x00, 0x01]) &&
      decide (cursor t = (9, 1))) = true := by decide +kernel

/-- B11: DC, a table code, a signed table code, end of block. -/
theorem test_encblk_codes :
    stepHas (single builtTab (withBlock pictureCtx 10 [(0, 100), (2, 2), (3, -1)])) 0x2100000000000000
      (fun t => decide (bytes t 7 4 = [0xC7, 0xDB, 0x40, 0x1A]) && decide (cursor t = (10, 6)) &&
        decide (t.ctx.lastDcAt 0 = 100)) = true := by decide +kernel

/-- B9: level 2048 at scan position 2. -/
theorem test_encblk_level_range :
    stepHas (single builtTab (withBlock pictureCtx 2 [(0, 128), (8, 2048)])) 0x2100000000000000
      (fun t => decide (bytes t 7 1 = [0x01]) && decide (cursor t = (7, 3)) &&
        decide (faultOf t = (.internalInvariantViolated, 0x21008000))) = true := by decide +kernel

/-- M1: six blocks with DC 128; M3: outside a picture. -/
theorem test_encmb_420 :
    stepHas (single builtTab (withBlock pictureCtx 0
      [(0, 128), (64, 128), (128, 128), (192, 128), (256, 128), (320, 128)])) 0x2200000000000000
      (fun t => decide (bytes t 7 5 = [0xB1, 0x58, 0x2C, 0x86, 0x61]) && decide (cursor t = (12, 0))) = true ∧
    stepHas idle 0x2200000000000000 (fun t => decide (faultOf t = (.contractViolation, 0x22000000))) = true := by
  decide +kernel

/-- The macroblock of program P3, in the format given. -/
def macroblockState (f : ChromaFormat) : State :=
  single builtTab { withBlock pictureCtx 0
    [(0, 127), (64, 125), (128, 122), (192, 118), (256, 127), (320, 126), (384, 120), (448, 110), (512, 124),
     (576, 122), (640, 100), (704, 60)] with chromaFormat := f }

/-- P3 for 4:4:4 (S5); for 4:2:2 the rows of P3's table, blocks 6 and 7 following 5 (R200): chroma differences
7 and 16. -/
theorem test_encmb_422_444 :
    stepHas (macroblockState .yuv422) 0x2200000000000000
      (fun t => decide (bytes t 7 9 = [0x34, 0x35, 0xB7, 0xD2, 0x6C, 0x69, 0xBB, 0x3D, 0x68]) &&
        decide (cursor t = (16, 0))) = true ∧
    stepHas (macroblockState .yuv444) 0x2200000000000000
      (fun t => decide (bytes t 7 15 = [0x34, 0x35, 0xB7, 0xD2, 0x6C, 0x69, 0x6D, 0xA3, 0x8D, 0x76, 0x6C, 0x8F,
        0xDA, 0x27, 0x1B]) && decide (cursor t = (21, 6)) && decide (t.ctx.lastDcAt 1 = 100) &&
        decide (t.ctx.lastDcAt 2 = 60)) = true := by
  decide +kernel

/-- S6 and F: `BEGINP 7`. -/
theorem test_beginp_header :
    stepHas idle 0x3000000000000007 (fun t => decide (bytes t 0 7 = [0x56, 4, 0, 0, 0, 0, 0]) &&
      decide (cursor t = (7, 0)) && decide (t.ctx.sliceStart = 4) && decide (t.ctx.lastDcAt 2 = 128) &&
      t.ctx.inPicture) = true := by decide +kernel

theorem test_beginp_51 :
    stepHas idle 0x3000000000000033 (fun t => decide (faultOf t = (.contractViolation, 0x30000000)) &&
      decide (cursor t = (0, 0))) = true := by decide +kernel

/-- P1's `ENDSL`: payload of 5 bytes, length 8 at offset 4. -/
theorem test_endsl_back_patch :
    stepHas (single builtTab { pictureCtx with
        wr := ⟨⟨0, 0, headerCells ++ [(7, 0xB1), (8, 0x58), (9, 0x2C), (10, 0x86), (11, 0x61)]⟩, 12, 0⟩ })
      0x3100000000000000 (fun t => decide (bytes t 4 3 = [8, 0, 0]) && decide (bytes t 12 3 = [0, 0, 0]) &&
        decide (t.ctx.sliceStart = 12) && decide (cursor t = (15, 0))) = true := by decide +kernel

/-- F: `OUT_CAP` = 9, no room for the next placeholder. -/
theorem test_endsl_no_room :
    stepHas (single builtTab { pictureCtx with wr := ⟨⟨0, 0, headerCells ++ [(7, 0xBC), (8, 0x0A)]⟩, 8, 4⟩ } 9)
      0x3100000000000000 (fun t => decide (bytes t 4 3 = [5, 0, 0]) && decide (t.ctx.sliceStart = 9) &&
        decide (cursor t = (9, 0)) && decide (faultOf t = (.outputOverflow, 0x31000000))) = true := by
  decide +kernel

/-- F: `ENDP` right after `BEGINP`. -/
theorem test_endp_done :
    stepHas picture 0x3200000000000000 (fun t => decide (t.ctx.fsm = .done) && decide (cursor t = (7, 0))) =
      true := by decide +kernel

/-- F: `ENDP` with a bit pending. -/
theorem test_endp_open_slice :
    stepHas (single builtTab { pictureCtx with wr := ⟨⟨0, 0, headerCells ++ [(7, 1)]⟩, 7, 1⟩ }) 0x3200000000000000
      (fun t => decide (faultOf t = (.contractViolation, 0x32000000)) && t.ctx.inPicture) = true := by
  decide +kernel

/-- F: `ABORTP` inside a picture keeps the bytes. -/
theorem test_abortp :
    stepHas picture 0x3300000000000000 (fun t => decide (t.ctx.fsm = .idle) && decide (cursor t = (0, 0)) &&
      decide (t.ctx.sliceStart = 0) && decide (bytes t 0 2 = [0x56, 4])) = true := by decide +kernel

/-- X: a faulted context drops even `ABORTP` (R251). -/
theorem test_abortp_dropped :
    stepHas (picture.setCtx (pictureCtx.raise .outputOverflow (.plain 0x10))) 0x3300000000000000
      (fun t => t.ctx.inPicture && decide (faultOf t = (.outputOverflow, 0x10000000))) = true := by decide +kernel

/-! ### Illegal words, reset, the read port, the assembler -/

/-- X: the decoder comes before `require`. -/
theorem test_illegal_word :
    stepHas idle 0x2100000000000010 (fun t => decide (faultOf t = (.illegalCommand, 0x21000000))) = true := by
  decide +kernel

/-- A faulted context is out again after reset (R252, R280), and the tables are gone. -/
theorem test_reset_clears_fault :
    (match step { picture with ctx := pictureCtx.raise .badTable (.plain 1), inbox := [.reset] } with
      | .next t => decide (faultOf t = (.clear, 0)) && !t.tab.ready && decide (t.ctx.fsm = .idle)
      | _ => false) = true := by decide +kernel

/-- R31, R74: `STATUS` in a picture, `LAST_DC0`, a byte of `OUT`, an `ACLIST` entry, past the end. -/
theorem test_host_read :
    picture.hostRead 0 0 0 = some 13 ∧ picture.hostRead 0 0 5 = some 128 ∧ picture.hostRead 0 1 0 = some 0x56 ∧
    picture.hostRead 0 12 120 = some ((60 <<< 28) ||| (1 <<< 21) ||| (3 <<< 16) ||| 1) ∧
    picture.hostRead 0 12 123 = some 0 ∧ picture.hostRead 1 0 0 = none := by decide +kernel

/-- R96, R97: a line with names and a comment, a negative operand, a pseudo-command, an operand out of range. -/
theorem test_assembler :
    assembleLine "CFG 420, 1920, 1080 ; hd".toList = some [.cfg 0 1920 1080] ∧
    assembleLine "ENCDC chr, -1".toList = some [.encdc .chroma 0xFFFFFFFF] ∧
    assembleLine "ENDPIC".toList = some [.endsl, .endp] ∧ assembleLine "PUTB 64, 0".toList = none := by
  decide +kernel

/-- Every row's match word decodes to the row's command, through the host's entry point. -/
theorem test_table_words :
    (Opcode.all.all fun o => decide ((decodeTableWord 64 o.matchWord.toNat).map Instr.opcode = some o)) = true := by
  decide

/-! ### Witnesses: for each statement with hypotheses, a state and operands that meet them all -/

theorem builtTab_sound : builtTab.Sound (fixPar 64) := fun _ => ⟨test_tables_wellFormed, rfl⟩

theorem picture_writer_sound : pictureCtx.wr.Sound 64 where
  canonical := by decide
  inside := by decide
  cursorMax := by decide
  openByte := fun h => absurd rfl h

theorem pictureCtx_sound : pictureCtx.Sound (fixPar 64) builtTab where
  writer := picture_writer_sound
  dimensions := by decide
  qscaleMax := by decide
  sliceStartMax := by decide
  begun := fun _ => ⟨rfl, rfl, by decide⟩
  openField := fun _ _ => by decide
  header := fun _ _ => by decide
  chain := fun _ _ => .here 4
  finished := fun h => nomatch h
  faultInfoClear := fun _ => rfl

theorem doneCtx_sound : doneCtx.Sound (fixPar 64) builtTab where
  writer := ⟨by decide, by decide, by decide, fun h => absurd rfl h⟩
  dimensions := by decide
  qscaleMax := by decide
  sliceStartMax := by decide
  begun := fun _ => ⟨rfl, rfl, by decide⟩
  openField := fun _ _ => by decide
  header := fun _ _ => by decide
  chain := fun _ _ => .field 4 8 (by decide) (.here 8)
  finished := fun _ _ => by decide
  faultInfoClear := fun _ => rfl

theorem legal64 : (fixPar 64).Legal := by decide

/-- Two contexts, the second inside a picture, with a word on its port. -/
def pair (inbox : List Input) : State :=
  { picture with ctx := idleCtx, higher := [pictureCtx], inbox := inbox }

theorem witness_EncodeOfDecodeIsIdentity : decode 0x0300000300000001 = .ok (.lddcp .luma 0 3 1) := by decide

theorem witness_MatchingRowIsUniqueAndDecodes :
    0x0500003F0000003F#64 &&& Opcode.mask .ldscan = Opcode.matchWord .ldscan := by decide

/-- Clause by clause: a faulted context, a word of no row, a word that decodes. -/
theorem witness_StepRunsPrologueThenDecodedCommand :
    (({ picture with ctx := pictureCtx.raise .badTable (.plain 1) } : State).focus 0 =
        some { picture with ctx := pictureCtx.raise .badTable (.plain 1) } ∧
      (pictureCtx.raise .badTable (.plain 1)).faulted = true) ∧
    (picture.focus 0 = some picture ∧ picture.ctx.faulted = false ∧
      (∀ o : Opcode, 0x2100000000000010#64 &&& o.mask ≠ o.matchWord) ∧
      decode 0x1100000000000000 = .ok .flush) := by
  refine ⟨⟨rfl, rfl⟩, rfl, rfl, ?_, by decide⟩
  intro o
  cases o <;> decide

/-- Context 1 of two exists, context 2 does not. -/
theorem witness_ServingAPortOnlySelectsItsContext :
    1 < (pair []).contexts.length ∧
    (pair []).focus 1 = some { picture with lower := [idleCtx], ctx := pictureCtx } ∧
    (pair [.command 2 0]).contexts.length ≤ 2 := ⟨by decide, rfl, by decide⟩

theorem witness_NothingPresentedChangesNothing : picture.inbox = [] := rfl

/-- A command for a faulted context; a reset. -/
theorem witness_FaultIsFinalUntilReset :
    (Input.reset ∉ [Input.command 0 0x3300000000000000] ∧
      (pictureCtx.raise .badTable (.plain 1)).faulted = true ∧
      ∃ t, runSteps 1 { picture with
        ctx := pictureCtx.raise .badTable (.plain 1), inbox := [.command 0 0x3300000000000000] } = .next t) ∧
    ({ picture with inbox := [.reset] } : State).inbox = .reset :: [] := ⟨⟨by decide, rfl, _, rfl⟩, rfl⟩

theorem witness_ResetClearsEveryRegister : ({ picture with inbox := [.reset] } : State).inbox = .reset :: [] := rfl

theorem picture_sound (inbox : List Input) : ({ picture with inbox := inbox } : State).Sound where
  params := legal64
  tables := builtTab_sound
  contexts := fun c hc => by
    have : c = pictureCtx := by simpa [State.contexts, picture, single] using hc
    rw [this]; exact pictureCtx_sound

theorem witness_EveryStepKeepsSoundness :
    ({ picture with inbox := [.command 0 0x10000020DEADBEEF] } : State).Sound ∧
      ∃ t, step { picture with inbox := [.command 0 0x10000020DEADBEEF] } = .next t := ⟨picture_sound _, _, rfl⟩

theorem witness_CommandLeavesOtherContextsAlone :
    (pair [.command 1 0x10000020DEADBEEF]).inbox = .command 1 0x10000020DEADBEEF :: [] ∧ 0 ≠ 1 ∧
      ∃ t, step (pair [.command 1 0x10000020DEADBEEF]) = .next t := ⟨rfl, by decide, _, rfl⟩

/-- The same context with its one command, once after a command of another context, once alone. -/
theorem witness_ContextDependsOnlyOnItsOwnCommands :
    let s := pair [.command 1 0x1100000000000000, .command 0 0x0500003F00000005]
    let u := { idle with inbox := [.command 0 0x0500003F00000005] }
    s.par = u.par ∧ s.tab = u.tab ∧ s.tab.ready = true ∧ s.contexts[0]? = u.contexts[0]? ∧
      Input.reset ∉ s.inbox ∧ Input.reset ∉ u.inbox ∧ wordsFor 0 s.inbox = wordsFor 0 u.inbox ∧
      (∃ t, runSteps s.inbox.length s = .next t) ∧ ∃ t, runSteps u.inbox.length u = .next t :=
  ⟨rfl, rfl, rfl, rfl, by decide, by decide, rfl, ⟨_, rfl⟩, _, rfl⟩

/-- The last category there is. -/
theorem witness_LddcpStoresOneEntry : unbuilt.tab.ready = false ∧ (11#4).toNat < unbuilt.par.dcNcat := by decide

theorem witness_LdaceStoresOneEntry : unbuilt.tab.ready = false ∧ (122#7).toNat ≤ 122 := by decide

theorem witness_TinitBuildsDcTablesAndCodes :
    unbuilt.par.Legal ∧ unbuilt.tab.ready = false ∧ tablesWellFormed unbuilt.par unbuilt.tab = true :=
  ⟨legal64, rfl, test_tables_wellFormed⟩

/-- Run 61 has no entry; entry 119 is run 59, level 2; the highest run, 63, and level 2 of run 59. -/
theorem witness_TinitRunTablesFindTheListEntry :
    unbuilt.tab.ready = false ∧ tablesWellFormed unbuilt.par unbuilt.tab = true ∧
      exec .tinit unbuilt = .next (unbuilt.setTab builtTab) ∧
      (∀ i, i < 121 → (unbuilt.tab.aceAt i).run.toNat ≠ 63) ∧ (unbuilt.tab.aceAt 119).run.toNat = 59 ∧
      2 ≤ builtTab.maxLevelAt 59 :=
  ⟨rfl, test_tables_wellFormed, test_tinit_builds.1, by decide +kernel, by decide +kernel, by decide +kernel⟩

theorem witness_TinitLengthTableCountsWireBits :
    unbuilt.tab.ready = false ∧ tablesWellFormed unbuilt.par unbuilt.tab = true ∧
      exec .tinit unbuilt = .next (unbuilt.setTab builtTab) ∧ 63 < 64 ∧ (-64 : Int) ≤ -64 :=
  ⟨rfl, test_tables_wellFormed, test_tinit_builds.1, by decide, by decide⟩

/-- Inputs that pass, and one breach of each of the four conditions of R143: a length of 17, a level of 0, a run
opened a second time, an end-of-block of 5 bits. -/
theorem witness_TinitRejectsBadTables :
    unbuilt.tab.ready = false ∧ tablesWellFormed unbuilt.par unbuilt.tab = true ∧
    let bad (tab : TableUnit) : Bool := !(unbuilt.setTab tab).tab.ready && !tablesWellFormed (fixPar 64) tab
    bad { fixTab with dcpfx := Tbl.set fixTab.dcpfx 0 ⟨17, 1⟩ } = true ∧
      bad { fixTab with aclist := Tbl.set fixTab.aclist 120 ⟨60, 0, 3, 1⟩ } = true ∧
      bad { fixTab with aclist := Tbl.set fixTab.aclist 120 ⟨0, 1, 3, 1⟩ } = true ∧
      bad { fixTab with aclist := Tbl.set fixTab.aclist 122 ⟨0, 0, 5, 6⟩ } = true :=
  ⟨rfl, test_tables_wellFormed, by decide +kernel⟩

theorem witness_BuiltTablesNeverChange : picture.tab.ready = true ∧ ∃ t, exec .flush picture = .next t :=
  ⟨rfl, _, rfl⟩

/-- Two instances that differ in their contexts. -/
theorem witness_SameInputsBuildTheSameTables :
    let u := unbuilt.setCtx pictureCtx
    unbuilt.tab.ready = false ∧ u.tab.ready = false ∧ unbuilt.tab.dcpfx = u.tab.dcpfx ∧
      unbuilt.tab.aclist = u.tab.aclist ∧ unbuilt.par.dcNcat = u.par.dcNcat ∧
      tablesWellFormed unbuilt.par unbuilt.tab = true ∧ (∃ t, exec .tinit unbuilt = .next t) ∧
      ∃ t, exec .tinit u = .next t :=
  ⟨rfl, rfl, rfl, rfl, rfl, test_tables_wellFormed, ⟨_, rfl⟩, _, rfl⟩

/-- A positive and a negative difference, at the ends of category 8. -/
theorem witness_DcCategoryAndTail :
    dcCategory 128 = 8 ∧ dcCategory (-255) = 8 ∧ (0 : Int) ≤ 128 ∧ (-255 : Int) < 0 := by decide

theorem witness_DcFastPathAgreesWithSlowPath :
    (fixPar 64).Legal ∧ builtTab.ready = true ∧ builtTab.Sound (fixPar 64) := ⟨legal64, rfl, builtTab_sound⟩

theorem witness_DcLengthsSymmetricAndMonotone :
    (fixPar 64).Legal ∧ builtTab.ready = true ∧ builtTab.Sound (fixPar 64) := ⟨legal64, rfl, builtTab_sound⟩

/-- The slow path's largest difference. -/
theorem witness_EncdcAppendsTheDcCode :
    picture.ctx.fsm = .inPicture ∧ picture.par.Legal ∧ picture.tab.ready = true ∧
      picture.tab.Sound picture.par ∧ picture.ctx.wr.Sound picture.par.outCap ∧
      dcCategory (2047#32).toInt < picture.par.dcNcat ∧
      picture.ctx.wr.bitPos + (wireDc picture.tab .chroma (2047#32).toInt).length ≤ 8 * picture.par.outCap :=
  ⟨rfl, legal64, rfl, builtTab_sound, picture_writer_sound, by decide +kernel, by decide +kernel⟩

/-- A category with no prefix, and (`OUT_CAP` = 7, full) a code that does not fit. -/
theorem witness_EncdcRaisesAndAppendsNothing :
    (picture.ctx.fsm = .inPicture ∧ picture.tab.ready = true ∧ picture.par.Legal ∧
      picture.par.dcNcat ≤ dcCategory (2048#32).toInt) ∧
    let s := single builtTab pictureCtx 7
    s.ctx.fsm = .inPicture ∧ s.tab.ready = true ∧ s.par.Legal ∧ s.tab.Sound s.par ∧
      dcCategory (2047#32).toInt < s.par.dcNcat ∧
      8 * s.par.outCap < s.ctx.wr.bitPos + (wireDc s.tab .luma (2047#32).toInt).length :=
  ⟨⟨rfl, rfl, legal64, by decide +kernel⟩, rfl, rfl, by decide, builtTab_sound, by decide +kernel,
    by decide +kernel⟩

theorem witness_LdscanStoresOneEntry : idle.ctx.fsm = .idle ∨ idle.ctx.fsm = .done := .inl rfl

theorem witness_LdcoefStoresOneCoefficient : (11#4).toNat ≤ 11 := by decide

theorem witness_LdlastStoresOneIndex : (11#4).toNat ≤ 11 := by decide

/-- Block B4 of section B: a DC code, an escape, end of block. -/
def blockState : State := single builtTab (withBlock pictureCtx 2 [(0, 128), (8, -1000)])

theorem blockState_levels (k : Nat) (h1 : 1 ≤ k) (h2 : k ≤ 2) :
    LevelOk (blockState.ctx.coefAt 0 (blockState.ctx.scanAt k)) := by
  have hk : k = 1 ∨ k = 2 := by omega
  unfold LevelOk
  rcases hk with rfl | rfl <;> decide +kernel

theorem blockState_last : blockState.ctx.lastAt 0 = 2 := by decide +kernel

theorem blockState_fits : BlockFits blockState.par blockState.ctx 0 (blockState.ctx.lastDcAt (component 0)) where
  dc := by decide +kernel
  ac := fun k h1 h2 => blockState_levels k h1 (by rw [blockState_last] at h2; exact h2)

theorem witness_EncblkEmitsTheWireFormat :
    blockState.ctx.fsm = .inPicture ∧ (0#4).toNat ≤ 11 ∧ blockState.par.Legal ∧ blockState.tab.ready = true ∧
      blockState.tab.Sound blockState.par ∧ blockState.ctx.wr.Sound blockState.par.outCap ∧
      BlockFits blockState.par blockState.ctx (0#4).toNat (blockState.ctx.lastDcAt (component (0#4).toNat)) ∧
      blockState.ctx.wr.bitPos + (wireBlock blockState.tab blockState.ctx (0#4).toNat
        (blockState.ctx.lastDcAt (component (0#4).toNat))).length ≤ 8 * blockState.par.outCap :=
  ⟨rfl, by decide, legal64, rfl, builtTab_sound, picture_writer_sound, blockState_fits, by decide +kernel⟩

/-- Block B9: level 2048 at scan position 2. -/
def badBlockState : State := single builtTab (withBlock pictureCtx 2 [(0, 128), (8, 2048)])

theorem witness_EncblkLevelOutOfRangeAborts :
    badBlockState.ctx.fsm = .inPicture ∧ badBlockState.par.Legal ∧ badBlockState.tab.ready = true ∧
      badBlockState.tab.Sound badBlockState.par ∧ badBlockState.ctx.wr.Sound badBlockState.par.outCap ∧
      dcCategory (badBlockState.ctx.lastDcAt (component 0) - badBlockState.ctx.coefAt 0 0) <
        badBlockState.par.dcNcat ∧
      1 ≤ 2 ∧ 2 ≤ badBlockState.ctx.lastAt 0 ∧
      (∀ k, 1 ≤ k → k < 2 → LevelOk (badBlockState.ctx.coefAt 0 (badBlockState.ctx.scanAt k))) ∧
      ¬LevelOk (badBlockState.ctx.coefAt 0 (badBlockState.ctx.scanAt 2)) ∧
      badBlockState.ctx.wr.bitPos + (wireDc badBlockState.tab (blockClass 0)
          (badBlockState.ctx.lastDcAt (component 0) - badBlockState.ctx.coefAt 0 0) ++
        ((runLevels 0 ((List.range' 1 (2 - 1)).map fun k =>
          badBlockState.ctx.coefAt 0 (badBlockState.ctx.scanAt k))).map fun p =>
            wireAc badBlockState.tab p.1 p.2).flatten).length ≤ 8 * badBlockState.par.outCap := by
  refine ⟨rfl, legal64, rfl, builtTab_sound, picture_writer_sound, by decide +kernel, by decide,
    by decide +kernel, ?_, ?_, by decide +kernel⟩
  · intro k h1 h2
    obtain rfl : k = 1 := by omega
    unfold LevelOk
    decide +kernel
  · unfold LevelOk
    decide +kernel

/-- A block with a DC code of 6 bits, an escape at scan position 2 and the end of block, 34 bits, and room for
the header and `room` bytes. -/
def tightBlock (room : Nat) : State :=
  single builtTab (withBlock pictureCtx 2 [(0, 124), (8, -1000)]) (7 + room)

theorem tightBlock_levels (room k : Nat) (h1 : 1 ≤ k) (h2 : k ≤ 2) :
    LevelOk ((tightBlock room).ctx.coefAt 0 ((tightBlock room).ctx.scanAt k)) := by
  have h : ∀ k, k < 3 → LevelOk ((tightBlock 0).ctx.coefAt 0 ((tightBlock 0).ctx.scanAt k)) := by
    unfold LevelOk; decide +kernel
  exact h k (by omega)

theorem tightBlock_writer (room : Nat) : (tightBlock room).ctx.wr.Sound (tightBlock room).par.outCap where
  canonical := picture_writer_sound.canonical
  inside p hp := by
    have h : ∀ p ∈ (tightBlock 0).ctx.wr.out.cells, p.1 < 7 := by decide +kernel
    exact Nat.lt_of_lt_of_le (h p hp) (Nat.le_add_right 7 room)
  cursorMax := Nat.le_add_right 7 room
  openByte h := absurd rfl h

/-- In 0, 1, 2, 3 and 4 bytes the append that does not fit is the DC code, each field of the escape, and the
end-of-block. -/
theorem witness_EncblkOverflowKeepsEarlierCodes :
    ∀ p ∈ [(0, 0, 0), (1, 1, 2), (2, 2, 2), (3, 3, 2), (4, 4, 0)],
      let s := tightBlock p.1
      let appends := blockAppends s.tab s.ctx (0#4).toNat (s.ctx.lastDcAt (component (0#4).toNat))
      s.ctx.fsm = .inPicture ∧ s.par.Legal ∧ s.tab.ready = true ∧ s.tab.Sound s.par ∧
        s.ctx.wr.Sound s.par.outCap ∧
        dcCategory (s.ctx.lastDcAt (component 0) - s.ctx.coefAt 0 0) < s.par.dcNcat ∧
        (∀ q ∈ appends.take (p.2.1 + 1), 1 ≤ q.1 → LevelOk (s.ctx.coefAt 0 (s.ctx.scanAt q.1))) ∧
        ∃ bits, appends[p.2.1]? = some (p.2.2, bits) ∧
          s.ctx.wr.bitPos + ((appends.take p.2.1).map Prod.snd).flatten.length ≤ 8 * s.par.outCap ∧
          8 * s.par.outCap <
            s.ctx.wr.bitPos + ((appends.take p.2.1).map Prod.snd).flatten.length + bits.length := by
  have key : ∀ (room m pos : Nat) (bits : List Bool),
      (let s := tightBlock room
       let appends := blockAppends s.tab s.ctx 0 (s.ctx.lastDcAt 0)
       s.par.Legal ∧ appends[m]? = some (pos, bits) ∧ (∀ q ∈ appends.take (m + 1), q.1 ≤ 2) ∧
         s.ctx.wr.bitPos + ((appends.take m).map Prod.snd).flatten.length ≤ 8 * s.par.outCap ∧
         8 * s.par.outCap < s.ctx.wr.bitPos + ((appends.take m).map Prod.snd).flatten.length + bits.length) →
      let s := tightBlock room
      let appends := blockAppends s.tab s.ctx 0 (s.ctx.lastDcAt 0)
      s.ctx.fsm = .inPicture ∧ s.par.Legal ∧ s.tab.ready = true ∧ s.tab.Sound s.par ∧
        s.ctx.wr.Sound s.par.outCap ∧ dcCategory (s.ctx.lastDcAt 0 - s.ctx.coefAt 0 0) < s.par.dcNcat ∧
        (∀ q ∈ appends.take (m + 1), 1 ≤ q.1 → LevelOk (s.ctx.coefAt 0 (s.ctx.scanAt q.1))) ∧
        ∃ bits, appends[m]? = some (pos, bits) ∧
          s.ctx.wr.bitPos + ((appends.take m).map Prod.snd).flatten.length ≤ 8 * s.par.outCap ∧
          8 * s.par.outCap < s.ctx.wr.bitPos + ((appends.take m).map Prod.snd).flatten.length + bits.length := by
    intro room m pos bits ⟨h1, h2, h3, h4, h5⟩
    have hd : dcCategory ((tightBlock 0).ctx.lastDcAt 0 - (tightBlock 0).ctx.coefAt 0 0) < 12 := by decide +kernel
    exact ⟨rfl, h1, rfl, builtTab_sound, tightBlock_writer room, hd,
      fun q hq h => tightBlock_levels room q.1 h (h3 q hq), bits, h2, h4, h5⟩
  intro p hp
  simp only [List.mem_cons, List.not_mem_nil, or_false] at hp
  rcases hp with rfl | rfl | rfl | rfl | rfl
  · exact key 0 0 0 (bitsOf 3 5 ++ bitsOf 3 4) (by decide +kernel)
  · exact key 1 1 2 (bitsOf 6 32) (by decide +kernel)
  · exact key 2 2 2 (bitsOf 6 1) (by decide +kernel)
  · exact key 3 3 2 (bitsOf 12 1048) (by decide +kernel)
  · exact key 4 4 0 (bitsOf 4 6) (by decide +kernel)

/-- Block B15. -/
theorem witness_EncblkDcWithoutPrefixAborts :
    let s := single builtTab (withBlock pictureCtx 0 [(0, -2000)])
    s.ctx.fsm = .inPicture ∧ (0#4).toNat ≤ 11 ∧ s.par.Legal ∧ s.tab.ready = true ∧
      s.par.dcNcat ≤ dcCategory (s.ctx.lastDcAt (component 0) - s.ctx.coefAt 0 0) :=
  ⟨rfl, by decide, legal64, rfl, by decide +kernel⟩

/-- Two states that differ in a coefficient the block does not reach. -/
theorem witness_EncblkReadsOnlyItsOwnEntries :
    let u := single builtTab (withBlock pictureCtx 2 [(0, 128), (8, -1000), (63, 7)])
    u = blockState.setCtx { blockState.ctx with coef := u.ctx.coef, last := u.ctx.last, scan := u.ctx.scan } ∧
      u.ctx.coefAt 0 0 = blockState.ctx.coefAt 0 0 ∧ u.ctx.lastAt 0 = blockState.ctx.lastAt 0 ∧
      (∀ i, 1 ≤ i → i ≤ blockState.ctx.lastAt 0 →
        u.ctx.coefAt 0 (u.ctx.scanAt i) = blockState.ctx.coefAt 0 (blockState.ctx.scanAt i)) ∧
      (∃ t, exec (.encblk 0) blockState = .next t) ∧ ∃ t, exec (.encblk 0) u = .next t := by
  refine ⟨rfl, by decide +kernel, by decide +kernel, ?_, ⟨_, rfl⟩, _, rfl⟩
  intro i h1 h2
  rw [blockState_last] at h2
  have hi : i = 1 ∨ i = 2 := by omega
  rcases hi with rfl | rfl <;> decide +kernel

/-- B11 and B12 the other way round: positions 3 to 10 hold zeros. -/
theorem witness_LargerLastIndexChangesNothing :
    (0#4).toNat ≤ 11 ∧ blockState.ctx.lastAt 0 ≤ (10#6).toNat ∧
      (∀ k, blockState.ctx.lastAt 0 < k → k ≤ (10#6).toNat →
        blockState.ctx.coefAt 0 (blockState.ctx.scanAt k) = 0) ∧
      (∃ t, exec (.encblk 0) blockState = .next t) ∧
      ∃ t, exec (.encblk 0) (blockState.setCtx
        { blockState.ctx with last := Tbl.set blockState.ctx.last 0 10#6 }) = .next t := by
  refine ⟨by decide, by rw [blockState_last]; decide, ?_, ⟨_, rfl⟩, _, rfl⟩
  intro k h1 h2
  rw [blockState_last] at h1
  have h3 : k ≤ 10 := h2
  interval_cases k <;> decide +kernel

theorem macroblock_levels (f : ChromaFormat) (n : Nat) (hn : n < 12) (k : Nat) (h1 : 1 ≤ k)
    (h2 : k ≤ (macroblockState f).ctx.lastAt n) :
    LevelOk ((macroblockState f).ctx.coefAt n ((macroblockState f).ctx.scanAt k)) := by
  have hl : ∀ n, n < 12 → (macroblockState .yuv420).ctx.lastAt n = 0 := by decide +kernel
  have : (macroblockState f).ctx.lastAt n = 0 := hl n hn
  omega

theorem macroblock_fits_444 :
    BlocksFit (fixPar 64) (macroblockState .yuv444).ctx [0, 1, 2, 3, 4, 5, 8, 9, 6, 7, 10, 11]
      (macroblockState .yuv444).ctx.lastDc := by
  refine ⟨⟨?_, macroblock_levels _ _ ?_⟩, ⟨?_, macroblock_levels _ _ ?_⟩, ⟨?_, macroblock_levels _ _ ?_⟩,
    ⟨?_, macroblock_levels _ _ ?_⟩, ⟨?_, macroblock_levels _ _ ?_⟩, ⟨?_, macroblock_levels _ _ ?_⟩,
    ⟨?_, macroblock_levels _ _ ?_⟩, ⟨?_, macroblock_levels _ _ ?_⟩, ⟨?_, macroblock_levels _ _ ?_⟩,
    ⟨?_, macroblock_levels _ _ ?_⟩, ⟨?_, macroblock_levels _ _ ?_⟩, ⟨?_, macroblock_levels _ _ ?_⟩, trivial⟩ <;>
  decide +kernel

theorem macroblock_fits_422 :
    BlocksFit (fixPar 64) (macroblockState .yuv422).ctx [0, 1, 2, 3, 4, 5, 6, 7]
      (macroblockState .yuv422).ctx.lastDc := by
  refine ⟨⟨?_, macroblock_levels _ _ ?_⟩, ⟨?_, macroblock_levels _ _ ?_⟩, ⟨?_, macroblock_levels _ _ ?_⟩,
    ⟨?_, macroblock_levels _ _ ?_⟩, ⟨?_, macroblock_levels _ _ ?_⟩, ⟨?_, macroblock_levels _ _ ?_⟩,
    ⟨?_, macroblock_levels _ _ ?_⟩, ⟨?_, macroblock_levels _ _ ?_⟩, trivial⟩ <;>
  decide +kernel

theorem macroblock_fits_420 :
    BlocksFit (fixPar 64) (macroblockState .yuv420).ctx [0, 1, 2, 3, 4, 5]
      (macroblockState .yuv420).ctx.lastDc := by
  refine ⟨⟨?_, macroblock_levels _ _ ?_⟩, ⟨?_, macroblock_levels _ _ ?_⟩, ⟨?_, macroblock_levels _ _ ?_⟩,
    ⟨?_, macroblock_levels _ _ ?_⟩, ⟨?_, macroblock_levels _ _ ?_⟩, ⟨?_, macroblock_levels _ _ ?_⟩, trivial⟩ <;>
  decide +kernel

/-- Each of the three orders is met by a macroblock of its format. -/
theorem witness_EncmbEmitsBlocksInWireOrder :
    (∀ f, (macroblockState f).ctx.chromaFormat = f ∧ (macroblockState f).ctx.fsm = .inPicture ∧
      (macroblockState f).par.Legal ∧ (macroblockState f).tab.ready = true ∧
      (macroblockState f).tab.Sound (macroblockState f).par ∧
      (macroblockState f).ctx.wr.Sound (macroblockState f).par.outCap) ∧
    ∀ p ∈ [(ChromaFormat.yuv420, [0, 1, 2, 3, 4, 5]), (.yuv422, [0, 1, 2, 3, 4, 5, 6, 7]),
        (.yuv444, [0, 1, 2, 3, 4, 5, 8, 9, 6, 7, 10, 11])],
      BlocksFit (fixPar 64) (macroblockState p.1).ctx p.2 (macroblockState p.1).ctx.lastDc ∧
        (macroblockState p.1).ctx.wr.bitPos + (wireBlocks (macroblockState p.1).tab (macroblockState p.1).ctx p.2
          (macroblockState p.1).ctx.lastDc).length ≤ 8 * (macroblockState p.1).par.outCap := by
  refine ⟨fun f => ⟨rfl, rfl, legal64, rfl, builtTab_sound, picture_writer_sound⟩, ?_⟩
  intro p hp
  simp only [List.mem_cons, List.not_mem_nil, or_false] at hp
  rcases hp with rfl | rfl | rfl
  · exact ⟨macroblock_fits_420, by decide +kernel⟩
  · exact ⟨macroblock_fits_422, by decide +kernel⟩
  · exact ⟨macroblock_fits_444, by decide +kernel⟩

theorem witness_EncmbEqualsEncblkSequence (f : ChromaFormat) :
    (macroblockState f).ctx.chromaFormat = f ∧ (macroblockState f).ctx.fsm = .inPicture ∧
      (macroblockState f).tab.ready = true ∧ (macroblockState f).ctx.faulted = false := ⟨rfl, rfl, rfl, rfl⟩

/-- The largest accepted values. -/
theorem witness_CfgLatchesValidParameters :
    (idle.ctx.fsm = .idle ∨ idle.ctx.fsm = .done) ∧ (65488#16).toNat % 16 = 0 ∧ (65488#16).toNat ≤ 65500 ∧
      (65500#16).toNat ≤ 65500 ∧ (2#4).toNat ≤ 2 := ⟨.inl rfl, by decide, by decide, by decide, by decide⟩

/-- Each way the dimensions fail, at its boundary, and a format that fails alone. -/
theorem witness_CfgRejectsDimensionsThenFormat :
    (idle.ctx.fsm = .idle ∨ idle.ctx.fsm = .done) ∧ (1000#16).toNat % 16 ≠ 0 ∧ 65500 < (65504#16).toNat ∧
      65500 < (65501#16).toNat ∧
      ((16#16).toNat % 16 = 0 ∧ (16#16).toNat ≤ 65500 ∧ 2 < (3#4).toNat) :=
  ⟨.inl rfl, by decide, by decide, by decide, by decide⟩

theorem witness_BeginpWritesTheHeader :
    (idle.ctx.fsm = .idle ∨ idle.ctx.fsm = .done) ∧ idle.par.Legal ∧ idle.tab.ready = true ∧
      idle.ctx.cfgValid = true ∧ 1 ≤ (50#8).toNat ∧ (50#8).toNat ≤ 50 :=
  ⟨.inl rfl, legal64, rfl, rfl, by decide, by decide⟩

theorem witness_EndslClosesTheSlice :
    picture.ctx.fsm = .inPicture ∧ picture.ctx.wr.Sound picture.par.outCap ∧
      picture.ctx.sliceStart + 3 ≤ picture.ctx.wr.byteCursor ∧ 7 = (picture.ctx.wr.bitPos + 7) / 8 ∧
      7 - picture.ctx.sliceStart < 2 ^ 24 ∧ 7 + 3 ≤ picture.par.outCap :=
  ⟨rfl, picture_writer_sound, by decide, by decide, by decide, by decide⟩

/-- The least length that is too long. -/
theorem witness_EndslTooLongRaises :
    let s := picture.setCtx { pictureCtx with wr := ⟨⟨0, 0, headerCells⟩, 2 ^ 24 + 4, 0⟩ }
    s.ctx.fsm = .inPicture ∧ 2 ^ 24 + 4 = (s.ctx.wr.bitPos + 7) / 8 ∧ 2 ^ 24 ≤ 2 ^ 24 + 4 - s.ctx.sliceStart := by
  decide

/-- F: `OUT_CAP` = 9, cursor (8, 4). -/
theorem witness_EndslWithoutRoomRaises :
    let s := single builtTab { pictureCtx with wr := ⟨⟨0, 0, headerCells⟩, 8, 4⟩ } 9
    s.ctx.fsm = .inPicture ∧ 9 = (s.ctx.wr.bitPos + 7) / 8 ∧ 9 - s.ctx.sliceStart < 2 ^ 24 ∧
      s.par.outCap < 9 + 3 := by decide

theorem witness_EndpFinishesThePicture :
    picture.ctx.fsm = .inPicture ∧ picture.ctx.wr.bitCursor = 0 ∧
      picture.ctx.wr.byteCursor = picture.ctx.sliceStart + 3 := by decide

theorem witness_FlushAlignsAndIsIdempotent :
    picture.ctx.fsm = .inPicture ∧ picture.ctx.wr.Sound picture.par.outCap ∧ picture.ctx.wr.bitCursor = 0 :=
  ⟨rfl, picture_writer_sound, rfl⟩

theorem witness_PutbAppendsBitsLowestFirst :
    picture.ctx.fsm = .inPicture ∧ picture.ctx.wr.Sound picture.par.outCap ∧ 1 ≤ (32#6).toNat ∧
      (32#6).toNat ≤ 32 ∧ (0xFFFFFFFF#32).toNat < 2 ^ (32#6).toNat ∧
      picture.ctx.wr.bitPos + (32#6).toNat ≤ 8 * picture.par.outCap :=
  ⟨rfl, picture_writer_sound, by decide, by decide, by decide, by decide⟩

/-- `OUT_CAP` = 7: the picture header fills it, one bit more does not fit. -/
theorem witness_PutbPastCapacityWritesNothing :
    let s := single builtTab pictureCtx 7
    s.ctx.fsm = .inPicture ∧ 1 ≤ (1#6).toNat ∧ (1#6).toNat ≤ 32 ∧ (1#32).toNat < 2 ^ (1#6).toNat ∧
      8 * s.par.outCap < s.ctx.wr.bitPos + (1#6).toNat := by decide

/-- W11's puts; with `OUT_CAP` = 64 they fit, with 9 the second does not, with 7 neither does. -/
theorem witness_TwoPutsEqualTheJoinedPut :
    picture.ctx.fsm = .inPicture ∧ picture.ctx.faulted = false ∧ picture.ctx.wr.Sound picture.par.outCap ∧
      1 ≤ (16#6).toNat ∧ (16#6).toNat + (16#6).toNat ≤ 32 ∧ (0x1234#32).toNat < 2 ^ (16#6).toNat ∧
      picture.ctx.wr.bitPos + 16 + 16 ≤ 8 * 64 ∧
      (8 * 9 < picture.ctx.wr.bitPos + 16 + 16 ∧ picture.ctx.wr.bitPos + 16 ≤ 8 * 9 ∧
        pictureCtx.wr.Sound 9) ∧
      (8 * 7 < picture.ctx.wr.bitPos + 16 ∧ pictureCtx.wr.Sound 7) :=
  ⟨rfl, rfl, picture_writer_sound, by decide, by decide, by decide, by decide,
    ⟨by decide, by decide, by decide, by decide, by decide, fun h => absurd rfl h⟩,
    by decide, by decide, by decide, by decide, fun h => absurd rfl h⟩

/-- W3's puts. -/
theorem witness_PutSequenceReadsBack :
    picture.ctx.fsm = .inPicture ∧ picture.ctx.faulted = false ∧ picture.ctx.wr.Sound picture.par.outCap ∧
      (∀ p ∈ [(3#6, 5#32), (7#6, 0x55#32), (1#6, 1#32)],
        1 ≤ p.1.toNat ∧ p.1.toNat ≤ 32 ∧ p.2.toNat < 2 ^ p.1.toNat) ∧
      picture.ctx.wr.bitPos + ([(3#6, 5#32), (7#6, 0x55#32), (1#6, 1#32)].map fun p => p.1.toNat).sum ≤
        8 * picture.par.outCap := ⟨rfl, rfl, picture_writer_sound, by simp, by decide⟩

theorem witness_UnmetRequirementRaisesContractViolation : accepts idle (.encblk 0) = false := by decide

/-- A command that meets its requirements and raises, and one that does not meet them. -/
theorem witness_FaultsComeOnlyFromTheirCommands :
    (picture.ctx.faulted = false ∧ accepts picture (.encdc .luma 2048) = true ∧
      exec (.encdc .luma 2048) picture =
        .next (picture.setCtx (pictureCtx.raise .internalInvariantViolated (.plain 0x20))) ∧
      (pictureCtx.raise .internalInvariantViolated (.plain 0x20)).faulted = true) ∧
    (exec .flush idle = .next (idle.setCtx (idleCtx.raise .contractViolation (.plain 0x11))) ∧
      (idleCtx.raise .contractViolation (.plain 0x11)).faulted = true) := ⟨⟨rfl, rfl, rfl, rfl⟩, rfl, rfl⟩

/-- A fault inside `EncodeBlock` (B15) and one outside. -/
theorem witness_FaultInfoNamesTheCommand :
    (badBlockState.ctx.faulted = false ∧
      stepHas badBlockState 0x2100000000000000 (fun t => t.ctx.faulted) = true) ∧
    (exec .flush idle = .next (idle.setCtx (idleCtx.raise .contractViolation (.plain 0x11))) ∧
      (idleCtx.raise .contractViolation (.plain 0x11)).faulted = true) :=
  ⟨⟨rfl, by decide +kernel⟩, rfl, rfl⟩

theorem witness_FramerMovesOnlyAlongItsTable :
    ∃ t, exec .endp picture = .next t ∧ t.ctx.fsm = .done := ⟨_, rfl, rfl⟩

/-- Inside a picture with one closed slice, the next slice being closed. -/
theorem witness_WrittenBytesOfThePictureAreFinal :
    let s := single builtTab closedCtx
    s.ctx.fsm = .inPicture ∧ s.ctx.sliceStart + 3 ≤ s.ctx.wr.byteCursor ∧ (∃ t, exec .endsl s = .next t) ∧
      (7 < s.ctx.sliceStart) := ⟨rfl, by decide, ⟨_, rfl⟩, by decide⟩

theorem witness_WritePositionNeverMovesBack :
    picture.ctx.fsm = .inPicture ∧ Instr.flush ≠ .abortp ∧ ∃ t, exec .flush picture = .next t :=
  ⟨rfl, by decide, _, rfl⟩

theorem witness_IdempotentCommands :
    (Instr.ldscan 63 5).opcode ∈
        [Opcode.tinit, .flush, .cfg, .abortp, .lddcp, .ldace, .ldscan, .ldcoef, .ldlast] ∧
      ∃ t, runCommand (.ldscan 63 5) idle = .next t := ⟨by decide, _, rfl⟩

/-- A finished picture of one slice. -/
theorem witness_FinishedPictureReparses :
    (single builtTab doneCtx).Sound ∧ (single builtTab doneCtx).ctx.fsm = .done ∧
      (single builtTab doneCtx).ctx.faulted = false := by
  refine ⟨⟨legal64, builtTab_sound, fun c hc => ?_⟩, rfl, rfl⟩
  have : c = doneCtx := by simpa [State.contexts, single] using hc
  rw [this]
  exact doneCtx_sound

theorem witness_HostReadOfRegisters :
    picture.contexts[0]? = some pictureCtx ∧ pictureCtx.wr.bitPos < 2 ^ 64 ∧ pictureCtx.sliceStart < 2 ^ 64 :=
  ⟨rfl, by decide +kernel, by decide +kernel⟩

/-- The last chroma category, the first one that has no entry, the last list entry. -/
theorem witness_HostReadOfMemories :
    picture.contexts[0]? = some pictureCtx ∧ picture.par.outCap = 64 ∧ picture.par.dcNcat = 12 ∧
      (picture.hostRead 0 11 (16 + 11)).map BitVec.toNat = some (10 * 2 ^ 16 + 1023) ∧
      (picture.hostRead 0 11 (16 + 12)).map BitVec.toNat = some 0 ∧
      (picture.hostRead 0 12 122).map BitVec.toNat = some 0x40006 :=
  ⟨rfl, rfl, rfl, by decide +kernel, by decide +kernel, by decide +kernel⟩

end Sys2Proof.Tests
end

section
/-! PROOFS. The bit writer's commands on a state (spec/40_bitwriter.md): what `PUTB` (R132) and `FLUSH` (R133)
do inside a picture, what a sequence of appends leaves, and the statements that follow: `FLUSH` aligns (R131),
the concatenation law (R134), the round trip (R135). -/

namespace Sys2Proof.Machine

open Sys2Proof

/-! ### The prologue -/

/-- An unfaulted context runs the command's pseudocode (R251). -/
theorem runCommand_of_unfaulted {s : State} (h : s.ctx.faulted = false) (i : Instr) :
    runCommand i s = exec i s := by
  simp [runCommand, h]

/-- A faulted context drops the command (R251, R252). -/
theorem runCommand_of_faulted {s : State} (h : s.ctx.faulted = true) (i : Instr) :
    runCommand i s = .next s := by
  simp [runCommand, h]

/-- A command that answers a next state hands it to the rest (R70). -/
theorem runCommands_cons_of_next {i : Instr} {s t : State} (h : runCommand i s = .next t) (rest : List Instr) :
    runCommands (i :: rest) s = runCommands rest t := by
  rw [runCommands, h]

/-- A list of one command. -/
theorem runCommands_singleton_of_next {i : Instr} {s t : State} (h : runCommand i s = .next t) :
    runCommands [i] s = .next t := by
  rw [runCommands_cons_of_next h, runCommands]

theorem Context.faulted_raise (c : Context) {f : FaultCode} (h : f ≠ .clear) (t : Site) :
    (c.raise f t).faulted = true := by
  simp [Context.faulted, h]

/-! ### `FLUSH` -/

/-- `FLUSH` inside a picture is `FlushBits` on the served context (R133). -/
theorem exec_flush_inPicture {s : State} (hp : s.ctx.fsm = .inPicture) :
    exec .flush s = .next (s.setCtx (flushBits s.ctx)) := by
  simp [exec, execFlush, State.commit, Context.inPicture, hp, require_true]

/-- `FlushBits` twice equals once (R133). -/
theorem flushBits_flushBits (c : Context) : flushBits (flushBits c) = flushBits c := by
  simp [flushBits, Writer.flush_flush]

/-- At a byte boundary `FlushBits` changes nothing (R131). -/
theorem flushBits_of_aligned {c : Context} (h : c.wr.bitCursor = 0) : flushBits c = c := by
  simp [flushBits, Writer.flush, h]

/-- `FlushBits` puts the byte cursor at the next byte boundary (R131). -/
theorem Writer.flush_byteCursor (w : Writer) : w.flush.byteCursor = (w.bitPos + 7) / 8 :=
  (Writer.cursors_of_bitPos w.flush_bitPos).1

/-- Settles O45: `FLUSH` is `FlushBits`, whose effect on the writer is known and which is idempotent. -/
theorem flushAlignsAndIsIdempotent : Obligations.FlushAlignsAndIsIdempotent := by
  intro s hp
  refine ⟨⟨s.setCtx (flushBits s.ctx), exec_flush_inPicture hp, s.ctx.wr.flush_out, s.ctx.wr.flush_byteCursor,
    s.ctx.wr.flush_bitCursor, fun hs => hs.flush.cursorMax, rfl, ?_⟩, fun h0 => ?_⟩
  · have hp' : (s.setCtx (flushBits s.ctx)).ctx.fsm = .inPicture := hp
    rw [exec_flush_inPicture hp', State.setCtx_ctx, flushBits_flushBits, State.setCtx_setCtx]
  · rw [exec_flush_inPicture hp, flushBits_of_aligned h0, State.setCtx_self]

/-! ### `PUTB` -/

/-- The state after `bits` were appended to the output of the served context. -/
def State.append (s : State) (bits : List Bool) : State := s.setCtx (s.ctx.setWriter (s.ctx.wr.emit bits))

@[simp] theorem State.append_par (s : State) (bits : List Bool) : (s.append bits).par = s.par := rfl

@[simp] theorem State.append_wr (s : State) (bits : List Bool) :
    (s.append bits).ctx.wr = s.ctx.wr.emit bits := rfl

@[simp] theorem State.append_fsm (s : State) (bits : List Bool) : (s.append bits).ctx.fsm = s.ctx.fsm := rfl

@[simp] theorem State.append_faulted (s : State) (bits : List Bool) :
    (s.append bits).ctx.faulted = s.ctx.faulted := rfl

theorem State.append_nil (s : State) : s.append [] = s := rfl

theorem State.append_append (s : State) (bs cs : List Bool) : (s.append bs).append cs = s.append (bs ++ cs) := by
  simp [State.append, Writer.emit_append]

/-- The contract of `PUTB n, value` (R132): `1 ≤ n ≤ 32` and `value < 2^n`. -/
def PutLegal (n : BitVec 6) (value : BitVec 32) : Prop :=
  1 ≤ n.toNat ∧ n.toNat ≤ 32 ∧ value.toNat < 2 ^ n.toNat

/-- The bits a `PUTB` sends (R61, R130). -/
def putbBits (n : BitVec 6) (value : BitVec 32) : List Bool := bitsOf n.toNat value.toNat

@[simp] theorem putbBits_length (n : BitVec 6) (value : BitVec 32) : (putbBits n value).length = n.toNat :=
  bitsOf_length ..

section
variable {s : State} {n : BitVec 6} {value : BitVec 32} (hp : s.ctx.fsm = .inPicture)
  (hf : s.ctx.faulted = false) (hl : PutLegal n value)
include hp hl

/-- `PUTB` within its contract is `PutBits` on the served context (R132). -/
theorem exec_putb_legal :
    exec (.putb n value) s =
      .next (s.setCtx (putBits s.par (.plain 0x10) n.toNat value.toNat s.ctx).context) := by
  obtain ⟨h1, h32, hv⟩ := hl
  simp [exec, execPutb, State.commit, Context.inPicture, hp, h1, h32, hv, require_true]

include hf

/-- `PUTB` within its contract and the capacity appends its bits (R130, R132). -/
theorem runCommand_putb_fits (hfit : s.ctx.wr.bitPos + n.toNat ≤ 8 * s.par.outCap) :
    runCommand (.putb n value) s = .next (s.append (putbBits n value)) := by
  rw [runCommand_of_unfaulted hf, exec_putb_legal hp hl, putBits_fits hfit]
  rfl

/-- `PUTB` past the capacity raises `OutputOverflow` and writes nothing (R130, R247). -/
theorem runCommand_putb_overflow (hover : 8 * s.par.outCap < s.ctx.wr.bitPos + n.toNat) :
    runCommand (.putb n value) s = .next (s.setCtx (s.ctx.raise .outputOverflow (.plain 0x10))) := by
  rw [runCommand_of_unfaulted hf, exec_putb_legal hp hl, putBits_overflow hover]
  rfl

end

/-! ### The concatenation law (R134) -/

section
variable {a b : BitVec 6} {x y : BitVec 32} (hab : a.toNat + b.toNat ≤ 32) (hy : y.toNat < 2 ^ b.toNat)
include hab

/-- The joined length does not wrap in the 6-bit field. -/
theorem toNat_joinedLength : (a + b).toNat = a.toNat + b.toNat := BitVec.toNat_add_of_lt (by omega)

include hy

/-- The joined value loses no bit in the 32-bit field. -/
theorem toNat_joinedValue : (x ||| (y <<< a.toNat)).toNat = x.toNat ||| (y.toNat <<< a.toNat) := by
  have h32 : y.toNat <<< a.toNat < 2 ^ 32 :=
    (Nat.shiftLeft_lt hy).trans_le (Nat.pow_le_pow_right (by omega) (by omega))
  rw [BitVec.toNat_or, BitVec.toNat_shiftLeft, Nat.mod_eq_of_lt h32]

/-- Two puts whose lengths sum to at most 32 join to a legal put. -/
theorem putLegal_join (ha : 1 ≤ a.toNat) (hx : x.toNat < 2 ^ a.toNat) :
    PutLegal (a + b) (x ||| (y <<< a.toNat)) := by
  have hx' : x.toNat < 2 ^ (a.toNat + b.toNat) := hx.trans_le (Nat.pow_le_pow_right (by omega) (by omega))
  have hy' : y.toNat <<< a.toNat < 2 ^ (a.toNat + b.toNat) := Nat.add_comm a.toNat _ ▸ Nat.shiftLeft_lt hy
  rw [PutLegal, toNat_joinedLength hab, toNat_joinedValue hab hy]
  exact ⟨by omega, hab, Nat.or_lt_two_pow hx' hy'⟩

/-- The joined put sends the bits of the first value, then those of the second. -/
theorem putbBits_join (hx : x.toNat < 2 ^ a.toNat) :
    putbBits (a + b) (x ||| (y <<< a.toNat)) = putbBits a x ++ putbBits b y := by
  rw [putbBits, toNat_joinedLength hab, toNat_joinedValue hab hy, bitsOf_join _ _ _ _ hx]
  rfl

end

/-- Settles O48, by where the capacity cuts: after both values, after the first, or before it. -/
theorem twoPutsEqualTheJoinedPut : Obligations.TwoPutsEqualTheJoinedPut := by
  intro s a b x y hp hf hs ha hb hab hx hy
  have hla : PutLegal a x := ⟨ha, by omega, hx⟩
  have hlb : PutLegal b y := ⟨hb, by omega, hy⟩
  have hlj := putLegal_join hab hy ha hx
  have hlen : (a + b).toNat = a.toNat + b.toNat := toNat_joinedLength hab
  have hpos : (s.append (putbBits a x)).ctx.wr.bitPos = s.ctx.wr.bitPos + a.toNat := by
    rw [State.append_wr, Writer.emit_bitPos, putbBits_length]
  rcases Nat.lt_or_ge (8 * s.par.outCap) (s.ctx.wr.bitPos + a.toNat + b.toNat) with hover | hfit
  · have hjoined := runCommands_singleton_of_next
      (runCommand_putb_overflow hp hf hlj (by rw [hlen]; omega))
    rcases Nat.lt_or_ge (8 * s.par.outCap) (s.ctx.wr.bitPos + a.toNat) with hover₁ | hfit₁
    · have hfirst := runCommand_putb_overflow hp hf hla hover₁
      have hsecond := runCommand_of_faulted (s := s.setCtx (s.ctx.raise .outputOverflow (.plain 0x10)))
        (Context.faulted_raise _ (by decide) _) (.putb b y)
      exact ⟨_, _, (runCommands_cons_of_next hfirst _).trans (runCommands_singleton_of_next hsecond), hjoined,
        fun _ => by omega, fun _ => ⟨rfl, rfl, rfl, fun _ => by omega, fun _ => rfl⟩⟩
    · have hfirst := runCommand_putb_fits hp hf hla hfit₁
      have hsecond := runCommand_putb_overflow (s := s.append (putbBits a x)) hp hf hlb
        (by rw [hpos]; exact hover)
      exact ⟨_, _, (runCommands_cons_of_next hfirst _).trans (runCommands_singleton_of_next hsecond), hjoined,
        fun _ => by omega, fun _ => ⟨rfl, rfl, rfl, fun _ => hs.appended _, fun _ => by omega⟩⟩
  · have hjoined := runCommands_singleton_of_next (runCommand_putb_fits hp hf hlj (by rw [hlen]; omega))
    have hfirst := runCommand_putb_fits hp hf hla (by omega)
    have hsecond := runCommand_putb_fits (s := s.append (putbBits a x)) hp hf hlb (by rw [hpos]; exact hfit)
    have hsplit := (runCommands_cons_of_next hfirst _).trans (runCommands_singleton_of_next hsecond)
    rw [State.append_append, ← putbBits_join hab hy hx] at hsplit
    exact ⟨_, _, hsplit, hjoined, fun _ => ⟨rfl, hf⟩, fun _ => by omega⟩

/-! ### The round trip (R135) -/

/-- The bits a list of puts sends, in order. -/
def putsBits (puts : List (BitVec 6 × BitVec 32)) : List Bool := puts.flatMap fun p => putbBits p.1 p.2

theorem putsBits_cons (p : BitVec 6 × BitVec 32) (puts : List (BitVec 6 × BitVec 32)) :
    putsBits (p :: puts) = putbBits p.1 p.2 ++ putsBits puts := List.flatMap_cons

theorem putsBits_length (puts : List (BitVec 6 × BitVec 32)) :
    (putsBits puts).length = (puts.map fun p => p.1.toNat).sum := by
  simp [putsBits, List.length_flatMap]

/-- The bits of put `i` stand between those of the puts before it and those of the puts after it. -/
theorem putsBits_split (puts : List (BitVec 6 × BitVec 32)) (i : Nat) (h : i < puts.length) :
    putsBits puts =
      putsBits (puts.take i) ++ putbBits puts[i].1 puts[i].2 ++ putsBits (puts.drop (i + 1)) := by
  calc putsBits puts = putsBits (puts.take i ++ puts[i] :: puts.drop (i + 1)) := by
        rw [← List.drop_eq_getElem_cons h, List.take_append_drop]
    _ = _ := by simp only [putsBits, List.flatMap_append, List.flatMap_cons, List.append_assoc]

/-- Legal puts that fit all run, and append their bits one after another (R130, R132). -/
theorem runCommands_puts (puts : List (BitVec 6 × BitVec 32)) {s : State} (hp : s.ctx.fsm = .inPicture)
    (hf : s.ctx.faulted = false) (hl : ∀ p ∈ puts, PutLegal p.1 p.2)
    (hfit : s.ctx.wr.bitPos + (puts.map fun p => p.1.toNat).sum ≤ 8 * s.par.outCap) :
    runCommands (puts.map fun p => .putb p.1 p.2) s = .next (s.append (putsBits puts)) := by
  induction puts generalizing s with
  | nil => rfl
  | cons p puts ih =>
    obtain ⟨hlp, hl⟩ := List.forall_mem_cons.1 hl
    rw [List.map_cons, List.sum_cons] at hfit
    have hfirst := runCommand_putb_fits hp hf hlp (by omega)
    have hrest := ih (s := s.append (putbBits p.1 p.2)) hp hf hl (by
      rw [State.append_wr, Writer.emit_bitPos, putbBits_length, State.append_par]; omega)
    rw [List.map_cons, runCommands_cons_of_next hfirst, hrest, State.append_append, putsBits_cons]

/-- Bits emitted between others are read back from where they began. -/
theorem Writer.Clean.map_bitAt_emit {w : Writer} (h : w.Clean) (before bits after : List Bool) :
    ((List.range bits.length).map fun k =>
      (w.emit (before ++ bits ++ after)).bitAt (w.bitPos + before.length + k)) = bits := by
  apply List.ext_getElem
  · simp
  · intro k _ hk
    have hlt : before.length + k < (before ++ bits ++ after).length := by simp; omega
    have hbit := w.emit_bitAt (before ++ bits ++ after) h (before.length + k) hlt
    rw [← Nat.add_assoc] at hbit
    simpa [hk] using hbit

/-- Settles O49: by induction the puts append their bits one after another, and the bits of each value are
read back from where they began. -/
theorem putSequenceReadsBack : Obligations.PutSequenceReadsBack := by
  intro s puts hp hf hs hl hfit
  refine ⟨_, runCommands_puts puts hp hf hl hfit, hf, fun i hi => ?_⟩
  obtain ⟨_, _, hv⟩ := hl puts[i] (List.getElem_mem hi)
  have hread := hs.clean.map_bitAt_emit (putsBits (puts.take i)) (putbBits puts[i].1 puts[i].2)
    (putsBits (puts.drop (i + 1)))
  rw [← putsBits_split puts i hi, putsBits_length, putbBits_length] at hread
  rw [State.append_wr, hread]
  exact ofBits_bitsOf hv

end Sys2Proof.Machine
end

section
/-! PROOFS. The table builder on a state (spec/41_tables.md): what `TINIT` (R142) does on inputs that pass the
check of R143 and on inputs that fail it, and the statements that follow: the check is the four conditions of
R143, the run tables find the list entry (R146), `UNI_AC_LEN` counts the bits of the wire format (R147). -/

namespace Sys2Proof.Machine

open Sys2Proof

variable {par : Params} {tab : TableUnit} {s t : State}

/-! ### `TINIT` -/

/-- `TINIT` on inputs that pass the check builds every table (R142). -/
theorem exec_tinit_builds (hr : s.tab.ready = false) (hw : tablesWellFormed s.par s.tab = true) :
    exec .tinit s = .next (s.setTab (buildTables s.tab)) := by
  simp [exec, execTinit, hr, hw]

/-- `TINIT` on inputs that fail the check raises `BadTable` (R142, R246). -/
theorem exec_tinit_rejects (hr : s.tab.ready = false) (hw : tablesWellFormed s.par s.tab = false) :
    exec .tinit s = .next (s.setCtx (s.ctx.raise .badTable (.plain 0x01))) := by
  simp [exec, execTinit, hr, hw]

/-- The table unit that `TINIT` leaves on inputs that pass the check. -/
theorem tab_after_tinit (hr : s.tab.ready = false) (hw : tablesWellFormed s.par s.tab = true)
    (ht : exec .tinit s = .next t) : t.tab = buildTables s.tab := by
  rw [exec_tinit_builds hr hw] at ht
  obtain rfl := Host.Outcome.next.inj ht
  exact State.setTab_tab s _

/-! ### The input check (R143) -/

/-- R143 as the four conditions it lists, over indices up to and including 120. -/
theorem TablesOk.iff_conditions : TablesOk par tab ↔
    (∀ cls cat, cat < par.dcNcat →
      1 ≤ (tab.dcpfxAt cls cat).len.toNat ∧ (tab.dcpfxAt cls cat).len.toNat ≤ 16 ∧
        (tab.dcpfxAt cls cat).code.toNat < 2 ^ (tab.dcpfxAt cls cat).len.toNat) ∧
    (∀ i, i ≤ 120 →
      1 ≤ (tab.aceAt i).len.toNat ∧ (tab.aceAt i).len.toNat ≤ 16 ∧
        (tab.aceAt i).code.toNat < 2 ^ (tab.aceAt i).len.toNat ∧ 1 ≤ (tab.aceAt i).level.toNat) ∧
    ((tab.aceAt 0).level.toNat = 1 ∧
      ∀ i, 1 ≤ i → i ≤ 120 →
        ((tab.aceAt i).run = (tab.aceAt (i - 1)).run ∧
          (tab.aceAt i).level.toNat = (tab.aceAt (i - 1)).level.toNat + 1) ∨
        ((∀ j, j < i → (tab.aceAt i).run ≠ (tab.aceAt j).run) ∧ (tab.aceAt i).level.toNat = 1)) ∧
    ((tab.aceAt 121).len.toNat = 6 ∧ (tab.aceAt 121).code.toNat = 32 ∧
      (tab.aceAt 122).len.toNat = 4 ∧ (tab.aceAt 122).code.toNat = 6) := by
  simp only [← DcpfxEntry.codeFits_iff, ← AceEntry.codeFits_iff, ← continuesOrOpens_iff]
  constructor
  · intro h
    exact ⟨h.dcpfx, fun i hi => h.ace i (by omega),
      ⟨h.firstLevel, fun i h1 hi => h.grouped i h1 (by omega)⟩,
      h.escLen, h.escCode, h.eobLen, h.eobCode⟩
  · rintro ⟨hdc, hace, ⟨hfirst, hgrouped⟩, hescLen, hescCode, heobLen, heobCode⟩
    exact ⟨hdc, fun i hi => hace i (by omega), hfirst, fun i h1 hi => hgrouped i h1 (by omega),
      hescLen, hescCode, heobLen, heobCode⟩

/-- Settles O19: the check unfolds to the four conditions, and a failed check is the fault branch of `TINIT`. -/
theorem tinitRejectsBadTables : Obligations.TinitRejectsBadTables := fun _ hr =>
  ⟨tablesWellFormed_iff.trans TablesOk.iff_conditions, exec_tinit_rejects hr⟩

/-! ### The run tables (R146) -/

/-- A run with no entry has no greatest level (R146). -/
theorem greatestOfRun_of_absent {r : Nat} (h : ∀ i, i < 121 → (tab.aceAt i).run.toNat ≠ r) :
    greatestOfRun tab r = 0 := by
  by_contra hg
  obtain ⟨i, hi, hrun, _⟩ := greatestOfRun_mem (tab := tab) (r := r) (by omega)
  exact h i hi hrun

/-- A run with no entry has the index 121 (R146). -/
theorem firstOfRun_of_absent {r : Nat} (h : ∀ i, i < 121 → (tab.aceAt i).run.toNat ≠ r) :
    firstOfRun tab r = 121 := by
  have hnone : (List.range 121).find? (fun i => decide ((tab.aceAt i).run.toNat = r)) = none := by
    simpa [List.find?_eq_none] using h
  simp [firstOfRun, hnone]

/-- Settles O17: the entries of both tables are the first index and the greatest level of the run, and the
grouping of the list ties the two together. -/
theorem tinitRunTablesFindTheListEntry : Obligations.TinitRunTablesFindTheListEntry := by
  intro s t hr hw ht r hr64
  have hok := tablesWellFormed_iff.1 hw
  rw [tab_after_tinit hr hw ht, maxLevelAt_build hr64, indexRunAt_build hr64]
  refine ⟨fun habsent => ⟨greatestOfRun_of_absent habsent, firstOfRun_of_absent habsent⟩, ?_,
    fun l h1 hl => hok.entry_of_level h1 hl⟩
  rintro i hi rfl
  obtain ⟨hfirst, hle⟩ := hok.firstOfRun_eq hi
  exact ⟨le_greatestOfRun hi, by omega⟩

/-! ### `UNI_AC_LEN` (R147) -/

/-- The entry of `UNI_AC_LEN` for a run and a level, in terms of the tables built before it (R147). -/
theorem uniAcLenAt_build {run : Nat} {level : Int} (hrun : run < 64) (hlow : -64 ≤ level) (hhigh : level ≤ 63) :
    (buildTables tab).uniAcLenAt (128 * run + (level + 64).toNat) =
      BitVec.ofNat 8 (acLength (buildTables tab).maxLevelAt (buildTables tab).indexRunAt
        (fun i => (tab.aceAt i).len.toNat) run level) := by
  have hquot : (128 * run + (level + 64).toNat) / 128 = run := by omega
  have hrem : (((128 * run + (level + 64).toNat) % 128 : Nat) : Int) - 64 = level := by omega
  have hbound : 128 * run + (level + 64).toNat < 8192 := by omega
  rw [TableUnit.uniAcLenAt, buildTables, Tbl.get_build _ hbound, hquot, hrem]
  rfl

/-- The bits of an AC code (R108, R109): a listed code and its sign, or the 24 of an escape. -/
theorem TablesOk.wireAc_length (h : TablesOk par tab) (run : Nat) {level : Int} (hl : level ≠ 0) :
    (wireAc tab run level).length =
      if level.natAbs ≤ greatestOfRun tab run then
        (tab.aceAt (firstOfRun tab run + level.natAbs - 1)).len.toNat + 1
      else 24 := by
  rw [wireAc, h.aceFor_eq (Int.natAbs_pos.2 hl)]
  split_ifs <;> simp [bitsOf_length]

/-- No AC code is longer than an escape (R143, R147). -/
theorem TablesOk.wireAc_length_le (h : TablesOk par tab) (run : Nat) {level : Int} (hl : level ≠ 0) :
    (wireAc tab run level).length ≤ 24 := by
  rw [h.wireAc_length run hl]
  split
  case isTrue hle =>
    obtain ⟨hindex, _, _⟩ := h.entry_of_level (Int.natAbs_pos.2 hl) hle
    obtain ⟨_, hlen, _⟩ := (AceEntry.codeFits_iff _).1 (h.ace _ (Nat.lt_succ_of_le hindex))
    omega
  case isFalse => exact le_refl 24

/-- The lengths computed from the built tables are those of the wire format (R147). -/
theorem TablesOk.acLength_build (h : TablesOk par tab) {run : Nat} (hrun : run < 64) (level : Int) :
    acLength (buildTables tab).maxLevelAt (buildTables tab).indexRunAt (fun i => (tab.aceAt i).len.toNat)
      run level = if level = 0 then 0 else (wireAc tab run level).length := by
  rw [acLength, maxLevelAt_build hrun, indexRunAt_build hrun]
  split
  case isTrue => rfl
  case isFalse hl => exact (h.wireAc_length run hl).symm

/-- Settles O18: an entry is the wire length, which 8 bits hold. -/
theorem tinitLengthTableCountsWireBits : Obligations.TinitLengthTableCountsWireBits := by
  intro s t hr hw ht run level hrun hlow hhigh
  have hok := tablesWellFormed_iff.1 hw
  rw [tab_after_tinit hr hw ht, uniAcLenAt_build hrun hlow hhigh, hok.acLength_build hrun, BitVec.toNat_ofNat]
  split
  case isTrue => rfl
  case isFalse hl => exact Nat.mod_eq_of_lt (Nat.lt_of_le_of_lt (hok.wireAc_length_le run hl) (by decide))

end Sys2Proof.Machine
end

section
/-! PROOFS. Faults (spec/60_exceptions.md): an unmet requirement is the `ContractViolation` of R245, `CFG` rejects
what R241 and R242 name, and a faulted context stays as it is until reset (R252, R253, R280). -/

namespace Sys2Proof.Machine

open Sys2Proof

variable {s t : State} {k : Nat} {c : Context}

/-! ### Fault entry (R250) -/

/-- A fault outside `EncodeBlock` leaves the opcode alone in `FAULT_INFO` (R250). -/
theorem Context.raise_plain (c : Context) (f : FaultCode) (opcode : BitVec 8) :
    c.raise f (.plain opcode) = { c with faultCode := f, faultInfo := opcode ++ 0#24 } := by
  rw [Context.raise, Site.info_plain]

/-! ### Unmet requirements (R245) -/

/-- Of all a command can do, only the raise of `ContractViolation` needs no requirement met (R216, R245). -/
theorem exec_of_not_accepts {i : Instr} (h : accepts s i = false) :
    exec i s = .next (s.setCtx (s.ctx.raise .contractViolation (.plain i.opcode.code))) := by
  have hnot : accepts s i ≠ true := by simp [h]
  rcases exec_cases i s with hviolation | ⟨haccepts, _⟩ | ⟨haccepts, _⟩
  · exact hviolation
  · exact absurd haccepts hnot
  · exact absurd haccepts hnot

/-- Settles O50: a command that is not accepted raises, and the raise is R250's. -/
theorem unmetRequirementRaisesContractViolation : Obligations.UnmetRequirementRaisesContractViolation := by
  intro s i h
  rw [exec_of_not_accepts h, Context.raise_plain]

/-! ### `CFG` (R241, R242, R249) -/

section
variable {pixfmt : BitVec 4} {width height : BitVec 16} (hout : s.ctx.fsm = .idle ∨ s.ctx.fsm = .done)
include hout

/-- Outside a picture `CFG` with dimensions that fail the test raises `InvalidDimensions` (R241). -/
theorem exec_cfg_invalidDimensions (hd : dimensionsValid width height = false) :
    exec (.cfg pixfmt width height) s =
      .next (s.setCtx (s.ctx.raise .invalidDimensions (.plain 0x02))) := by
  simp [exec, execCfg, State.commit, require_of (Context.outsidePicture_iff.2 hout), hd]

/-- Outside a picture `CFG` with good dimensions and a format of no name raises `UnsupportedPixelFormat`
(R242). -/
theorem exec_cfg_unsupportedPixelFormat (hd : dimensionsValid width height = true)
    (hf : formatOfPixfmt pixfmt = none) :
    exec (.cfg pixfmt width height) s =
      .next (s.setCtx (s.ctx.raise .unsupportedPixelFormat (.plain 0x02))) := by
  simp [exec, execCfg, State.commit, require_of (Context.outsidePicture_iff.2 hout), hd, hf]

end

/-- The dimension test fails in one of three ways (R210, R241). -/
theorem dimensionsValid_eq_false_iff {width height : BitVec 16} :
    dimensionsValid width height = false ↔
      width.toNat % 16 ≠ 0 ∨ 65500 < width.toNat ∨ 65500 < height.toNat := by
  rw [← Bool.not_eq_true, dimensionsValid_iff]
  omega

/-- A `pixfmt` operand above 2 names no format (R210). -/
theorem formatOfPixfmt_eq_none {pixfmt : BitVec 4} (h : 2 < pixfmt.toNat) : formatOfPixfmt pixfmt = none := by
  rcases formatOfPixfmt_cases pixfmt with ⟨_, _, _, hle⟩ | ⟨hnone, _⟩
  · omega
  · exact hnone

/-- Settles O38: each clause is the branch of `CFG` its test selects, and the raise is R250's. -/
theorem cfgRejectsDimensionsThenFormat : Obligations.CfgRejectsDimensionsThenFormat := by
  intro s pixfmt width height hout
  refine ⟨fun hbad => ?_, fun hmod hwidth hheight hfmt => ?_⟩
  · rw [exec_cfg_invalidDimensions hout (dimensionsValid_eq_false_iff.2 hbad), Context.raise_plain]
    rfl
  · rw [exec_cfg_unsupportedPixelFormat hout (dimensionsValid_iff.2 ⟨hmod, hwidth, hheight⟩)
      (formatOfPixfmt_eq_none hfmt), Context.raise_plain]
    rfl

/-! ### Runs -/

/-- What every step keeps holds after a run. -/
theorem runSteps_induction {P : State → Prop} (hstep : ∀ s t, P s → step s = .next t → P t) (n : Nat)
    (hs : P s) (h : runSteps n s = .next t) : P t := by
  induction n generalizing s with
  | zero => exact Host.Outcome.next.inj h ▸ hs
  | succ n ih =>
    rw [runSteps] at h
    split at h
    · next u hu => exact ih (hstep s u hs hu) h
    · cases h
    · cases h

/-- A step that serves a command word takes it and may change the context of its port, unless that context
is faulted (R251, R252, R262). -/
theorem step_of_command {j : Nat} {w : Word} {rest : List Input} (hin : s.inbox = .command j w :: rest)
    (h : step s = .next t) :
    t.inbox = rest ∧ ∃ served c, s.contexts[j]? = some served ∧ t.contexts = s.contexts.set j c ∧
      (served.faulted = true → c = served) := by
  rcases step_cases h with ⟨hnil, _⟩ | ⟨_, hreset, _⟩ | ⟨j', w', rest', u, hin', hfocus, hrun⟩
  · simp [hin] at hnil
  · simp [hin] at hreset
  · obtain ⟨⟨rfl, rfl⟩, rfl⟩ : (j = j' ∧ w = w') ∧ rest = rest' := by simpa [hin] using hin'
    obtain ⟨c, tab, hnext, _, hfaulted⟩ := runWord_frame w u
    obtain rfl := Host.Outcome.next.inj (hrun.symm.trans hnext)
    obtain ⟨_, hserved, hu⟩ := focus_eq_some hfocus
    refine ⟨?_, u.ctx, c, hserved, contexts_after hfocus c tab, fun hf => (hfaulted hf).1⟩
    rw [State.setCtx_inbox, State.setTab_inbox, hu]

/-! ### A fault is final (R252) -/

/-- Context `k` is `c` and no reset is presented. -/
structure State.HoldsAwaitingNoReset (s : State) (k : Nat) (c : Context) : Prop where
  noReset : Input.reset ∉ s.inbox
  holds : s.contexts[k]? = some c

/-- A step that is no reset changes no faulted context, whichever port it serves (R252, R262). -/
theorem State.HoldsAwaitingNoReset.of_step (hs : s.HoldsAwaitingNoReset k c) (hc : c.faulted = true)
    (h : step s = .next t) : t.HoldsAwaitingNoReset k c := by
  obtain ⟨hno, hk⟩ := hs
  rcases step_cases h with ⟨_, rfl⟩ | ⟨rest, hin, _⟩ | ⟨j, w, rest, _, hin, _, _⟩
  case inl => exact ⟨hno, hk⟩
  case inr.inl => simp [hin] at hno
  case inr.inr =>
    obtain ⟨hrest, served, c', hserved, hset, hfinal⟩ := step_of_command hin h
    refine ⟨fun hmem => hno (hin ▸ List.mem_cons_of_mem _ (hrest ▸ hmem)), ?_⟩
    rw [hset]
    rcases eq_or_ne j k with rfl | hne
    · obtain rfl := Option.some.inj (hserved.symm.trans hk)
      obtain ⟨hlt, _⟩ := List.getElem?_eq_some_iff.1 hk
      rw [hfinal hc, List.getElem?_set_self hlt]
    · rw [List.getElem?_set_ne hne, hk]

/-! ### Reset (R45, R280) -/

/-- Every context of a block right after reset is a context right after reset. -/
theorem mem_contexts_powerUp {par : Params} {further epoch : Nat} {inbox : List Input}
    (h : c ∈ (State.powerUp par further epoch inbox).contexts) : ∃ k, c = Context.powerUp epoch k := by
  rcases List.mem_cons.1 h with rfl | hhigher
  · exact ⟨0, rfl⟩
  · obtain ⟨k, _, rfl⟩ := List.mem_map.1 hhigher
    exact ⟨k, rfl⟩

/-- The reset step (R280). -/
theorem step_of_reset {rest : List Input} (hin : s.inbox = .reset :: rest) :
    step s = .next ({ s with inbox := rest } : State).applyReset := by
  rw [step, serve, hin]

/-- Settles O8: a run keeps a faulted context because each of its steps does, and the reset step leaves contexts
and tables as at power-up. -/
theorem faultIsFinalUntilReset : Obligations.FaultIsFinalUntilReset := by
  refine ⟨fun n s t k c hno hk hc hrun => ?_, fun s rest hin => ⟨_, step_of_reset hin, fun c hmem => ?_, rfl⟩⟩
  · have hstart : s.HoldsAwaitingNoReset k c := ⟨hno, hk⟩
    exact (runSteps_induction (P := fun u => u.HoldsAwaitingNoReset k c) (fun _ _ hu => hu.of_step hc) n hstart
      hrun).holds
  · obtain ⟨_, rfl⟩ := mem_contexts_powerUp hmem
    rfl

end Sys2Proof.Machine
end

section
/-! PROOFS. Command words (spec/30_encoding.md R90 to R94): the decoder and the encoder are inverse to each
other, and the rows of the opcode map exclude each other. -/

namespace Sys2Proof

/-! ### Fields of a word -/

/-- Two neighbouring fields of a word join to one. -/
theorem field_append_field {lo mid : Nat} (w : Word) (low high : Nat) (h : mid = lo + low) :
    field w mid high ++ field w lo low = field w lo (high + low) := by
  subst h
  ext i hi
  simp only [field, BitVec.getElem_append, BitVec.getElem_extractLsb']
  split
  · rfl
  · rw [show lo + low + (i - low) = lo + i by omega]

/-- The last of the fields joined to a word. -/
theorem extract_last {v w : Nat} (a : BitVec v) (b : BitVec w) : (a ++ b).extractLsb' 0 w = b := by
  rw [extract_low _ _ _ _ (Nat.zero_add w).le, extract_all]

/-- The whole word as a field. -/
theorem field_whole (w : Word) : field w 0 64 = w := extract_all w

/-- A reserved field, one the row's mask covers, holds what the row's match word has there (R93). -/
theorem Opcode.field_of_matches {o : Opcode} {w : Word} (h : o.matchesWord w = true) (lo len : Nat)
    (hmask : field o.mask lo len = BitVec.allOnes len) : field w lo len = field o.matchWord lo len := by
  have hand : w &&& o.mask = o.matchWord := by simpa [Opcode.matchesWord] using h
  rw [← hand, field_and, hmask, BitVec.and_allOnes]

theorem DcClass.ofBit_bit (cls : DcClass) : DcClass.ofBit cls.bit = cls := by cases cls <;> rfl

theorem DcClass.bit_ofBit (b : BitVec 1) : (DcClass.ofBit b).bit = b := by revert b; decide

/-! ### The encoder's words are read back (R91, R92) -/

/-- Every command's word matches the row of the command (R93). -/
theorem opcode_matches_encode (i : Instr) : i.opcode.matchesWord (encode i) = true := by
  have h : Laws.EncodesOwnRow.Statement i := by
    cases i with
    | tinit => exact Laws.EncodesOwnRow.tinit
    | cfg p w h => exact Laws.EncodesOwnRow.cfg p w h
    | lddcp cls cat len code => exact Laws.EncodesOwnRow.lddcp cls cat len code
    | ldace idx run level len code => exact Laws.EncodesOwnRow.ldace idx run level len code
    | ldscan k j => exact Laws.EncodesOwnRow.ldscan k j
    | ldcoef blk pos value => exact Laws.EncodesOwnRow.ldcoef blk pos value
    | ldlast blk last => exact Laws.EncodesOwnRow.ldlast blk last
    | putb n value => exact Laws.EncodesOwnRow.putb n value
    | flush => exact Laws.EncodesOwnRow.flush
    | encdc cls diff => exact Laws.EncodesOwnRow.encdc cls diff
    | encblk n => exact Laws.EncodesOwnRow.encblk n
    | encmb => exact Laws.EncodesOwnRow.encmb
    | beginp q => exact Laws.EncodesOwnRow.beginp q
    | endsl => exact Laws.EncodesOwnRow.endsl
    | endp => exact Laws.EncodesOwnRow.endp
    | abortp => exact Laws.EncodesOwnRow.abortp
  exact decide_eq_true h

/-- The operand fields of a command's word are the command's operands (R91, R92): the fields right of an operand
are cut off by their widths until it stands last. -/
theorem operands_encode (i : Instr) : i.opcode.operands (encode i) = i := by
  cases i with
  | tinit | flush | encmb | endsl | endp | abortp => rfl
  | cfg | lddcp | ldace | ldscan | ldcoef | ldlast | putb | encdc | encblk | beginp =>
    simp [Instr.opcode, Opcode.operands, encode, field, DcClass.ofBit_bit,
      extract_last (w := 1), extract_last (w := 4), extract_last (w := 5), extract_last (w := 6),
      extract_last (w := 7), extract_last (w := 8), extract_last (w := 16), extract_last (w := 32),
      extract_high (w := 1), extract_high (w := 2), extract_high (w := 3), extract_high (w := 4),
      extract_high (w := 5), extract_high (w := 6), extract_high (w := 7), extract_high (w := 11),
      extract_high (w := 16), extract_high (w := 26), extract_high (w := 32), extract_high (w := 34)]

/-- Settles O1: the word matches the command's row, and that row's operand fields are the command's. -/
theorem decodeOfEncodeIsIdentity : Obligations.DecodeOfEncodeIsIdentity := by
  intro i
  rw [decode_of_matches (opcode_matches_encode i), operands_encode]

/-! ### A word that decodes has no bit ignored (R93, R94) -/

/-- Encoding the operand fields of a word that matches the row gives the word: the encoder's constants are the
reserved fields, and all fields together are the word. -/
theorem encode_operands_of_matches {o : Opcode} {w : Word} (h : o.matchesWord w = true) :
    encode (o.operands w) = w := by
  have reserved := fun lo len hmask => (Opcode.field_of_matches h lo len hmask).symm
  cases o with
  | tinit | flush | encmb | endsl | endp | abortp =>
    rw [← field_whole w, ← reserved 0 64 rfl]
    rfl
  | cfg =>
    calc _ = field w 56 8 ++ field w 36 20 ++ field w 32 4 ++ field w 16 16 ++ field w 0 16 := by
          rw [← reserved 56 8 rfl, ← reserved 36 20 rfl]; rfl
      _ = w := by simp only [field_append_field]; exact field_whole w
  | lddcp =>
    calc _ = field w 56 8 ++ field w 49 7 ++ field w 48 1 ++ field w 44 4 ++ field w 40 4 ++
        field w 37 3 ++ field w 32 5 ++ field w 16 16 ++ field w 0 16 := by
          rw [← reserved 56 8 rfl, ← reserved 49 7 rfl, ← reserved 44 4 rfl, ← reserved 37 3 rfl,
            ← reserved 16 16 rfl]
          simp only [Opcode.operands, encode, DcClass.bit_ofBit]; rfl
      _ = w := by simp only [field_append_field]; exact field_whole w
  | ldace =>
    calc _ = field w 56 8 ++ field w 55 1 ++ field w 48 7 ++ field w 46 2 ++ field w 40 6 ++
        field w 39 1 ++ field w 32 7 ++ field w 21 11 ++ field w 16 5 ++ field w 0 16 := by
          rw [← reserved 56 8 rfl, ← reserved 55 1 rfl, ← reserved 46 2 rfl, ← reserved 39 1 rfl,
            ← reserved 21 11 rfl]; rfl
      _ = w := by simp only [field_append_field]; exact field_whole w
  | ldscan =>
    calc _ = field w 56 8 ++ field w 38 18 ++ field w 32 6 ++ field w 6 26 ++ field w 0 6 := by
          rw [← reserved 56 8 rfl, ← reserved 38 18 rfl, ← reserved 6 26 rfl]; rfl
      _ = w := by simp only [field_append_field]; exact field_whole w
  | ldcoef =>
    calc _ = field w 56 8 ++ field w 44 12 ++ field w 40 4 ++ field w 38 2 ++ field w 32 6 ++
        field w 16 16 ++ field w 0 16 := by
          rw [← reserved 56 8 rfl, ← reserved 44 12 rfl, ← reserved 38 2 rfl, ← reserved 16 16 rfl]; rfl
      _ = w := by simp only [field_append_field]; exact field_whole w
  | ldlast =>
    calc _ = field w 56 8 ++ field w 44 12 ++ field w 40 4 ++ field w 6 34 ++ field w 0 6 := by
          rw [← reserved 56 8 rfl, ← reserved 44 12 rfl, ← reserved 6 34 rfl]; rfl
      _ = w := by simp only [field_append_field]; exact field_whole w
  | putb =>
    calc _ = field w 56 8 ++ field w 38 18 ++ field w 32 6 ++ field w 0 32 := by
          rw [← reserved 56 8 rfl, ← reserved 38 18 rfl]; rfl
      _ = w := by simp only [field_append_field]; exact field_whole w
  | encdc =>
    calc _ = field w 56 8 ++ field w 33 23 ++ field w 32 1 ++ field w 0 32 := by
          rw [← reserved 56 8 rfl, ← reserved 33 23 rfl]
          simp only [Opcode.operands, encode, DcClass.bit_ofBit]; rfl
      _ = w := by simp only [field_append_field]; exact field_whole w
  | encblk =>
    calc _ = field w 56 8 ++ field w 4 52 ++ field w 0 4 := by
          rw [← reserved 56 8 rfl, ← reserved 4 52 rfl]; rfl
      _ = w := by simp only [field_append_field]; exact field_whole w
  | beginp =>
    calc _ = field w 56 8 ++ field w 8 48 ++ field w 0 8 := by
          rw [← reserved 56 8 rfl, ← reserved 8 48 rfl]; rfl
      _ = w := by simp only [field_append_field]; exact field_whole w

/-- Settles O2: the word matches the row it was read by. -/
theorem encodeOfDecodeIsIdentity : Obligations.EncodeOfDecodeIsIdentity := by
  intro w i h
  obtain ⟨o, hm, rfl⟩ := matches_of_decode h
  exact encode_operands_of_matches hm

/-! ### Rows (R93) -/

/-- Two rows that match one word are the same: its opcode byte finds the row. -/
theorem Opcode.eq_of_matches {o o' : Opcode} {w : Word} (h : o.matchesWord w = true)
    (h' : o'.matchesWord w = true) : o' = o := by
  have hcode : o'.code = o.code := (Opcode.code_of_matches h').symm.trans (Opcode.code_of_matches h)
  exact Option.some.inj ((Opcode.ofByte_code o').symm.trans (hcode ▸ Opcode.ofByte_code o))

/-- Settles O3. -/
theorem matchingRowIsUniqueAndDecodes : Obligations.MatchingRowIsUniqueAndDecodes := by
  intro w o h
  have hm : o.matchesWord w = true := decide_eq_true h
  exact ⟨decode_of_matches hm, fun o' h' => Opcode.eq_of_matches hm (decide_eq_true h')⟩

/-- Settles O4: the decoder evaluated on each word. -/
theorem listedWordsDecodeAsListed : Obligations.ListedWordsDecodeAsListed := by
  unfold Obligations.ListedWordsDecodeAsListed
  decide

end Sys2Proof
end

section
/-! PROOFS. Steps, ports and reset (spec/60_exceptions.md R251, R262, R265; 70_reset_and_hazards.md R280;
20_memory.md R71): what one step does on each kind of input, and that contexts do not see each other. -/

namespace Sys2Proof.Machine

open Sys2Proof

variable {s t u : State} {k j : Nat} {c : Context} {w : Word} {rest : List Input}

/-! ### One step -/

/-- A step with a word on a port that exists runs the word there (R251, R262). -/
theorem step_of_focus (hin : s.inbox = .command k w :: rest)
    (hfocus : ({ s with inbox := rest } : State).focus k = some t) : step s = runWord w t := by
  simp [step, serve, hin, hfocus]

/-- A faulted context drops the word (R251, R252). -/
theorem runWord_of_faulted (h : s.ctx.faulted = true) : runWord w s = .next s := by
  simp [runWord, h]

/-- A word that matches no row does not decode (R93, R94). -/
theorem decode_of_no_row (h : ∀ o : Opcode, w &&& o.mask ≠ o.matchWord) : ∃ e, decode w = .error e := by
  rcases hd : decode w with e | i
  · exact ⟨e, rfl⟩
  · obtain ⟨o, hm, _⟩ := matches_of_decode hd
    exact absurd (of_decide_eq_true hm) (h o)

/-- In an unfaulted context a word that matches no row raises `IllegalCommand` (R244, R251). -/
theorem runWord_of_no_row (hf : s.ctx.faulted = false) (h : ∀ o : Opcode, w &&& o.mask ≠ o.matchWord) :
    runWord w s = .next (s.setCtx (s.ctx.raise .illegalCommand (.plain (field w 56 8)))) := by
  obtain ⟨e, hd⟩ := decode_of_no_row h
  simp [runWord, hf, hd]

/-- In an unfaulted context a word that decodes runs its command (R251). -/
theorem runWord_of_decode (hf : s.ctx.faulted = false) {i : Instr} (h : decode w = .ok i) :
    runWord w s = exec i s := by
  simp [runWord, hf, h]

/-- Settles O5: each clause is one branch of the prologue. -/
theorem stepRunsPrologueThenDecodedCommand : Obligations.StepRunsPrologueThenDecodedCommand := by
  intro s t k w rest hin hfocus
  rw [step_of_focus hin hfocus]
  refine ⟨runWord_of_faulted, fun hf hno => ?_, fun hf i hi => runWord_of_decode hf hi⟩
  rw [runWord_of_no_row hf hno, Context.raise_plain]

/-- Serving a port leaves the list of contexts as it was (R262). -/
theorem focus_contexts (h : s.focus k = some t) : t.contexts = s.contexts := by
  obtain ⟨_, hget, _⟩ := focus_eq_some h
  have hctx := contexts_after h t.ctx t.tab
  rwa [State.setTab_self, State.setCtx_self, ← (List.getElem?_eq_some_iff.1 hget).2,
    List.set_getElem_self] at hctx

/-- Settles O6: serving cuts the list of contexts at the port's number and puts it together again. -/
theorem servingAPortOnlySelectsItsContext : Obligations.ServingAPortOnlySelectsItsContext := by
  refine ⟨fun s k hk => focus_isSome hk, fun s t k h => ?_, fun s k w rest hin hk => ?_⟩
  · obtain ⟨hk, hget, ht⟩ := focus_eq_some h
    refine ⟨focus_contexts h, ?_, hget, by rw [ht], by rw [ht], by rw [ht], by rw [ht]⟩
    rw [ht, State.served, List.length_take]
    exact Nat.min_eq_left hk.le
  · have hnone : ({ s with inbox := rest } : State).focus k = none := focus_eq_none hk
    simp [step, serve, hin, hnone]

/-- Settles O7. -/
theorem nothingPresentedChangesNothing : Obligations.NothingPresentedChangesNothing := by
  intro s h
  rw [step, serve, h]

/-! ### Reset -/

/-- A context right after reset has every register clear (R45). -/
theorem Context.powerUp_registersClear (epoch k : Nat) : (Context.powerUp epoch k).RegistersClear where
  fsm := rfl
  cfgValid := rfl
  fault := ⟨rfl, rfl⟩
  picture := ⟨rfl, rfl, rfl, rfl⟩
  lastDc i hi := by
    rw [Context.lastDcAt, Context.powerUp, Tbl.get_build _ hi]
    rfl
  cursors := ⟨rfl, rfl, rfl⟩

/-- Settles O9: the reset step leaves every context as at power-up, and as many of them as before. -/
theorem resetClearsEveryRegister : Obligations.ResetClearsEveryRegister := by
  intro s rest hin
  refine ⟨_, step_of_reset hin, rfl, fun c hc => ?_, ?_, rfl, rfl⟩
  · obtain ⟨k, rfl⟩ := mem_contexts_powerUp hc
    exact Context.powerUp_registersClear _ k
  · simp [State.contexts, State.applyReset, State.powerUp]
    omega

/-- A context right after reset is sound: nothing is written, no picture is open (R45). -/
theorem Context.powerUp_sound (par : Params) (tab : TableUnit) (epoch k : Nat) :
    (Context.powerUp epoch k).Sound par tab where
  writer :=
    { canonical := List.Pairwise.nil
      inside := fun _ hp => absurd hp List.not_mem_nil
      cursorMax := Nat.zero_le _
      openByte := fun h => absurd rfl h }
  dimensions := rfl
  qscaleMax := Nat.zero_le _
  sliceStartMax := Nat.zero_le _
  begun h := absurd rfl h
  openField h := absurd rfl h
  header h := absurd rfl h
  chain h := absurd rfl h
  finished h := nomatch h
  faultInfoClear _ := rfl

/-- A block right after reset is sound if its parameters are legal (R45). -/
theorem State.powerUp_sound {par : Params} (h : par.Legal) (further epoch : Nat) (inbox : List Input) :
    (State.powerUp par further epoch inbox).Sound where
  params := h
  tables hr := nomatch hr
  contexts c hc := by
    obtain ⟨k, rfl⟩ := mem_contexts_powerUp hc
    exact Context.powerUp_sound ..

/-- Settles O10: the parameters lie in the ranges of R5 by their types. -/
theorem resetStateIsSound : Obligations.ResetStateIsSound := by
  refine State.powerUp_sound ?_ _ _ _
  have hcap := Config.outCapAboveLeast.isLt
  have hcat := Config.dcNcatAboveLeast.isLt
  show 7 ≤ _ + 7 ∧ _ + 7 ≤ 2 ^ 28 ∧ 9 ≤ _ + 9 ∧ _ + 9 ≤ 16
  omega

/-! ### Contexts do not see each other (R71, R262) -/

/-- Settles O12: a command step replaces one entry of the list of contexts. -/
theorem commandLeavesOtherContextsAlone : Obligations.CommandLeavesOtherContextsAlone := by
  intro s t k j w rest hin h hne
  obtain ⟨_, _, c, _, hset, _⟩ := step_of_command hin h
  rw [hset, List.getElem?_set_ne (Ne.symm hne)]

/-- A block with one context and nothing presented. -/
def State.alone (par : Params) (tab : TableUnit) (c : Context) : State := ⟨par, tab, [], c, [], [], 0⟩

/-- What a context is after a word on its port, the tables being built. -/
def Context.afterWord (par : Params) (tab : TableUnit) (c : Context) (w : Word) : Context :=
  match runWord w (State.alone par tab c) with
  | .next t => t.ctx
  | .fault _ => c
  | .refused _ => c

/-- With built tables a command changes the served context alone, by what the parameters, the tables and that
context hold (R71, R262). -/
theorem exec_local (i : Instr) (hr : s.tab.ready = true) :
    ∃ c, exec i s = .next (s.setCtx c) ∧
      exec i (State.alone s.par s.tab s.ctx) = .next ((State.alone s.par s.tab s.ctx).setCtx c) := by
  cases i with
  | tinit =>
    have h : ∀ v : State, v.tab.ready = true → exec .tinit v = .next v := fun v hv => by
      simp [exec, execTinit, hv]
    exact ⟨s.ctx, h s hr, h _ hr⟩
  | lddcp | ldace =>
    refine ⟨_, exec_of_not_accepts ?_, exec_of_not_accepts ?_⟩ <;> simp [accepts, State.alone, hr]
  | cfg | ldscan | ldcoef | ldlast | putb | flush | encdc | encblk | encmb | beginp | endsl | endp | abortp =>
    exact ⟨_, rfl, rfl⟩

/-- The same of a word on the port. -/
theorem runWord_eq_afterWord (w : Word) (hr : s.tab.ready = true) :
    runWord w s = .next (s.setCtx (s.ctx.afterWord s.par s.tab w)) := by
  have h : ∃ c, runWord w s = .next (s.setCtx c) ∧
      runWord w (State.alone s.par s.tab s.ctx) = .next ((State.alone s.par s.tab s.ctx).setCtx c) := by
    cases hf : s.ctx.faulted with
    | true => exact ⟨s.ctx, runWord_of_faulted hf, runWord_of_faulted hf⟩
    | false =>
      rcases hd : decode w with e | i
      · have herror : ∀ v : State, v.ctx.faulted = false → runWord w v =
            .next (v.setCtx (v.ctx.raise .illegalCommand (.plain (field w 56 8)))) := fun v hv => by
          simp [runWord, hv, hd]
        exact ⟨_, herror s hf, herror _ hf⟩
      · have hexec : ∀ v : State, v.ctx.faulted = false → runWord w v = exec i v :=
          fun v hv => runWord_of_decode hv hd
        obtain ⟨c, hs, halone⟩ := exec_local i hr
        exact ⟨c, (hexec s hf).trans hs, (hexec (State.alone ..) hf).trans halone⟩
  obtain ⟨c, hs, halone⟩ := h
  rw [hs, Context.afterWord, halone]
  rfl

/-- A command step with built tables: the word is taken, the context of its port changes, nothing else. -/
theorem step_with_built_tables (hr : s.tab.ready = true) (hin : s.inbox = .command j w :: rest)
    (h : step s = .next t) :
    t.inbox = rest ∧ t.par = s.par ∧ t.tab = s.tab ∧
      t.contexts = s.contexts.modify j fun c => c.afterWord s.par s.tab w := by
  rcases step_cases h with ⟨hnil, _⟩ | ⟨_, hreset, _⟩ | ⟨j', w', rest', u, hin', hfocus, hrun⟩
  · simp [hin] at hnil
  · simp [hin] at hreset
  · obtain ⟨⟨rfl, rfl⟩, rfl⟩ : (j = j' ∧ w = w') ∧ rest = rest' := by simpa [hin] using hin'
    obtain ⟨_, hget, hu⟩ := focus_eq_some hfocus
    have htab : u.tab = s.tab := by rw [hu]
    have hpar : u.par = s.par := by rw [hu]
    rw [runWord_eq_afterWord w (htab ▸ hr)] at hrun
    obtain rfl := Host.Outcome.next.inj hrun
    refine ⟨by rw [State.setCtx_inbox, hu], hpar, htab, ?_⟩
    have hget' : s.contexts[j]? = some u.ctx := hget
    rw [← State.setTab_self u, contexts_after hfocus, State.setTab_self, hpar, htab,
      List.modify_eq_set_getElem?, hget']
    rfl

/-- A run through inputs without a reset, the tables being built: every context ends as its own words leave it
(R71). -/
theorem runSteps_with_built_tables (inputs : List Input) (hs : s.inbox = inputs) (hr : s.tab.ready = true)
    (hno : Input.reset ∉ inputs) (h : runSteps inputs.length s = .next t) :
    t.tab = s.tab ∧ ∀ k, t.contexts[k]? =
      (s.contexts[k]?).map fun c => (wordsFor k inputs).foldl (Context.afterWord s.par s.tab) c := by
  induction inputs generalizing s with
  | nil =>
    obtain rfl := Host.Outcome.next.inj h
    simp [wordsFor]
  | cons input rest ih =>
    cases input with
    | reset => simp at hno
    | command j w =>
      rw [List.length_cons, runSteps] at h
      split at h
      case h_2 | h_3 => cases h
      case h_1 v hv =>
        obtain ⟨hrest, hpar, htab, hcontexts⟩ := step_with_built_tables hr hs hv
        obtain ⟨htab', hk⟩ := ih hrest (htab ▸ hr) (fun hm => hno (List.mem_cons_of_mem _ hm)) h
        refine ⟨htab'.trans htab, fun k => ?_⟩
        rw [hk, hcontexts, List.getElem?_modify, hpar, htab, wordsFor]
        by_cases hjk : j = k <;> simp [hjk, Function.comp_def]

/-- Settles O13: both runs end the context as the same words leave the same context. -/
theorem contextDependsOnlyOnItsOwnCommands : Obligations.ContextDependsOnlyOnItsOwnCommands := by
  intro s u s' u' k hpar htab hr hctx hs hu hwords hrun hrun'
  obtain ⟨hs', hsk⟩ := runSteps_with_built_tables _ rfl hr hs hrun
  obtain ⟨hu', huk⟩ := runSteps_with_built_tables _ rfl (htab ▸ hr) hu hrun'
  rw [hs', hu', hsk, huk, hctx, hwords, hpar, htab]
  exact ⟨rfl, rfl⟩

end Sys2Proof.Machine
end

section
/-! PROOFS. Loading and building the tables (spec/41_tables.md R140 to R142, R145, R148) and the DC code (R144,
R149). -/

namespace Sys2Proof.Machine

open Sys2Proof

variable {s t : State} {par : Params} {tab : TableUnit}

/-! ### Loads (R140, R141) -/

/-- The index of a `DCPFX` entry lies inside the memory (R35). -/
theorem dcpfxIndex_lt (cls : DcClass) {cat : Nat} (h : cat < 16) : 16 * classNumber cls + cat < 32 := by
  cases cls <;> simp only [classNumber] <;> omega

/-- An index holds one class and one category (R35). -/
theorem dcpfxIndex_inj {cls cls' : DcClass} {cat cat' : Nat} (h : cat < 16) (h' : cat' < 16)
    (heq : 16 * classNumber cls' + cat' = 16 * classNumber cls + cat) : cls' = cls ∧ cat' = cat := by
  cases cls <;> cases cls' <;> simp [classNumber] at heq ⊢ <;> omega

/-- `LDDCP` before the tables are built, of a category there is, writes one entry of `DCPFX` (R140). -/
theorem exec_lddcp (cls : DcClass) {cat : BitVec 4} (len : BitVec 5) (code : BitVec 16)
    (hr : s.tab.ready = false) (hcat : cat.toNat < s.par.dcNcat) :
    exec (.lddcp cls cat len code) s = .next (s.setTab
      { s.tab with dcpfx := Tbl.set s.tab.dcpfx (16 * classNumber cls + cat.toNat) ⟨len, code⟩ }) := by
  simp [exec, execLddcp, hr, hcat]

/-- `LDACE` before the tables are built, of an index of the list, writes one entry of `ACLIST` (R141). -/
theorem exec_ldace {idx : BitVec 7} (run : BitVec 6) (level : BitVec 7) (len : BitVec 5) (code : BitVec 16)
    (hr : s.tab.ready = false) (hidx : idx.toNat ≤ 122) :
    exec (.ldace idx run level len code) s =
      .next (s.setTab { s.tab with aclist := Tbl.set s.tab.aclist idx.toNat ⟨run, level, len, code⟩ }) := by
  simp [exec, execLdace, hr, hidx]

/-- Settles O14: one entry of the memory is written. -/
theorem lddcpStoresOneEntry : Obligations.LddcpStoresOneEntry := by
  intro s cls cat len code hr hcat
  exact ⟨_, exec_lddcp cls len code hr hcat, Tbl.get_set_same _ _ (dcpfxIndex_lt cls cat.isLt),
    fun cls' cat' hcat' hne => Tbl.get_set_other _ _ fun heq => hne (dcpfxIndex_inj cat.isLt hcat' heq), rfl⟩

/-- Settles O15: one entry of the memory is written. -/
theorem ldaceStoresOneEntry : Obligations.LdaceStoresOneEntry := by
  intro s idx run level len code hr hidx
  exact ⟨_, exec_ldace run level len code hr hidx, Tbl.get_set_same _ _ (by omega),
    fun i hne => Tbl.get_set_other _ _ hne, rfl⟩

/-! ### What is built (R142, R145, R148) -/

/-- A difference of the unified tables has a code (R144). -/
theorem dcCode_of_small (hp : par.Legal) (cls : DcClass) {diff : Int} (hd : diff.natAbs ≤ 255) :
    dcCode par tab cls diff = some (dcCodeFrom (tab.dcpfxAt cls (dcCategory diff)) diff) := by
  obtain ⟨_, _, h9, _⟩ := hp
  have h8 := dcCategory_le_eight hd
  rw [dcCode, if_neg (by omega)]

/-- The entry of a difference in a built unified table is its code, which the fields of R37 hold (R142, R144). -/
theorem TablesOk.uniAt_of_diff (h : TablesOk par tab) (hp : par.Legal) (cls : DcClass) {diff : Int}
    (hd : diff.natAbs ≤ 255) :
    uniLen ((buildTables tab).uniAt cls (diff + 255).toNat) =
        (dcCodeFrom (tab.dcpfxAt cls (dcCategory diff)) diff).1 ∧
      uniCode ((buildTables tab).uniAt cls (diff + 255).toNat) =
        (dcCodeFrom (tab.dcpfxAt cls (dcCategory diff)) diff).2 := by
  obtain ⟨_, _, h9, _⟩ := hp
  have h8 := dcCategory_le_eight hd
  have hentry := h.dcpfx cls (dcCategory diff) (by omega)
  obtain ⟨hlen, hcode⟩ := dcCodeFrom_fits hentry diff
  obtain ⟨_, h16, _⟩ := (DcpfxEntry.codeFits_iff _).1 hentry
  have hback : (((diff + 255).toNat : Nat) : Int) - 255 = diff := by omega
  rw [uniAt_build cls (by omega), if_neg (by omega), hback]
  exact ⟨uniLen_uniEntry (by omega),
    uniCode_uniEntry (hcode.trans_le (Nat.pow_le_pow_right (by omega) (by omega)))⟩

/-- Settles O16: the unit built is `buildTables`, read entry by entry. -/
theorem tinitBuildsDcTablesAndCodes : Obligations.TinitBuildsDcTablesAndCodes := by
  intro s hp hr hw
  have hok := tablesWellFormed_iff.1 hw
  refine ⟨_, exec_tinit_builds hr hw, rfl, fun cls diff hlow hhigh => ?_, fun cls => ?_,
    fun i hi => vlcAt_build hi, rfl, rfl, rfl⟩
  · obtain ⟨hlen, hcode⟩ := hok.uniAt_of_diff hp cls (diff := diff) (by omega)
    rw [State.setTab_tab, hlen, hcode, dcCode_of_small hp cls (by omega)]
  · rw [State.setTab_tab, uniAt_build cls (by omega), if_pos rfl]
    rfl

/-- `TINIT` with the tables built does nothing (R142). -/
theorem exec_tinit_of_ready (hr : s.tab.ready = true) : exec .tinit s = .next s := by
  simp [exec, execTinit, hr]

/-- Settles O20: `TINIT` finds the tables built, and the frame of every command keeps built tables. -/
theorem builtTablesNeverChange : Obligations.BuiltTablesNeverChange := by
  intro s hr
  refine ⟨exec_tinit_of_ready hr, fun i t ht => ?_⟩
  obtain ⟨c, tab, hnext, hkeep⟩ := exec_frame i s
  obtain rfl := Host.Outcome.next.inj (hnext.symm.trans ht)
  exact hkeep hr

/-- What is built depends on the two input tables alone (R148). -/
theorem buildTables_congr {tab' : TableUnit} (hdc : tab.dcpfx = tab'.dcpfx) (hac : tab.aclist = tab'.aclist) :
    buildTables tab = buildTables tab' := by
  obtain ⟨dcpfx, aclist⟩ := tab
  obtain ⟨dcpfx', aclist'⟩ := tab'
  obtain rfl : dcpfx = dcpfx' := hdc
  obtain rfl : aclist = aclist' := hac
  rfl

/-- The input check depends on the two input tables and `DC_NCAT` alone (R143). -/
theorem tablesWellFormed_congr {par' : Params} {tab' : TableUnit} (hdc : tab.dcpfx = tab'.dcpfx)
    (hac : tab.aclist = tab'.aclist) (hn : par.dcNcat = par'.dcNcat) :
    tablesWellFormed par tab = tablesWellFormed par' tab' := by
  obtain ⟨dcpfx, aclist⟩ := tab
  obtain ⟨dcpfx', aclist'⟩ := tab'
  obtain rfl : dcpfx = dcpfx' := hdc
  obtain rfl : aclist = aclist' := hac
  unfold tablesWellFormed
  rw [hn]
  rfl

/-- Settles O21: the same inputs pass the same check and build the same unit. -/
theorem sameInputsBuildTheSameTables : Obligations.SameInputsBuildTheSameTables := by
  intro s u s' u' hs hu hdc hac hn hw hs' hu'
  have hw' : tablesWellFormed u.par u.tab = true := (tablesWellFormed_congr hdc hac hn).symm.trans hw
  rw [tab_after_tinit hs hw hs', tab_after_tinit hu hw' hu', buildTables_congr hdc hac]

/-! ### Category and tail (R144) -/

/-- The category of a difference that is not 0 is the number of bits of its magnitude (R144). -/
theorem dcCategory_eq_iff (diff : Int) {c : Nat} (hc : 1 ≤ c) :
    dcCategory diff = c ↔ 2 ^ (c - 1) ≤ diff.natAbs ∧ diff.natAbs < 2 ^ c := by
  obtain ⟨c, rfl⟩ := Nat.exists_eq_add_of_le' hc
  rw [dcCategory, floorLog2_eq_iff (by omega), Nat.add_sub_cancel, Nat.pow_succ 2 (c + 1)]
  have hpow : 2 ^ (c + 1) = 2 * 2 ^ c := by rw [Nat.pow_succ, Nat.mul_comm]
  have hpos : 0 < 2 ^ c := Nat.two_pow_pos c
  omega

theorem dcCategory_eq_zero_iff (diff : Int) : dcCategory diff = 0 ↔ diff = 0 := by
  rw [dcCategory, floorLog2_eq_iff (by omega)]
  omega

theorem dcCategory_neg (diff : Int) : dcCategory (-diff) = dcCategory diff := by
  rw [dcCategory, dcCategory, Int.natAbs_neg]

/-- The magnitude has no more bits than the category says (R144). -/
theorem natAbs_lt_of_dcCategory (diff : Int) : diff.natAbs < 2 ^ dcCategory diff := by
  rcases Nat.eq_zero_or_pos (dcCategory diff) with h | h
  · simp [(dcCategory_eq_zero_iff diff).1 h]
  · exact ((dcCategory_eq_iff diff h).1 rfl).2

/-- The tail of a difference that is not negative is the difference (R144). -/
theorem dcTail_of_nonneg {diff : Int} (h : 0 ≤ diff) : (dcTail diff : Int) = diff := by
  have hlt := natAbs_lt_of_dcCategory diff
  have hmod : diff % ((2 ^ dcCategory diff : Nat) : Int) = diff := Int.emod_eq_of_lt h (by omega)
  push_cast at hmod
  rw [dcTail, dcAdjusted, if_neg (by omega), modPow2, hmod]
  omega

/-- The tail of a negative difference is the complement of its magnitude (R144). -/
theorem dcTail_of_neg {diff : Int} (h : diff < 0) : dcTail diff + diff.natAbs + 1 = 2 ^ dcCategory diff := by
  have hlt := natAbs_lt_of_dcCategory diff
  have hmod : (diff - 1) % ((2 ^ dcCategory diff : Nat) : Int) = diff - 1 + (2 ^ dcCategory diff : Nat) := by
    rw [← Int.add_emod_right]
    exact Int.emod_eq_of_lt (by omega) (by omega)
  have hcast : ((2 ^ dcCategory diff : Nat) : Int) = 2 ^ dcCategory diff := by push_cast; rfl
  rw [dcTail, dcAdjusted, if_pos h, modPow2, ← hcast, hmod]
  omega

/-- Settles O22. -/
theorem dcCategoryAndTail : Obligations.DcCategoryAndTail := fun diff =>
  ⟨dcCategory_eq_zero_iff diff, fun _ hc => dcCategory_eq_iff diff hc, dcTail_of_nonneg, dcTail_of_neg⟩

end Sys2Proof.Machine
end

section
/-! PROOFS. The DC encoder (spec/42_dc.md R170, R171, R173; 41_tables.md R149): the fast path and the slow path
agree, `ENCDC` appends the DC code or raises, and how the lengths of the unified tables grow. -/

namespace Sys2Proof.Machine

open Sys2Proof

variable {s : State} {par : Params} {tab : TableUnit} {t : Site} {c : Context} {cls : DcClass} {diff : Int}

/-! ### Built tables -/

/-- Built tables passed the check. -/
theorem TableUnit.Sound.ok (h : tab.Sound par) (hr : tab.ready = true) : TablesOk par tab :=
  tablesWellFormed_iff.1 (h hr).1

/-- Built tables are the ones their inputs build (R148). -/
theorem TableUnit.Sound.built (h : tab.Sound par) (hr : tab.ready = true) : buildTables tab = tab := (h hr).2

/-! ### `EncodeDC` (R170, R173) -/

/-- `EncodeDC` of a difference with a code puts that code, on the fast path and on the slow path (R173). -/
theorem encodeDC_build (h : TablesOk par tab) (hp : par.Legal) (hd : dcCategory diff < par.dcNcat) :
    encodeDC par (buildTables tab) t cls diff c =
      putBits par t (dcCodeFrom (tab.dcpfxAt cls (dcCategory diff)) diff).1
        (dcCodeFrom (tab.dcpfxAt cls (dcCategory diff)) diff).2 c := by
  unfold encodeDC
  split
  case isTrue hfast =>
    obtain ⟨hlen, hcode⟩ := h.uniAt_of_diff hp cls (diff := diff) (by omega)
    simp only [hlen, hcode]
  case isFalse =>
    rw [dcCode, if_neg (by omega)]
    rfl

/-- `EncodeDC` of a difference with no code raises (R144, R170, R243): its magnitude is past the fast path. -/
theorem encodeDC_without_code (hp : par.Legal) (hd : par.dcNcat ≤ dcCategory diff) :
    encodeDC par tab t cls diff c = .raised (c.raise .internalInvariantViolated t) := by
  obtain ⟨_, _, h9, _⟩ := hp
  have hslow : ¬(-255 ≤ diff ∧ diff ≤ 255) := fun hfast => by
    have := dcCategory_le_eight (diff := diff) (by omega)
    omega
  rw [encodeDC, if_neg hslow, dcCode, if_pos hd]

/-- Settles O23, by whether the category has an entry. -/
theorem dcFastPathAgreesWithSlowPath : Obligations.DcFastPathAgreesWithSlowPath := by
  intro par tab t cls diff c hp hr hs
  rcases Nat.lt_or_ge (dcCategory diff) par.dcNcat with hd | hd
  · have hbuild := encodeDC_build (t := t) (cls := cls) (c := c) (hs.ok hr) hp hd
    rw [hs.built hr] at hbuild
    rw [hbuild, dcCode, if_neg (by omega)]
  · rw [encodeDC_without_code hp hd, dcCode, if_pos hd]

/-- The number of bits of a DC code of the wire format (R107). -/
theorem wireDc_length (tab : TableUnit) (cls : DcClass) (diff : Int) :
    (wireDc tab cls diff).length = (dcCodeFrom (tab.dcpfxAt cls (dcCategory diff)) diff).1 := by
  simp [wireDc, dcCodeFrom, bitsOf_length]

/-- `EncodeDC` past the capacity raises and writes nothing (R170, R247). -/
theorem encodeDC_overflow (h : TablesOk par tab) (hp : par.Legal) (hd : dcCategory diff < par.dcNcat)
    (hover : 8 * par.outCap < c.wr.bitPos + (wireDc tab cls diff).length) :
    encodeDC par (buildTables tab) t cls diff c = .raised (c.raise .outputOverflow t) := by
  rw [encodeDC_build h hp hd, putBits_overflow (by rwa [← wireDc_length])]

/-! ### `ENCDC` (R171) -/

/-- `ENCDC` inside a picture with built tables is `EncodeDC` on the served context (R171). -/
theorem exec_encdc (hf : s.ctx.fsm = .inPicture) (hr : s.tab.ready = true) (cls : DcClass) (diff : BitVec 32) :
    exec (.encdc cls diff) s =
      .next (s.setCtx (encodeDC s.par s.tab (.plain 0x20) cls diff.toInt s.ctx).context) := by
  simp [exec, execEncdc, State.commit, require_of (Context.inPicture_of hf), hr, require_true, sext32]

/-- Settles O25: `EncodeDC` emits the wire code, and emitting is seen through the writer's reads. -/
theorem encdcAppendsTheDcCode : Obligations.EncdcAppendsTheDcCode := by
  intro s cls diff hf hp hr hs hw hd hfit
  have hran := encodeDC_ran (t := .plain 0x20) hp (hs.ok hr) cls hd hfit
  rw [hs.built hr] at hran
  exact ⟨_, by rw [exec_encdc hf hr, hran], hw.appended _, rfl⟩

/-- Settles O26: each clause is one way `EncodeDC` raises. -/
theorem encdcRaisesAndAppendsNothing : Obligations.EncdcRaisesAndAppendsNothing := by
  intro s cls diff hf hr hp
  refine ⟨fun hd => ?_, fun hs hd hover => ?_⟩
  · rw [exec_encdc hf hr, encodeDC_without_code hp hd, Flow.context_raised, Context.raise_plain]
    rfl
  · have hraised := encodeDC_overflow (t := .plain 0x20) (hs.ok hr) hp hd hover
    rw [hs.built hr] at hraised
    rw [exec_encdc hf hr, hraised, Flow.context_raised, Context.raise_plain]
    rfl

/-! ### Lengths in the unified tables (R149) -/

/-- A larger magnitude has no smaller category (R144). -/
theorem dcCategory_mono {d e : Nat} (h : d ≤ e) : dcCategory d ≤ dcCategory e := by
  rw [dcCategory, dcCategory, floorLog2, floorLog2, Int.natAbs_natCast, Int.natAbs_natCast]
  rw [Nat.log2_eq_log_two, Nat.log2_eq_log_two]
  exact Nat.log_mono_right (by omega)

/-- The powers of 2 open the categories (R144). -/
theorem dcCategory_two_pow (c : Nat) : dcCategory ((2 ^ c : Nat) : Int) = c + 1 := by
  rw [dcCategory_eq_iff _ (Nat.le_add_left 1 c), Int.natAbs_natCast, Nat.add_sub_cancel]
  exact ⟨Nat.le_refl _, Nat.pow_lt_pow_right (by decide) (Nat.lt_succ_self c)⟩

/-- The numbers before the powers of 2 close the categories (R144). -/
theorem dcCategory_two_pow_sub_one (c : Nat) : dcCategory ((2 ^ c - 1 : Nat) : Int) = c := by
  rcases Nat.eq_zero_or_pos c with rfl | hc
  · rfl
  · rw [dcCategory_eq_iff _ hc, Int.natAbs_natCast]
    have hhalf : 2 ^ (c - 1) + 2 ^ (c - 1) = 2 ^ c := Nat.two_pow_pred_add_two_pow_pred hc
    have hpos := Nat.two_pow_pos (c - 1)
    omega

/-- The length of a DC code with category `c` (R144). -/
def dcLength (tab : TableUnit) (cls : DcClass) (c : Nat) : Nat := (tab.dcpfxAt cls c).len.toNat + c

/-- The length in a built unified table is that of the category of the difference (R142, R144). -/
theorem TablesOk.uniLen_of_diff (h : TablesOk par tab) (hp : par.Legal) (cls : DcClass)
    (hd : diff.natAbs ≤ 255) :
    uniLen ((buildTables tab).uniAt cls (diff + 255).toNat) = dcLength tab cls (dcCategory diff) :=
  (h.uniAt_of_diff hp cls hd).1

/-- Lengths grow with the magnitude exactly when they grow from each category to the next (R149). -/
theorem dcLength_mono_iff (len : Nat → Nat) :
    (∀ d e : Nat, d ≤ e → e ≤ 255 → len (dcCategory d) ≤ len (dcCategory e)) ↔
      ∀ c, c < 8 → len c ≤ len (c + 1) := by
  constructor
  · intro h c hc
    have hpow : 2 ^ c ≤ 2 ^ 7 := Nat.pow_le_pow_right (by decide) (by omega)
    have hstep := h (2 ^ c - 1) (2 ^ c) (Nat.sub_le _ _) (by omega)
    rwa [dcCategory_two_pow_sub_one, dcCategory_two_pow] at hstep
  · intro h d e hde he
    have h8 := dcCategory_le_eight (diff := (e : Int)) (by omega)
    have hchain : ∀ b, dcCategory d ≤ b → b ≤ 8 → len (dcCategory d) ≤ len b := by
      intro b hb
      induction b, hb using Nat.le_induction with
      | base => exact fun _ => Nat.le_refl _
      | succ b _ ih => exact fun hb8 => (ih (by omega)).trans (h b (by omega))
    exact hchain _ (dcCategory_mono hde) h8

/-- Settles O24: lengths in the tables are lengths of categories, which depend on the magnitude. -/
theorem dcLengthsSymmetricAndMonotone : Obligations.DcLengthsSymmetricAndMonotone := by
  intro par tab cls hp hr hs
  have hup : ∀ d : Nat, d ≤ 255 → uniLen (tab.uniAt cls (255 + d)) = dcLength tab cls (dcCategory d) := by
    intro d hd
    have hlen := (hs.ok hr).uniLen_of_diff hp cls (diff := d) (by omega)
    rwa [hs.built hr, show ((d : Int) + 255).toNat = 255 + d by omega] at hlen
  have hdown : ∀ d : Nat, d ≤ 255 → uniLen (tab.uniAt cls (255 - d)) = dcLength tab cls (dcCategory d) := by
    intro d hd
    have hlen := (hs.ok hr).uniLen_of_diff hp cls (diff := -d) (by omega)
    rwa [hs.built hr, dcCategory_neg, show (-(d : Int) + 255).toNat = 255 - d by omega] at hlen
  refine ⟨fun d hd => (hup d hd).trans (hdown d hd).symm, ?_⟩
  refine Iff.trans ?_ (dcLength_mono_iff (dcLength tab cls))
  refine forall₂_congr fun d e => forall₂_congr fun hde he => ?_
  rw [hup d (hde.trans he), hup e he]

end Sys2Proof.Machine
end

section
/-! PROOFS. The block encoder (spec/43_block.md R180 to R184): the loads, the wire format `ENCBLK` emits, and where
it stops when a code cannot be sent. -/

namespace Sys2Proof.Machine

open Sys2Proof

variable {s : State} {par : Params} {tab : TableUnit} {t : Site} {op : BitVec 8} {c : Context}

/-! ### Loads (R180 to R182) -/

/-- `LDSCAN` outside a picture writes one entry of `SCAN` (R180). -/
theorem exec_ldscan (hout : s.ctx.fsm = .idle ∨ s.ctx.fsm = .done) (k j : BitVec 6) :
    exec (.ldscan k j) s = .next (s.setCtx { s.ctx with scan := Tbl.set s.ctx.scan k.toNat j }) := by
  rw [exec, execLdscan, require_of (Context.outsidePicture_iff.2 hout)]
  rfl

/-- `LDCOEF` of a block there is writes one entry of `COEF` (R181). -/
theorem exec_ldcoef {blk : BitVec 4} (hblk : blk.toNat ≤ 11) (pos : BitVec 6) (value : BitVec 16) :
    exec (.ldcoef blk pos value) s =
      .next (s.setCtx { s.ctx with coef := Tbl.set s.ctx.coef (64 * blk.toNat + pos.toNat) value }) := by
  rw [exec, execLdcoef, require_of (decide_eq_true hblk)]
  rfl

/-- `LDLAST` of a block there is writes one entry of `LAST` (R182). -/
theorem exec_ldlast {blk : BitVec 4} (hblk : blk.toNat ≤ 11) (last : BitVec 6) :
    exec (.ldlast blk last) s = .next (s.setCtx { s.ctx with last := Tbl.set s.ctx.last blk.toNat last }) := by
  rw [exec, execLdlast, require_of (decide_eq_true hblk)]
  rfl

/-- Settles O27: one entry of the memory is written. -/
theorem ldscanStoresOneEntry : Obligations.LdscanStoresOneEntry := by
  intro s k j hout
  exact ⟨_, exec_ldscan hout k j, congrArg BitVec.toNat (Tbl.get_set_same _ _ k.isLt),
    fun i hne => congrArg BitVec.toNat (Tbl.get_set_other _ _ hne), rfl⟩

/-- Settles O28: one entry of the memory is written, and an index holds one block and one position. -/
theorem ldcoefStoresOneCoefficient : Obligations.LdcoefStoresOneCoefficient := by
  intro s blk pos value hblk
  have hpos := pos.isLt
  exact ⟨_, exec_ldcoef hblk pos value, congrArg sext16 (Tbl.get_set_same _ _ (by omega)),
    fun n p hp hne => congrArg sext16 (Tbl.get_set_other _ _ (by omega)), rfl⟩

/-- Settles O29: one entry of the memory is written. -/
theorem ldlastStoresOneIndex : Obligations.LdlastStoresOneIndex := by
  intro s blk last hblk
  exact ⟨_, exec_ldlast hblk last, congrArg BitVec.toNat (Tbl.get_set_same _ _ (by omega)),
    fun n hne => congrArg BitVec.toNat (Tbl.get_set_other _ _ hne), rfl⟩

/-! ### `ENCBLK` (R184) -/

/-- `ENCBLK` with its requirements met is `EncodeBlock` on the served context (R184). -/
theorem exec_encblk {n : BitVec 4} (hf : s.ctx.fsm = .inPicture) (hr : s.tab.ready = true)
    (hn : n.toNat ≤ 11) :
    exec (.encblk n) s = .next (s.setCtx (encodeBlock s.par s.tab 0x21 n.toNat s.ctx).context) := by
  rw [exec, execEncblk, require_of (Context.inPicture_of hf), require_of hr, require_of (decide_eq_true hn)]
  rfl

/-- After a block the predictor of its component is its DC coefficient (R24, R183). -/
theorem nextPredictors_same (c : Context) (n : Nat) (dc : Vector (BitVec 16) 3) :
    sext16 (Tbl.get (nextPredictors c n dc) (component n)) = c.coefAt n 0 :=
  congrArg sext16 (Tbl.get_set_same _ _ (component_lt n))

/-- The other predictors stand (R183). -/
theorem nextPredictors_other (c : Context) {n i : Nat} (dc : Vector (BitVec 16) 3) (h : i ≠ component n) :
    sext16 (Tbl.get (nextPredictors c n dc) i) = sext16 (Tbl.get dc i) :=
  congrArg sext16 (Tbl.get_set_other _ _ h)

/-- Settles O30: `EncodeBlock` emits the wire format, and emitting is seen through the writer's reads. -/
theorem encblkEmitsTheWireFormat : Obligations.EncblkEmitsTheWireFormat := by
  intro s n hf hn hp hr hs hw hfits hroom
  have hran := encodeBlock_ran (op := 0x21) hp (hs.ok hr) hfits hroom
  rw [hs.built hr] at hran
  generalize wireBlock s.tab s.ctx n.toNat (s.ctx.lastDcAt (component n.toNat)) = bits at hran ⊢
  refine ⟨s.setCtx (s.ctx.emitted bits (nextPredictors s.ctx n.toNat s.ctx.lastDc)), ?_, hw.appended bits,
    nextPredictors_same .., fun i hi => nextPredictors_other _ _ hi, rfl⟩
  rw [exec_encblk hf hr hn, hran, Flow.context_ran]

/-- Nothing run after a piece of pseudocode leaves it as it is. -/
theorem Flow.andThen_pure (f : Flow) : f.andThen Flow.ran = f := by cases f <;> rfl

/-- Only a context the first part ran to is handed on. -/
theorem Flow.andThen_congr {f : Flow} {k k' : Context → Flow} (h : ∀ c, f = .ran c → k c = k' c) :
    f.andThen k = f.andThen k' := by
  cases f with
  | ran c => exact h c rfl
  | raised c => rfl

/-! ### Appends one by one (R183, R249)

`EncodeBlock` is the list of its appends, each made under its scan position; before an append of the AC loop the
level at that position is tested. -/

/-- `PutBits` of a list of bits (R130, R247). -/
def putList (par : Params) (t : Site) (bits : List Bool) (c : Context) : Flow :=
  if 8 * par.outCap < c.wr.bitPos + bits.length then .raised (c.raise .outputOverflow t)
  else .ran (c.setWriter (c.wr.emit bits))

theorem putBits_eq_putList (n v : Nat) (c : Context) : putBits par t n v c = putList par t (bitsOf n v) c := by
  rw [putBits, putList, bitsOf_length]

theorem putList_fits {bits : List Bool} (h : c.wr.bitPos + bits.length ≤ 8 * par.outCap) :
    putList par t bits c = .ran (c.setWriter (c.wr.emit bits)) := by
  rw [putList, if_neg (by omega)]

theorem putList_overflow {bits : List Bool} (h : 8 * par.outCap < c.wr.bitPos + bits.length) :
    putList par t bits c = .raised (c.raise .outputOverflow t) := by
  rw [putList, if_pos h]

theorem escapable_iff {level : Int} : escapable level = true ↔ LevelOk level := by
  simp [escapable, LevelOk]

/-- The level block `n` has at a scan position (R183). -/
def Context.levelAt (c : Context) (n pos : Nat) : Int := c.coefAt n (c.scanAt pos)

/-- An append under a scan position of block `n`: past position 0 the level there must lie in an escape's range
(R183, R249). -/
def putAt (par : Params) (op : BitVec 8) (n : Nat) (level : Nat → Int) (p : Nat × List Bool) (c : Context) :
    Flow :=
  if 1 ≤ p.1 ∧ escapable (level p.1) = false then
    .raised (c.raise .internalInvariantViolated (.inBlock op n p.1))
  else putList par (.inBlock op n p.1) p.2 c

/-- Appends one after another, up to the first fault. -/
def putAll (par : Params) (op : BitVec 8) (n : Nat) (level : Nat → Int) :
    List (Nat × List Bool) → Context → Flow
  | [], c => .ran c
  | p :: rest, c => (putAt par op n level p c).andThen (putAll par op n level rest)

section
variable {n : Nat} {level : Nat → Int} {p : Nat × List Bool} {before rest : List (Nat × List Bool)}

theorem putAt_of_levelOk (h : 1 ≤ p.1 → LevelOk (level p.1)) :
    putAt par op n level p c = putList par (.inBlock op n p.1) p.2 c := by
  rw [putAt, if_neg fun hbad => by simp [escapable_iff.2 (h hbad.1)] at hbad]

theorem putAt_of_not_levelOk (h1 : 1 ≤ p.1) (h : ¬LevelOk (level p.1)) :
    putAt par op n level p c = .raised (c.raise .internalInvariantViolated (.inBlock op n p.1)) := by
  rw [putAt, if_pos ⟨h1, by rwa [← Bool.not_eq_true, escapable_iff]⟩]

theorem putAll_append (ps qs : List (Nat × List Bool)) (c : Context) :
    putAll par op n level (ps ++ qs) c =
      (putAll par op n level ps c).andThen (putAll par op n level qs) := by
  induction ps generalizing c with
  | nil => rfl
  | cons p ps ih =>
    simp only [List.cons_append, putAll, Flow.andThen_assoc]
    congr 1
    exact funext ih

/-- Appends that pass the test and fit stand one after another (R130, R183). -/
theorem putAll_ran {ps : List (Nat × List Bool)} (hok : ∀ p ∈ ps, 1 ≤ p.1 → LevelOk (level p.1))
    (hfit : c.wr.bitPos + (ps.map Prod.snd).flatten.length ≤ 8 * par.outCap) :
    putAll par op n level ps c = .ran (c.setWriter (c.wr.emit (ps.map Prod.snd).flatten)) := by
  induction ps generalizing c with
  | nil => rfl
  | cons p ps ih =>
    obtain ⟨hp, hok⟩ := List.forall_mem_cons.1 hok
    simp only [List.map_cons, List.flatten_cons, List.length_append] at hfit ⊢
    rw [putAll, putAt_of_levelOk hp, putList_fits (by omega), Flow.andThen_ran,
      ih hok (by rw [Context.setWriter_wr, Writer.emit_bitPos]; omega), Context.setWriter_wr,
      Context.setWriter_setWriter, Writer.emit_append]

variable (hfit : c.wr.bitPos + (before.map Prod.snd).flatten.length ≤ 8 * par.outCap)
include hfit

/-- The first append that fails the test stops the rest; what stood before it stands (R183, R249). -/
theorem putAll_level_out_of_range (hok : ∀ q ∈ before, 1 ≤ q.1 → LevelOk (level q.1)) (h1 : 1 ≤ p.1)
    (hbad : ¬LevelOk (level p.1)) :
    putAll par op n level (before ++ p :: rest) c =
      .raised ((c.setWriter (c.wr.emit (before.map Prod.snd).flatten)).raise .internalInvariantViolated
        (.inBlock op n p.1)) := by
  rw [putAll_append, putAll_ran hok hfit, Flow.andThen_ran, putAll, putAt_of_not_levelOk h1 hbad,
    Flow.andThen_raised]

/-- The first append that does not fit stops the rest; what stood before it stands (R130, R247). -/
theorem putAll_overflow (hok : ∀ q ∈ before ++ [p], 1 ≤ q.1 → LevelOk (level q.1))
    (hover : 8 * par.outCap < c.wr.bitPos + (before.map Prod.snd).flatten.length + p.2.length) :
    putAll par op n level (before ++ p :: rest) c =
      .raised ((c.setWriter (c.wr.emit (before.map Prod.snd).flatten)).raise .outputOverflow
        (.inBlock op n p.1)) := by
  obtain ⟨hbefore, hp⟩ := List.forall_mem_append.1 hok
  rw [putAll_append, putAll_ran hbefore hfit, Flow.andThen_ran, putAll,
    putAt_of_levelOk (hp p (List.mem_singleton.2 rfl)),
    putList_overflow (by rw [Context.setWriter_wr, Writer.emit_bitPos]; exact hover), Flow.andThen_raised]

end

/-! ### `EncodeBlock` as its appends (R183) -/

/-- A listed level lies in an escape's range: the list holds levels of 7 bits (R36). -/
theorem levelOk_of_le_greatestOfRun {run : Nat} {l : Int} (h : l.natAbs ≤ greatestOfRun tab run) : LevelOk l := by
  have := greatestOfRun_lt (tab := tab) run
  unfold LevelOk
  omega

/-- One non-zero coefficient is its appends under its position: the test of the escape is one of the position, as a
listed level passes it. -/
theorem encodeLevel_eq_putAll (h : TablesOk par tab) {n i run : Nat} {level : Nat → Int} (hi : 1 ≤ i)
    (hrun : run < 64) (hl : level i ≠ 0) :
    encodeLevel par (buildTables tab) (.inBlock op n i) run (level i) c =
      putAll par op n level ((acAppends tab run (level i)).map fun b => (i, b)) c := by
  have h1 : 1 ≤ (level i).natAbs := Int.natAbs_pos.2 hl
  rw [encodeLevel, maxLevelAt_build hrun, acAppends, h.aceFor_eq h1]
  split
  case isTrue hle =>
    obtain ⟨hindex, _, _⟩ := h.entry_of_level h1 hle
    have hok : ∀ b : List Bool, 1 ≤ (i, b).1 → LevelOk (level (i, b).1) :=
      fun _ _ => levelOk_of_le_greatestOfRun hle
    have hcode := bitsOf_signed (h.ace _ (Nat.lt_succ_of_le hindex)) (level i)
    rw [indexRunAt_build hrun, vlcAt_build (by omega)]
    simp only [List.map_cons, List.map_nil, putAll, putBits_eq_putList, hcode]
    rw [putAt_of_levelOk (hok _), Flow.andThen_pure]
  case isFalse hgt =>
    cases he : escapable (level i)
    · simp only [List.map_cons, List.map_nil, putAll]
      rw [putAt_of_not_levelOk hi (by rw [← escapable_iff, he]; decide)]
      rfl
    · have hput : ∀ b, putAt par op n level (i, b) = putList par (.inBlock op n i) b :=
        fun _ => funext fun _ => putAt_of_levelOk fun _ => escapable_iff.1 he
      have hbits : ∀ k v, putBits par (.inBlock op n i) k v = putList par (.inBlock op n i) (bitsOf k v) :=
        fun k v => funext fun c => putBits_eq_putList k v c
      simp only [List.map_cons, List.map_nil, putAll, hbits, hput, Flow.andThen_assoc, Flow.andThen_pure]
      rfl

/-- The AC loop from scan position `i` on is the appends of its levels, `last_nonzero_position` being `z` (R183). -/
theorem encodeAc_eq_putAll (h : TablesOk par tab) {n m i z : Nat} {level : Nat → Int} (hz : z < i)
    (him : i + m ≤ 64) (hc : c.levelAt n = level) :
    encodeAc par (buildTables tab) op n (List.range' i m) z c =
      putAll par op n level (levelAppends tab i (i - z - 1) ((List.range' i m).map level)) c := by
  induction m generalizing i z c with
  | zero => rfl
  | succ m ih =>
    have hi : c.coefAt n (c.scanAt i) = level i := congrFun hc i
    simp only [List.range'_succ, List.map_cons, encodeAc, levelAppends, hi]
    split
    case isTrue =>
      rw [ih (by omega) (by omega) hc, show i + 1 - z - 1 = i - z - 1 + 1 by omega]
    case isFalse hl =>
      have hrest : ∀ c', encodeLevel par (buildTables tab) (.inBlock op n i) (i - z - 1) (level i) c = .ran c' →
          encodeAc par (buildTables tab) op n (List.range' (i + 1) m) i c' =
            putAll par op n level (levelAppends tab (i + 1) 0 ((List.range' (i + 1) m).map level)) c' := by
        intro c' hran
        obtain ⟨bits, dc, rfl⟩ := (encodeLevel_encodes (t := .inBlock op n i) _ _).ran_frame hran
        rw [ih (c := c.emitted bits dc) (by omega) (by omega) hc, show i + 1 - i - 1 = 0 by omega]
      rw [Flow.andThen_congr hrest, encodeLevel_eq_putAll h (by omega) (by omega) hl, putAll_append]

/-- The appends of a block after its DC code (R183). -/
def acPartAppends (tab : TableUnit) (c : Context) (n : Nat) : List (Nat × List Bool) :=
  levelAppends tab 1 0 (scannedLevels c n) ++ [(0, bitsOf 4 6)]

section
variable {n : Nat} (h : TablesOk par tab) (hp : par.Legal)
  (hd : dcCategory (c.lastDcAt (component n) - c.coefAt n 0) < par.dcNcat)
include h hp hd

/-- A block whose DC code fits goes on with the appends of its levels and the end-of-block (R183). -/
theorem encodeBlock_after_dc
    (hfit : c.wr.bitPos + (wireDc tab (blockClass n) (c.lastDcAt (component n) - c.coefAt n 0)).length ≤
      8 * par.outCap) :
    encodeBlock par (buildTables tab) op n c =
      putAll par op n (c.levelAt n) (acPartAppends tab c n)
        (c.emitted (wireDc tab (blockClass n) (c.lastDcAt (component n) - c.coefAt n 0))
          (nextPredictors c n c.lastDc)) := by
  have hlast : c.lastAt n < 64 := (Tbl.get c.last n).isLt
  have hdc := encodeBlockDC_ran (op := op) hp h hd hfit
  generalize wireDc tab (blockClass n) (c.lastDcAt (component n) - c.coefAt n 0) = bits at hdc ⊢
  rw [encodeBlock, hdc, Flow.andThen_ran, Context.emitted_lastAt,
    encodeAc_eq_putAll (c := c.emitted bits _) (level := c.levelAt n) h (by omega) (by omega) rfl,
    acPartAppends, putAll_append]
  refine Flow.andThen_congr fun c' _ => ?_
  rw [putAll, putAt_of_levelOk (fun h1 => absurd h1 (by decide)), putBits_eq_putList]
  exact (Flow.andThen_pure _).symm

/-- A block whose DC code does not fit writes nothing and keeps its predictor (R183, R247). -/
theorem encodeBlock_dc_overflow
    (hover : 8 * par.outCap <
      c.wr.bitPos + (wireDc tab (blockClass n) (c.lastDcAt (component n) - c.coefAt n 0)).length) :
    encodeBlock par (buildTables tab) op n c = .raised (c.raise .outputOverflow (.inBlock op n 0)) := by
  rw [encodeBlock, encodeBlockDC, encodeDC_overflow h hp hd hover]
  rfl

end

/-- A block whose DC difference has no code writes nothing and keeps its predictor (R183, R243). -/
theorem encodeBlock_without_code {n : Nat} (hp : par.Legal)
    (hd : par.dcNcat ≤ dcCategory (c.lastDcAt (component n) - c.coefAt n 0)) :
    encodeBlock par tab op n c = .raised (c.raise .internalInvariantViolated (.inBlock op n 0)) := by
  rw [encodeBlock, encodeBlockDC, encodeDC_without_code hp hd]
  rfl

/-! ### Where `ENCBLK` stops -/

/-- `FAULT_INFO` of a fault at scan position `i` of a block (R250). -/
theorem Site.info_inBlock (op : BitVec 8) (n : BitVec 4) (i : Nat) :
    (Site.inBlock op n.toNat i).info = op ++ n ++ BitVec.ofNat 6 i ++ 0#14 := by
  simp [Site.info, Site.inBlock]

/-- At scan position 0 the fields below the block index are 0 (R250). -/
theorem Site.info_inBlock_zero (op : BitVec 8) (n : BitVec 4) :
    (Site.inBlock op n.toNat 0).info = op ++ n ++ 0#20 := by
  rw [Site.info_inBlock]
  ext i hi
  change (op ++ n ++ 0#6 ++ 0#14)[i] = (op ++ n ++ 0#20)[i]
  simp only [BitVec.getElem_append]
  grind

/-- Settles O32: `EncodeDC` raises before anything else is done. -/
theorem encblkDcWithoutPrefixAborts : Obligations.EncblkDcWithoutPrefixAborts := by
  intro s n hf hn hp hr hd
  rw [exec_encblk hf hr hn, encodeBlock_without_code hp hd, Flow.context_raised, Context.raise,
    Site.info_inBlock_zero]
  rfl

/-- The appends of a scanned vector stand under the positions of its levels (R183). -/
theorem levelAppends_position {i z : Nat} {levels : List Int} {p : Nat × List Bool}
    (h : p ∈ levelAppends tab i z levels) : i ≤ p.1 ∧ p.1 < i + levels.length := by
  induction levels generalizing i z with
  | nil => simp [levelAppends] at h
  | cons l rest ih =>
    rw [levelAppends] at h
    rw [List.length_cons]
    split at h
    case isTrue =>
      have := ih h
      omega
    case isFalse =>
      rcases List.mem_append.1 h with h | h
      · obtain ⟨b, _, rfl⟩ := List.mem_map.1 h
        exact ⟨Nat.le_refl i, by simp⟩
      · have := ih h
        omega

/-- A level that is not 0 has an append under its position, after those of the levels before it (R183). -/
theorem levelAppends_split (i z : Nat) (before after : List Int) {l : Int} (hl : l ≠ 0) :
    ∃ b rest, levelAppends tab i z (before ++ l :: after) =
      levelAppends tab i z before ++ (i + before.length, b) :: rest := by
  induction before generalizing i z with
  | nil =>
    obtain ⟨b, bs, hb⟩ : ∃ b bs, acAppends tab z l = b :: bs := by
      unfold acAppends
      split
      exacts [⟨_, _, rfl⟩, ⟨_, _, rfl⟩]
    exact ⟨b, bs.map (fun b => (i, b)) ++ levelAppends tab (i + 1) 0 after, by simp [levelAppends, hl, hb]⟩
  | cons l' before ih =>
    by_cases hl' : l' = 0
    · obtain ⟨b, rest, h⟩ := ih (i + 1) (z + 1)
      exact ⟨b, rest, by simp [levelAppends, hl', h]; omega⟩
    · obtain ⟨b, rest, h⟩ := ih (i + 1) 0
      exact ⟨b, rest, by simp [levelAppends, hl', h]; omega⟩

/-- The scanned levels cut at a position (R10). -/
theorem scannedLevels_split {n i : Nat} (h1 : 1 ≤ i) (hi : i ≤ c.lastAt n) :
    ∃ after, scannedLevels c n = (List.range' 1 (i - 1)).map (c.levelAt n) ++ c.levelAt n i :: after := by
  refine ⟨(List.range' (i + 1) (c.lastAt n - i)).map (c.levelAt n), ?_⟩
  have hcut : List.range' 1 (c.lastAt n) = List.range' 1 (i - 1) ++ i :: List.range' (i + 1) (c.lastAt n - i) := by
    rw [← List.range'_succ]
    obtain ⟨k, rfl⟩ := Nat.exists_eq_add_of_le h1
    rw [Nat.add_sub_cancel_left, List.range'_append_1]
    congr 1
    omega
  rw [← List.map_cons, ← List.map_append, ← hcut]
  rfl

section
variable {n : Nat} (h : TablesOk par tab) (hp : par.Legal)
  (hd : dcCategory (c.lastDcAt (component n) - c.coefAt n 0) < par.dcNcat)
include h hp hd

/-- The first level in no escape's range stops a block; the codes before it stand (R183, R243): the appends before
its position pass the test and fit, the first one at it fails the test. -/
theorem encodeBlock_level_out_of_range {i : Nat} (h1 : 1 ≤ i) (hi : i ≤ c.lastAt n)
    (hok : ∀ k, 1 ≤ k → k < i → LevelOk (c.levelAt n k)) (hbad : ¬LevelOk (c.levelAt n i))
    (hfit : c.wr.bitPos + (wireDc tab (blockClass n) (c.lastDcAt (component n) - c.coefAt n 0) ++
      wireLevels tab 0 ((List.range' 1 (i - 1)).map (c.levelAt n))).length ≤ 8 * par.outCap) :
    encodeBlock par (buildTables tab) op n c =
      .raised ((c.emitted (wireDc tab (blockClass n) (c.lastDcAt (component n) - c.coefAt n 0) ++
        wireLevels tab 0 ((List.range' 1 (i - 1)).map (c.levelAt n))) (nextPredictors c n c.lastDc)).raise
          .internalInvariantViolated (.inBlock op n i)) := by
  have hl : c.levelAt n i ≠ 0 := fun h0 => hbad (by rw [h0]; unfold LevelOk; omega)
  obtain ⟨after, hscan⟩ := scannedLevels_split h1 hi
  generalize hlevels : (List.range' 1 (i - 1)).map (c.levelAt n) = levels at hscan hfit ⊢
  have hlen : 1 + levels.length = i := by rw [← hlevels]; simp; omega
  obtain ⟨b, rest, hsplit⟩ := levelAppends_split (tab := tab) 1 0 levels after hl
  have hflat := levelAppends_flatten (tab := tab) 1 0 levels
  have hbefore : ∀ q ∈ levelAppends tab 1 0 levels, 1 ≤ q.1 → LevelOk (c.levelAt n q.1) := by
    intro q hq hq1
    obtain ⟨_, hqlt⟩ := levelAppends_position hq
    exact hok q.1 hq1 (by omega)
  rw [List.length_append] at hfit
  rw [encodeBlock_after_dc h hp hd (by omega), acPartAppends, hscan, hsplit, hlen, List.append_assoc,
    List.cons_append]
  generalize wireDc tab (blockClass n) (c.lastDcAt (component n) - c.coefAt n 0) = dcBits at hfit ⊢
  have hroom : (c.emitted dcBits (nextPredictors c n c.lastDc)).wr.bitPos +
      ((levelAppends tab 1 0 levels).map Prod.snd).flatten.length ≤ 8 * par.outCap := by
    rw [hflat, Context.emitted_wr, Writer.emit_bitPos]
    omega
  rw [putAll_level_out_of_range (level := c.levelAt n) (p := (i, b)) hroom hbefore h1 hbad, hflat,
    Context.setWriter_emit, Context.emitted_emitted, Context.emitted_lastDc]

/-- The first append after the DC code that does not fit stops a block; the appends before it stand (R183, R247). -/
theorem encodeBlock_append_overflow {m pos : Nat} {bits : List Bool}
    (hm : (acPartAppends tab c n)[m]? = some (pos, bits))
    (hok : ∀ p ∈ (acPartAppends tab c n).take (m + 1), 1 ≤ p.1 → LevelOk (c.levelAt n p.1))
    (hfit : c.wr.bitPos + (wireDc tab (blockClass n) (c.lastDcAt (component n) - c.coefAt n 0) ++
      (((acPartAppends tab c n).take m).map Prod.snd).flatten).length ≤ 8 * par.outCap)
    (hover : 8 * par.outCap < c.wr.bitPos + (wireDc tab (blockClass n)
      (c.lastDcAt (component n) - c.coefAt n 0) ++
      (((acPartAppends tab c n).take m).map Prod.snd).flatten).length + bits.length) :
    encodeBlock par (buildTables tab) op n c =
      .raised ((c.emitted (wireDc tab (blockClass n) (c.lastDcAt (component n) - c.coefAt n 0) ++
        (((acPartAppends tab c n).take m).map Prod.snd).flatten) (nextPredictors c n c.lastDc)).raise
          .outputOverflow (.inBlock op n pos)) := by
  rw [List.length_append] at hfit hover
  rw [encodeBlock_after_dc h hp hd (by omega)]
  generalize wireDc tab (blockClass n) (c.lastDcAt (component n) - c.coefAt n 0) = dcBits at hfit hover ⊢
  generalize acPartAppends tab c n = appends at hm hok hfit hover ⊢
  obtain ⟨hlt, hget⟩ := List.getElem?_eq_some_iff.1 hm
  rw [List.take_add_one, hm] at hok
  have hroom : (c.emitted dcBits (nextPredictors c n c.lastDc)).wr.bitPos +
      ((appends.take m).map Prod.snd).flatten.length ≤ 8 * par.outCap := by
    rw [Context.emitted_wr, Writer.emit_bitPos]
    omega
  have hnoroom : 8 * par.outCap < (c.emitted dcBits (nextPredictors c n c.lastDc)).wr.bitPos +
      ((appends.take m).map Prod.snd).flatten.length + bits.length := by
    rw [Context.emitted_wr, Writer.emit_bitPos]
    omega
  have hsplit : appends = appends.take m ++ (pos, bits) :: appends.drop (m + 1) := by
    rw [← hget, ← List.drop_eq_getElem_cons hlt, List.take_append_drop]
  calc _ = putAll par op n (c.levelAt n) (appends.take m ++ (pos, bits) :: appends.drop (m + 1))
        (c.emitted dcBits (nextPredictors c n c.lastDc)) := by rw [← hsplit]
    _ = _ := by rw [putAll_overflow (level := c.levelAt n) hroom hok hnoroom, Context.setWriter_emit,
      Context.emitted_emitted, Context.emitted_lastDc]

end

/-- The context an aborted `ENCBLK` leaves: bits appended, predictors changed, a fault entered (R250). -/
theorem State.encblk_abort_frame (s : State) (bits : List Bool) (dc : Vector (BitVec 16) 3) (code : FaultCode)
    (site : Site) :
    let t := s.setCtx ((s.ctx.emitted bits dc).raise code site)
    t = s.setCtx { s.ctx with
      wr := t.ctx.wr, lastDc := t.ctx.lastDc, faultCode := t.ctx.faultCode, faultInfo := t.ctx.faultInfo } := rfl

/-- Settles O31, from where the block stops. -/
theorem encblkLevelOutOfRangeAborts : Obligations.EncblkLevelOutOfRangeAborts := by
  intro s n i hf hn hp hr hs hw hd h1 hi hok hbad bits hbits hfit
  replace hbits : bits = wireDc s.tab (blockClass n.toNat)
      (s.ctx.lastDcAt (component n.toNat) - s.ctx.coefAt n.toNat 0) ++
        wireLevels s.tab 0 ((List.range' 1 (i - 1)).map (s.ctx.levelAt n.toNat)) := hbits
  have hblock := encodeBlock_level_out_of_range (op := 0x21) (hs.ok hr) hp hd h1 hi hok hbad (hbits ▸ hfit)
  rw [hs.built hr, ← hbits] at hblock
  refine ⟨s.setCtx ((s.ctx.emitted bits (nextPredictors s.ctx n.toNat s.ctx.lastDc)).raise
    .internalInvariantViolated (.inBlock 0x21 n.toNat i)), ?_, hw.appended bits, nextPredictors_same ..,
    fun j hj => nextPredictors_other _ _ hj, rfl, Site.info_inBlock .., State.encblk_abort_frame ..⟩
  rw [exec_encblk hf hr hn, hblock, Flow.context_raised]

/-- Settles O60: for the DC code by itself, for a later append from where the block stops. -/
theorem encblkOverflowKeepsEarlierCodes : Obligations.EncblkOverflowKeepsEarlierCodes := by
  intro s n appends m pos bits hf hn hp hr hs hw hd happends hm hok before hbefore hfit hover
  replace happends : appends = (0, wireDc s.tab (blockClass n.toNat)
      (s.ctx.lastDcAt (component n.toNat) - s.ctx.coefAt n.toNat 0)) :: acPartAppends s.tab s.ctx n.toNat :=
    happends
  cases m with
  | zero =>
    rw [happends, List.getElem?_cons_zero] at hm
    obtain ⟨rfl, rfl⟩ := Prod.mk.inj (Option.some.inj hm)
    obtain rfl : before = [] := hbefore
    have hblock := encodeBlock_dc_overflow (op := 0x21) (hs.ok hr) hp hd hover
    rw [hs.built hr] at hblock
    refine ⟨s.setCtx ((s.ctx.emitted [] s.ctx.lastDc).raise .outputOverflow (.inBlock 0x21 n.toNat 0)), ?_,
      hw.appended [], fun _ => rfl, fun h1 => absurd h1 (by decide), rfl, Site.info_inBlock ..,
      State.encblk_abort_frame ..⟩
    rw [exec_encblk hf hr hn, hblock, Flow.context_raised, Context.emitted_nil]
  | succ m =>
    rw [happends, List.getElem?_cons_succ] at hm
    rw [happends, List.take_succ_cons] at hok
    simp only [happends, List.take_succ_cons, List.map_cons, List.flatten_cons] at hbefore
    have hblock := encodeBlock_append_overflow (op := 0x21) (hs.ok hr) hp hd hm (List.forall_mem_cons.1 hok).2
      (hbefore ▸ hfit) (hbefore ▸ hover)
    rw [hs.built hr, ← hbefore] at hblock
    refine ⟨s.setCtx ((s.ctx.emitted before (nextPredictors s.ctx n.toNat s.ctx.lastDc)).raise
      .outputOverflow (.inBlock 0x21 n.toNat pos)), ?_, hw.appended before, fun h0 => absurd h0 (by simp),
      fun _ => ⟨nextPredictors_same .., fun j hj => nextPredictors_other _ _ hj⟩, rfl, Site.info_inBlock ..,
      State.encblk_abort_frame ..⟩
    rw [exec_encblk hf hr hn, hblock, Flow.context_raised]

end Sys2Proof.Machine
end

section
/-! PROOFS. What the encoders depend on (spec/43_block.md R186; 44_macroblock.md R200, R201): changes of a context
that go through an encoder unchanged, and `ENCMB` as the sequence of its blocks. -/

namespace Sys2Proof.Machine

open Sys2Proof

variable {s : State} {par : Params} {tab : TableUnit} {op op' : BitVec 8} {c : Context} {g r : Context → Context}

/-! ### Changes that go through an encoder -/

/-- The change `g` of a context, `r` once a fault was entered: neither is seen by what an encoder does to the
writer, the predictors and the fault registers, opcode `op` being written as `op'`. -/
structure GoesThrough (op op' : BitVec 8) (g r : Context → Context) : Prop where
  wr : ∀ c, (g c).wr = c.wr
  lastDc : ∀ c, (g c).lastDc = c.lastDc
  emitted : ∀ c bits dc, g (c.emitted bits dc) = (g c).emitted bits dc
  raise : ∀ c code blk pos, (g c).raise code ⟨op', blk, pos⟩ = r (c.raise code ⟨op, blk, pos⟩)

/-- The changes made to a context however the pseudocode ended. -/
def Flow.through (g r : Context → Context) : Flow → Flow
  | .ran c => .ran (g c)
  | .raised c => .raised (r c)

theorem Flow.through_andThen {f : Flow} {k k' : Context → Flow}
    (h : ∀ c, f = .ran c → k' (g c) = (k c).through g r) :
    (f.through g r).andThen k' = (f.andThen k).through g r := by
  cases f with
  | ran c => exact h c rfl
  | raised c => rfl

section
variable (hg : GoesThrough op op' g r) {blk : BitVec 4} {pos : BitVec 6}
include hg

theorem GoesThrough.setLastDc (c : Context) (i : Nat) (v : BitVec 16) :
    (g c).setLastDc i v = g (c.setLastDc i v) := by
  have h := hg.emitted c [] (Tbl.set c.lastDc i v)
  rw [← hg.lastDc c] at h
  rw [show c.setLastDc i v = c.emitted [] (Tbl.set c.lastDc i v) from rfl, ← hg.lastDc c, h]
  rfl

theorem GoesThrough.lastDcAt (c : Context) (i : Nat) : (g c).lastDcAt i = c.lastDcAt i := by
  rw [Context.lastDcAt, Context.lastDcAt, hg.lastDc]

theorem putBits_through (n v : Nat) (c : Context) :
    putBits par ⟨op', blk, pos⟩ n v (g c) = (putBits par ⟨op, blk, pos⟩ n v c).through g r := by
  rw [putBits, putBits, hg.wr]
  split
  case isTrue => rw [Flow.through, hg.raise]
  case isFalse =>
    rw [Flow.through, Context.setWriter_emit, hg.emitted, ← hg.lastDc c, ← Context.setWriter_emit, hg.wr]

theorem encodeDC_through (cls : DcClass) (diff : Int) (c : Context) :
    encodeDC par tab ⟨op', blk, pos⟩ cls diff (g c) =
      (encodeDC par tab ⟨op, blk, pos⟩ cls diff c).through g r := by
  unfold encodeDC
  split
  case isTrue => exact putBits_through hg ..
  case isFalse =>
    split
    · rw [Flow.through, hg.raise]
    · exact putBits_through hg ..

theorem encodeLevel_through (run : Nat) (level : Int) (c : Context) :
    encodeLevel par tab ⟨op', blk, pos⟩ run level (g c) =
      (encodeLevel par tab ⟨op, blk, pos⟩ run level c).through g r := by
  unfold encodeLevel
  split
  case isTrue => exact putBits_through hg ..
  case isFalse =>
    split
    · rw [Flow.through, hg.raise]
    · rw [putBits_through hg, Flow.through_andThen fun c _ => putBits_through hg .., Flow.through_andThen
        fun c _ => putBits_through hg ..]

/-- The AC loop reads the levels at its positions alone (R186). -/
theorem encodeAc_through (n : Nat) (is : List Nat) (z : Nat) (c : Context)
    (hlevel : ∀ i ∈ is, (g c).levelAt n i = c.levelAt n i) :
    encodeAc par tab op' n is z (g c) = (encodeAc par tab op n is z c).through g r := by
  induction is generalizing z c with
  | nil => rfl
  | cons i is ih =>
    obtain ⟨hi, hrest⟩ := List.forall_mem_cons.1 hlevel
    have hi' : (g c).coefAt n ((g c).scanAt i) = c.coefAt n (c.scanAt i) := hi
    rw [encodeAc, encodeAc, hi']
    split
    case isTrue => exact ih z c hrest
    case isFalse =>
      rw [Site.inBlock, encodeLevel_through hg]
      refine Flow.through_andThen fun c' hran => ih i c' fun j hj => ?_
      obtain ⟨bits, dc, rfl⟩ := (encodeLevel_encodes _ _).ran_frame hran
      rw [hg.emitted]
      exact hrest j hj

end

/-- The AC loop skips zeros (R183). -/
theorem encodeAc_zeros (n : Nat) (zeros : List Nat) (z : Nat) (c : Context)
    (hzero : ∀ i ∈ zeros, c.levelAt n i = 0) : encodeAc par tab op n zeros z c = .ran c := by
  induction zeros with
  | nil => rfl
  | cons i zeros ih =>
    obtain ⟨hi, hrest⟩ := List.forall_mem_cons.1 hzero
    have hi' : c.coefAt n (c.scanAt i) = 0 := hi
    rw [encodeAc, if_pos hi', ih hrest]

/-- Positions that hold zeros at the end of the AC loop change nothing (R186). -/
theorem encodeAc_append_zeros (n : Nat) (is zeros : List Nat) (z : Nat) (c : Context)
    (hzero : ∀ i ∈ zeros, c.levelAt n i = 0) :
    encodeAc par tab op n (is ++ zeros) z c = encodeAc par tab op n is z c := by
  induction is generalizing z c with
  | nil => exact encodeAc_zeros n zeros z c hzero
  | cons i is ih =>
    rw [List.cons_append, encodeAc, encodeAc]
    split
    case isTrue => exact ih z c hzero
    case isFalse =>
      refine Flow.andThen_congr fun c' hran => ih i c' fun j hj => ?_
      obtain ⟨bits, dc, rfl⟩ := (encodeLevel_encodes _ _).ran_frame hran
      exact hzero j hj

/-- What `EncodeBlock(n)` reads of the block memories is the same in both contexts, up to zeros at the end of the
scan (R186). -/
structure SameBlock (n : Nat) (c c' : Context) : Prop where
  dc : Tbl.get c'.coef (64 * n) = Tbl.get c.coef (64 * n)
  last : c.lastAt n ≤ c'.lastAt n
  levels : ∀ i, 1 ≤ i → i ≤ c.lastAt n → c'.levelAt n i = c.levelAt n i
  zeros : ∀ i, c.lastAt n < i → i ≤ c'.lastAt n → c'.levelAt n i = 0

section
variable (hg : GoesThrough op op' g r) {n : Nat}
include hg

/-- What was emitted and the predictors play no part in it. -/
theorem SameBlock.emitted (h : SameBlock n c (g c)) (bits : List Bool) (dc : Vector (BitVec 16) 3) :
    SameBlock n (c.emitted bits dc) (g (c.emitted bits dc)) := by
  rw [hg.emitted]
  exact ⟨h.dc, h.last, h.levels, h.zeros⟩

theorem encodeBlockDC_through (h : SameBlock n c (g c)) :
    encodeBlockDC par tab op' n (g c) = (encodeBlockDC par tab op n c).through g r := by
  have hcoef : (g c).coefAt n 0 = c.coefAt n 0 := congrArg sext16 h.dc
  rw [encodeBlockDC, encodeBlockDC, Site.inBlock, hcoef, hg.lastDcAt, encodeDC_through hg]
  refine Flow.through_andThen fun c' hran => ?_
  obtain ⟨bits, dc, rfl⟩ := (encodeDC_encodes _ _).ran_frame hran
  rw [(h.emitted hg bits dc).dc, hg.setLastDc]
  rfl

/-- The AC loop of a block: the further positions of the longer scan hold zeros. -/
theorem encodeAc_block_through (h : SameBlock n c (g c)) :
    encodeAc par tab op' n (List.range' 1 ((g c).lastAt n)) 0 (g c) =
      (encodeAc par tab op n (List.range' 1 (c.lastAt n)) 0 c).through g r := by
  obtain ⟨k, hk⟩ := Nat.exists_eq_add_of_le h.last
  have hzero : ∀ i ∈ List.range' (1 + c.lastAt n) k, (g c).levelAt n i = 0 := fun i hi => by
    rw [List.mem_range'_1] at hi
    exact h.zeros i (by omega) (by omega)
  have hlevel : ∀ i ∈ List.range' 1 (c.lastAt n), (g c).levelAt n i = c.levelAt n i := fun i hi => by
    rw [List.mem_range'_1] at hi
    exact h.levels i (by omega) (by omega)
  rw [hk, ← List.range'_append_1, encodeAc_append_zeros n _ _ 0 (g c) hzero, encodeAc_through hg n _ 0 c hlevel]

/-- `EncodeBlock` of contexts that agree on what it reads of the block memories (R186). -/
theorem encodeBlock_through (h : SameBlock n c (g c)) :
    encodeBlock par tab op' n (g c) = (encodeBlock par tab op n c).through g r := by
  rw [encodeBlock, encodeBlock, encodeBlockDC_through hg h, Flow.through_andThen fun c' hran => ?_]
  · exact Flow.through_andThen fun c' _ => putBits_through hg ..
  · have hframe : Flow.Encodes par op c (encodeBlockDC par tab op n c) :=
      (encodeDC_encodes (t := .inBlock op n 0) _ _).andThen fun c' => Flow.Encodes.setLastDc ..
    obtain ⟨bits, dc, rfl⟩ := hframe.ran_frame hran
    exact encodeAc_block_through hg (h.emitted hg bits dc)

end

/-! ### The block memories (R186) -/

/-- The context with other block memories. -/
def Context.withBlocks (coef : Vector (BitVec 16) 768) (last : Vector (BitVec 6) 12) (scan : Vector (BitVec 6) 64)
    (c : Context) : Context := { c with coef := coef, last := last, scan := scan }

theorem goesThrough_withBlocks (op : BitVec 8) (coef : Vector (BitVec 16) 768) (last : Vector (BitVec 6) 12)
    (scan : Vector (BitVec 6) 64) :
    GoesThrough op op (Context.withBlocks coef last scan) (Context.withBlocks coef last scan) where
  wr _ := rfl
  lastDc _ := rfl
  emitted _ _ _ := rfl
  raise _ _ _ _ := rfl

/-- What of a context `ENCBLK` may change: bits, predictors and the fault registers. -/
def SameResult (c c' : Context) : Prop :=
  c'.wr = c.wr ∧ c'.lastDc = c.lastDc ∧ c'.faultCode = c.faultCode ∧ c'.faultInfo = c.faultInfo

/-- `ENCBLK` on contexts that agree on what it reads of the block memories (R186). -/
theorem encblk_withBlocks {n : BitVec 4} {s' u' : State} (coef : Vector (BitVec 16) 768)
    (last : Vector (BitVec 6) 12) (scan : Vector (BitVec 6) 64)
    (hsame : SameBlock n.toNat s.ctx (s.ctx.withBlocks coef last scan)) (hs : exec (.encblk n) s = .next s')
    (hu : exec (.encblk n) (s.setCtx (s.ctx.withBlocks coef last scan)) = .next u') :
    SameResult s'.ctx u'.ctx := by
  cases ha : accepts s (.encblk n) with
  | false =>
    rw [exec_of_not_accepts ha] at hs
    rw [exec_of_not_accepts (s := s.setCtx (s.ctx.withBlocks coef last scan)) (i := .encblk n) ha] at hu
    obtain rfl := Host.Outcome.next.inj hs
    obtain rfl := Host.Outcome.next.inj hu
    exact ⟨rfl, rfl, rfl, rfl⟩
  | true =>
    obtain ⟨⟨hf, hr⟩, hn⟩ : (s.ctx.fsm = .inPicture ∧ s.tab.ready = true) ∧ n.toNat ≤ 11 := by
      simpa [accepts, Context.inPicture] using ha
    rw [exec_encblk hf hr hn] at hs
    rw [exec_encblk (s := s.setCtx (s.ctx.withBlocks coef last scan)) hf hr hn, State.setCtx_ctx,
      State.setCtx_par, State.setCtx_tab, encodeBlock_through (goesThrough_withBlocks 0x21 coef last scan) hsame] at hu
    obtain rfl := Host.Outcome.next.inj hs
    obtain rfl := Host.Outcome.next.inj hu
    cases encodeBlock s.par s.tab 0x21 n.toNat s.ctx <;> exact ⟨rfl, rfl, rfl, rfl⟩

/-- Settles O33: the second state is the first with other block memories, which agree on what is read. -/
theorem encblkReadsOnlyItsOwnEntries : Obligations.EncblkReadsOnlyItsOwnEntries := by
  intro s u s' u' n hu hdc hlast hlevels hs hu'
  rw [hu] at hu'
  refine encblk_withBlocks u.ctx.coef u.ctx.last u.ctx.scan ⟨?_, hlast.ge, hlevels, fun i hi hi' => ?_⟩ hs hu'
  · exact BitVec.eq_of_toInt_eq hdc
  · exact absurd (hlast ▸ hi') (by omega)

/-- Settles O34: the longer scan ends in zeros. -/
theorem largerLastIndexChangesNothing : Obligations.LargerLastIndexChangesNothing := by
  intro s s' u' n m hn hlast hzeros hs hu'
  have hget : (Tbl.get (Tbl.set s.ctx.last n.toNat m) n.toNat).toNat = m.toNat :=
    congrArg BitVec.toNat (Tbl.get_set_same _ _ (by omega))
  exact encblk_withBlocks s.ctx.coef (Tbl.set s.ctx.last n.toNat m) s.ctx.scan
    ⟨rfl, hlast.trans hget.ge, fun _ _ _ => rfl, fun i hi hi' => hzeros i hi (hi'.trans hget.le)⟩ hs hu'

/-! ### `ENCMB` (R200, R201) -/

/-- `ENCMB` with its requirements met encodes the blocks of its format in order (R201). -/
theorem exec_encmb (hf : s.ctx.fsm = .inPicture) (hr : s.tab.ready = true) :
    exec .encmb s =
      .next (s.setCtx (encodeBlocks s.par s.tab 0x22 (blockOrder s.ctx.chromaFormat) s.ctx).context) := by
  rw [exec, execEncmb, require_of (Context.inPicture_of hf), require_of hr]
  rfl

/-- Settles O35: `EncodeBlock` of the blocks in order emits their wire formats, the predictors chained. -/
theorem encmbEmitsBlocksInWireOrder : Obligations.EncmbEmitsBlocksInWireOrder := by
  refine ⟨by decide, by decide, fun s order h420 h422 h444 hf hp hr hs hw hfits hroom => ?_⟩
  obtain rfl : order = blockOrder s.ctx.chromaFormat := by
    cases hc : s.ctx.chromaFormat
    exacts [h420 hc, h422 hc, h444 hc]
  have hran := encodeBlocks_ran (op := 0x22) hp (hs.ok hr) hfits hroom
  rw [hs.built hr] at hran
  generalize wireBlocks s.tab s.ctx (blockOrder s.ctx.chromaFormat) s.ctx.lastDc = bits at hran ⊢
  generalize predictorsAfter s.ctx (blockOrder s.ctx.chromaFormat) s.ctx.lastDc = dc at hran ⊢
  refine ⟨s.setCtx (s.ctx.emitted bits dc), ?_, hw.appended bits, rfl, rfl⟩
  rw [exec_encmb hf hr, hran, Flow.context_ran]

/-! ### `ENCMB` as the sequence of its `ENCBLK` (R201) -/

/-- The context with the opcode in `FAULT_INFO` replaced by that of `ENCMB` (R250). -/
def Context.underEncmb (c : Context) : Context :=
  { c with faultInfo := 0x22#8 ++ c.faultInfo.extractLsb' 0 24 }

/-- The opcode is the top byte of `FAULT_INFO`; the rest does not depend on it (R250). -/
theorem Site.info_fields (op : BitVec 8) (blk : BitVec 4) (pos : BitVec 6) :
    (Site.mk op blk pos).info = op ++ (blk ++ pos ++ 0#14) := by
  unfold Site.info
  ext i hi
  change (op ++ blk ++ pos ++ 0#14)[i] = (op ++ (blk ++ pos ++ 0#14))[i]
  simp only [BitVec.getElem_append]
  grind

theorem Site.info_opcode (t : Site) : t.info.extractLsb' 24 8 = t.opcode := by
  obtain ⟨op, blk, pos⟩ := t
  rw [Site.info_fields, extract_high (w := 24) _ _ _ _ (Nat.le_refl 24), extract_all]

/-- Entering a fault under the opcode of `ENCBLK` instead of that of `ENCMB` changes nothing else. -/
theorem goesThrough_underEncmb : GoesThrough 0x21 0x22 id Context.underEncmb where
  wr _ := rfl
  lastDc _ := rfl
  emitted _ _ _ := rfl
  raise c code blk pos := by
    have hrest : (Site.mk 0x21 blk pos).info.extractLsb' 0 24 = blk ++ pos ++ 0#14 := by
      rw [Site.info_fields, extract_low (w := 24) _ _ _ _ (Nat.le_refl 24), extract_all]
    rw [id, Context.underEncmb, Context.raise_faultInfo, hrest, Context.raise, Site.info_fields]
    rfl

theorem encodeBlocks_underEncmb (ns : List Nat) (c : Context) :
    encodeBlocks par tab 0x22 ns c = (encodeBlocks par tab 0x21 ns c).through id Context.underEncmb := by
  induction ns generalizing c with
  | nil => rfl
  | cons n ns ih =>
    have hsame : SameBlock n c c := ⟨rfl, Nat.le_refl _, fun _ _ _ => rfl, fun _ _ _ => by omega⟩
    rw [encodeBlocks, encodeBlocks]
    have hblock : encodeBlock par tab 0x22 n c = _ := encodeBlock_through goesThrough_underEncmb hsame
    rw [hblock]
    exact Flow.through_andThen fun c' _ => ih c'

/-- A faulted context drops every further command (R251, R252). -/
theorem runCommands_of_faulted (is : List Instr) (h : s.ctx.faulted = true) : runCommands is s = .next s := by
  induction is with
  | nil => rfl
  | cons i is ih => rw [runCommands_cons_of_next (runCommand_of_faulted h i), ih]

/-- A fault an encoder raised leaves the context faulted, under the encoder's opcode (R250). -/
theorem Flow.Encodes.raised_faulted {f : Flow} {c' : Context} (h : Flow.Encodes par op c f) (hr : f = .raised c') :
    c'.faulted = true ∧ c'.faultInfo.extractLsb' 24 8 = op := by
  obtain ⟨bits, dc, _, h | ⟨code, site, hcode, hop, h⟩⟩ := h
  · rw [hr] at h
    cases h
  · obtain rfl := Flow.raised.inj (hr.symm.trans h)
    refine ⟨Context.faulted_raise _ ?_ _, (Site.info_opcode site).trans hop⟩
    rcases hcode with rfl | rfl <;> decide

/-- `ENCBLK` of several blocks, one after another: the first fault drops the rest (R252). -/
theorem runCommands_encblk (ns : List (BitVec 4)) (hf : s.ctx.fsm = .inPicture) (hr : s.tab.ready = true)
    (hu : s.ctx.faulted = false) (hns : ∀ n ∈ ns, n.toNat ≤ 11) :
    runCommands (ns.map .encblk) s =
      .next (s.setCtx (encodeBlocks s.par s.tab 0x21 (ns.map BitVec.toNat) s.ctx).context) := by
  induction ns generalizing s with
  | nil => rfl
  | cons n ns ih =>
    obtain ⟨hn, hns⟩ := List.forall_mem_cons.1 hns
    have hfirst := (runCommand_of_unfaulted hu _).trans (exec_encblk hf hr hn)
    have hencodes : Flow.Encodes s.par 0x21 s.ctx (encodeBlock s.par s.tab 0x21 n.toNat s.ctx) :=
      encodeBlock_encodes ..
    rw [List.map_cons, runCommands_cons_of_next hfirst, List.map_cons, encodeBlocks]
    cases hblock : encodeBlock s.par s.tab 0x21 n.toNat s.ctx with
    | ran c =>
      obtain ⟨bits, dc, rfl⟩ := hencodes.ran_frame hblock
      exact ih (s := s.setCtx (s.ctx.emitted bits dc)) hf hr hu hns
    | raised c => exact runCommands_of_faulted _ (hencodes.raised_faulted hblock).1

/-- Settles O36: the blocks encoded under the two opcodes end alike, up to the opcode of a fault. -/
theorem encmbEqualsEncblkSequence : Obligations.EncmbEqualsEncblkSequence := by
  intro s order h420 h422 h444 hf hr hu
  obtain ⟨horder, hle⟩ : order.map BitVec.toNat = blockOrder s.ctx.chromaFormat ∧ ∀ n ∈ order, n.toNat ≤ 11 := by
    cases hc : s.ctx.chromaFormat
    · rw [h420 hc]; decide
    · rw [h422 hc]; decide
    · rw [h444 hc]; decide
  have hencodes : Flow.Encodes s.par 0x21 s.ctx
      (encodeBlocks s.par s.tab 0x21 (blockOrder s.ctx.chromaFormat) s.ctx) := encodeBlocks_encodes ..
  have hmb := exec_encmb hf hr
  rw [encodeBlocks_underEncmb] at hmb
  have hseq := runCommands_encblk order hf hr hu hle
  rw [horder] at hseq
  refine ⟨_, _, hmb, hseq, ?_⟩
  cases hblocks : encodeBlocks s.par s.tab 0x21 (blockOrder s.ctx.chromaFormat) s.ctx with
  | ran c =>
    obtain ⟨bits, dc, rfl⟩ := hencodes.ran_frame hblocks
    exact ⟨fun _ => rfl, fun hfaulted => absurd (hu.symm.trans hfaulted) (by decide)⟩
  | raised c =>
    obtain ⟨hfaulted, hop⟩ := hencodes.raised_faulted hblocks
    exact ⟨fun hno => absurd (hno.symm.trans hfaulted) (by decide), fun _ => ⟨hop, rfl⟩⟩

end Sys2Proof.Machine
end

section
/-! PROOFS. The framer's commands (spec/45_framer.md R210 to R214) and `PUTB` by itself (spec/40_bitwriter.md
R132). -/

namespace Sys2Proof.Machine

open Sys2Proof

variable {s : State} {par : Params} {c : Context}

/-! ### `CFG` (R210) -/

/-- `CFG` of valid dimensions and a named format latches them (R210). -/
theorem exec_cfg_latches {pixfmt : BitVec 4} {width height : BitVec 16} {f : ChromaFormat}
    (hout : s.ctx.fsm = .idle ∨ s.ctx.fsm = .done) (hd : dimensionsValid width height = true)
    (hf : formatOfPixfmt pixfmt = some f) :
    exec (.cfg pixfmt width height) s =
      .next (s.setCtx { s.ctx with width := width, height := height, chromaFormat := f, cfgValid := true }) := by
  rw [exec, execCfg, require_of (Context.outsidePicture_iff.2 hout), if_pos hd, hf]
  rfl

/-- Settles O37: a format of at most 2 has a name. -/
theorem cfgLatchesValidParameters : Obligations.CfgLatchesValidParameters := by
  intro s pixfmt width height hout hmod hwidth hheight hfmt
  rcases formatOfPixfmt_cases pixfmt with ⟨f, hsome, hcode, _⟩ | ⟨_, hgt⟩
  · exact ⟨_, exec_cfg_latches hout (dimensionsValid_iff.2 ⟨hmod, hwidth, hheight⟩) hsome, hcode, rfl⟩
  · omega

/-! ### `BEGINP` (R211) -/

/-- `BEGINP` with its requirements met is its body on the served context (R211). -/
theorem exec_beginp {q : BitVec 8} (hout : s.ctx.fsm = .idle ∨ s.ctx.fsm = .done) (hr : s.tab.ready = true)
    (hc : s.ctx.cfgValid = true) (h1 : 1 ≤ q.toNat) (h50 : q.toNat ≤ 50) :
    exec (.beginp q) s = .next (s.setCtx (beginPicture s.par q s.ctx).context) := by
  rw [exec, execBeginp, require_of (Context.outsidePicture_iff.2 hout), require_of (by rw [hr, hc]; rfl),
    require_of (by simp [h1, h50])]
  rfl

/-- The header bits as one number: its first byte, then the offset 4, then zeros (R101, R102). -/
theorem headerBits_eq {q : Nat} : headerBits q = bitsOf (8 * 7) (100 - 2 * q + 1024) := by
  have h8 : 100 - 2 * q < 2 ^ 8 := by omega
  have h32 : 100 - 2 * q + 1024 < 2 ^ (8 + 24) := by omega
  rw [headerBits, ← bitsOf_join _ _ _ _ h8, ← add_shift_eq_or _ _ _ h8, show 4 <<< 8 = 1024 from rfl,
    ← bitsOf_join _ _ _ _ h32, Nat.zero_shiftLeft, Nat.or_zero]

/-- The header read back byte by byte (R100 to R102). -/
theorem read_header {w : Writer} (h : w.bitCursor = 0) (h0 : w.byteCursor = 0) (q : Nat) {a : Nat} (ha : a < 7) :
    (wireHeader q)[a]? = some ((w.emit (headerBits q)).out.read a) := by
  have hbyte := w.emit_bytes h 7 (100 - 2 * q + 1024) a ha
  rw [← headerBits_eq, h0, Nat.zero_add, Nat.shiftRight_eq_div_pow] at hbyte
  rw [hbyte, wireHeader]
  have hx : 100 - 2 * q ≤ 100 := Nat.sub_le _ _
  generalize 100 - 2 * q = x at hx ⊢
  interval_cases a <;> refine congrArg some (BitVec.eq_of_toNat_eq ?_) <;>
    simp only [BitVec.toNat_ofNat, Nat.reduceMul, Nat.reducePow] <;> omega

/-- Settles O39: the body emits the header bits from the start of `OUT`. -/
theorem beginpWritesTheHeader : Obligations.BeginpWritesTheHeader := by
  intro s q hout hp hr hc h1 h50
  have hpos : ((Writer.mk s.ctx.wr.out 0 0).emit (headerBits q.toNat)).bitPos = 8 * 7 := by
    rw [Writer.emit_bitPos, headerBits_length]
    rfl
  have hlow := fun a ha => read_header (w := ⟨s.ctx.wr.out, 0, 0⟩) rfl rfl q.toNat (a := a) ha
  have hhigh : ∀ a, 7 ≤ a →
      ((Writer.mk s.ctx.wr.out 0 0).emit (headerBits q.toNat)).out.read a = s.ctx.wr.out.read a :=
    fun a ha => Writer.emit_read_above _ _ (by rw [headerBits_length]; exact Nat.mul_le_mul_left 8 ha)
  have hnext := exec_beginp hout hr hc h1 h50
  rw [beginPicture_ran hp, Flow.context_ran] at hnext
  generalize (Writer.mk s.ctx.wr.out 0 0).emit (headerBits q.toNat) = w at hpos hlow hhigh hnext
  obtain ⟨hbyte, hbit⟩ := Writer.cursors_of_bitPos hpos
  exact ⟨_, hnext, hlow, hhigh, hbyte, hbit, fun i hi => Context.lastDcAt_resetLastDc hi, rfl⟩

/-! ### `ENDSL` (R212) -/

/-- `ENDSL` inside a picture is its body on the served context (R212). -/
theorem exec_endsl (hf : s.ctx.fsm = .inPicture) :
    exec .endsl s = .next (s.setCtx (endSlice s.par s.ctx).context) := by
  rw [exec, execEndsl, require_of (Context.inPicture_of hf)]
  rfl

/-- `ENDSL` of a slice whose length 3 bytes cannot hold (R212, R248). -/
theorem endSlice_too_long (h : 2 ^ 24 ≤ c.sliceEnd - c.sliceStart) :
    endSlice par c = .raised ((flushBits c).raise .sliceLengthOverflow (.plain 0x31)) := by
  rcases endSlice_cases par c with ⟨_, e⟩ | ⟨hlt, _⟩ | ⟨hlt, _⟩
  · exact e
  · omega
  · omega

/-- `ENDSL` without room for the next placeholder (R212, R247). -/
theorem endSlice_without_room (h : c.sliceEnd - c.sliceStart < 2 ^ 24) (hroom : par.outCap < c.sliceEnd + 3) :
    endSlice par c = .raised (({ c with wr := c.patched, sliceStart := c.sliceEnd } : Context).raise
      .outputOverflow (.plain 0x31)) := by
  rcases endSlice_cases par c with ⟨hge, _⟩ | ⟨_, _, e⟩ | ⟨_, hfit, _⟩
  · omega
  · exact e
  · omega

/-- `ENDSL` of a slice that can be closed (R212). -/
theorem endSlice_ran (h : c.sliceEnd - c.sliceStart < 2 ^ 24) (hroom : c.sliceEnd + 3 ≤ par.outCap) :
    endSlice par c = .ran { c with
      wr := c.patched.emit (bitsOf 24 0), sliceStart := c.sliceEnd, lastDc := (c.resetLastDc par).lastDc } := by
  rcases endSlice_cases par c with ⟨hge, _⟩ | ⟨_, hover, _⟩ | ⟨_, _, e⟩
  · omega
  · omega
  · exact e

/-- The byte cursor is not past the end of the flushed slice (R131). -/
theorem Context.byteCursor_le_sliceEnd (c : Context) : c.wr.byteCursor ≤ c.sliceEnd := by
  have := c.wr.byteCursor_eq
  unfold Context.sliceEnd
  omega

/-- Settles O40: the body closes the slice, whose memory effect is known byte by byte. -/
theorem endslClosesTheSlice : Obligations.EndslClosesTheSlice := by
  intro s hf hs hstart b hb hlen hroom
  obtain rfl : b = s.ctx.sliceEnd := hb
  have hend := s.ctx.byteCursor_le_sliceEnd
  obtain ⟨hlength, hopen, hother⟩ := endSlice_memory (c := s.ctx) (by omega) hlen
  have hpos : (s.ctx.patched.emit (bitsOf 24 0)).bitPos = 8 * (s.ctx.sliceEnd + 3) := by
    rw [Writer.emit_bitPos, bitsOf_length, Nat.mul_add]
    rfl
  have hnext := exec_endsl hf
  rw [endSlice_ran hlen hroom, Flow.context_ran] at hnext
  generalize s.ctx.patched.emit (bitsOf 24 0) = w at hlength hopen hother hpos hnext
  obtain ⟨hbyte, hbit⟩ := Writer.cursors_of_bitPos hpos
  exact ⟨_, hnext, hlength, hopen, hother, hbyte, hbit, fun i hi => Context.lastDcAt_resetLastDc hi, rfl⟩

/-- Settles O41: only the flush came before the length test. -/
theorem endslTooLongRaises : Obligations.EndslTooLongRaises := by
  intro s hf b hb hlen
  obtain rfl : b = s.ctx.sliceEnd := hb
  refine ⟨s.setCtx ((flushBits s.ctx).raise .sliceLengthOverflow (.plain 0x31)), ?_, s.ctx.wr.flush_out,
    s.ctx.wr.flush_byteCursor, s.ctx.wr.flush_bitCursor, ?_⟩
  · rw [exec_endsl hf, endSlice_too_long hlen, Flow.context_raised]
  · rw [Context.raise_plain]
    rfl

/-- Settles O42: the back-patch came before the append that did not fit. -/
theorem endslWithoutRoomRaises : Obligations.EndslWithoutRoomRaises := by
  intro s hf b hb hlen hroom
  obtain rfl : b = s.ctx.sliceEnd := hb
  refine ⟨s.setCtx (({ s.ctx with wr := s.ctx.patched, sliceStart := s.ctx.sliceEnd } : Context).raise
    .outputOverflow (.plain 0x31)), ?_, OutMem.memRead_memWrite_three _ _ hlen,
    fun a ha => OutMem.read_memWrite_three _ _ (by omega), rfl, rfl, ?_⟩
  · rw [exec_endsl hf, endSlice_without_room hlen hroom, Flow.context_raised]
  · rw [Context.raise_plain]
    rfl

/-! ### `ENDP` and `ABORTP` (R213, R214) -/

/-- `ENDP` inside a picture with the open slice empty (R213). -/
theorem exec_endp (hf : s.ctx.fsm = .inPicture) (hempty : s.ctx.sliceEmpty = true) :
    exec .endp s = .next (s.setCtx (s.ctx.setFsm .done)) := by
  rw [exec, execEndp, require_of (Context.inPicture_of hf), require_of hempty]
  rfl

/-- Settles O43: both requirements hold. -/
theorem endpFinishesThePicture : Obligations.EndpFinishesThePicture := by
  intro s hf hbit hbyte
  exact exec_endp hf (by simp [Context.sliceEmpty, hbit, hbyte])

/-- Settles O44: `ABORTP` requires nothing. -/
theorem abortpDiscardsThePicture : Obligations.AbortpDiscardsThePicture := by
  intro s
  exact ⟨s.setCtx { s.ctx with fsm := .idle, sliceStart := 0, wr := ⟨s.ctx.wr.out, 0, 0⟩ }, rfl, rfl, rfl, rfl⟩

/-! ### `PUTB` (R132) -/

/-- Settles O46. -/
theorem putbAppendsBitsLowestFirst : Obligations.PutbAppendsBitsLowestFirst := by
  intro s n value hf hs h1 h32 hv hfit
  refine ⟨s.append (putbBits n value), ?_, hs.appended _, rfl⟩
  rw [exec_putb_legal hf ⟨h1, h32, hv⟩, putBits_fits hfit]
  rfl

/-- Settles O47. -/
theorem putbPastCapacityWritesNothing : Obligations.PutbPastCapacityWritesNothing := by
  intro s n value hf h1 h32 hv hover
  rw [exec_putb_legal hf ⟨h1, h32, hv⟩, putBits_overflow hover, Flow.context_raised, Context.raise_plain]
  rfl

end Sys2Proof.Machine
end

section
/-! PROOFS. The invariant of Safety.lean: every step keeps it (spec/10_state.md R21, R22, R26, R29, R39;
45_framer.md R211 to R216), and a finished picture re-parses (R218). -/

namespace Sys2Proof.Machine

open Sys2Proof

variable {s t : State} {par : Params} {tab tab' : TableUnit} {c : Context} {cap : Nat}

/-! ### The writer -/

/-- The writer put back to the start of `OUT` is sound (R211, R214). -/
theorem Writer.Sound.rewound {w : Writer} (h : w.Sound cap) : (Writer.mk w.out 0 0).Sound cap where
  canonical := h.canonical
  inside := h.inside
  cursorMax := Nat.zero_le cap
  openByte h0 := absurd rfl h0

/-- The flushed slice ends inside `OUT` (R131). -/
theorem Context.sliceEnd_le (h : c.wr.Sound cap) : c.sliceEnd ≤ cap := by
  have hmax := h.flush.cursorMax
  rwa [Writer.flush_byteCursor] at hmax

/-- The writer after the back-patch is sound (R212). -/
theorem Context.patched_sound (h : c.wr.Sound cap) (hstart : c.sliceStart + 3 ≤ c.wr.byteCursor) :
    c.patched.Sound cap where
  canonical := OutMem.memWrite_three_wellFormed h.canonical _ _
  inside := OutMem.memWrite_three_inside h.inside (hstart.trans h.cursorMax) _
  cursorMax := Context.sliceEnd_le h
  openByte h0 := absurd rfl h0

/-! ### Contexts -/

/-- What soundness says of a faulted context. -/
theorem Context.Sound.of_faulted {c' : Context} (hfault : c'.faultCode ≠ .clear) (hw : c'.wr.Sound par.outCap)
    (hdim : dimensionsValid c'.width c'.height = true) (hq : c'.qscale.toNat ≤ 50)
    (hstart : c'.sliceStart ≤ par.outCap)
    (hbegun : c'.fsm ≠ .idle → tab.ready = true ∧ c'.cfgValid = true ∧ 1 ≤ c'.qscale.toNat) :
    c'.Sound par tab where
  writer := hw
  dimensions := hdim
  qscaleMax := hq
  sliceStartMax := hstart
  begun := hbegun
  openField _ h0 := absurd h0 hfault
  header _ h0 := absurd h0 hfault
  chain _ h0 := absurd h0 hfault
  finished _ h0 := absurd h0 hfault
  faultInfoClear h0 := absurd h0 hfault

section
variable (h : c.Sound par tab)
include h

/-- `CFG` keeps a context sound (R210). -/
theorem Context.Sound.cfg {width height : BitVec 16} (hd : dimensionsValid width height = true)
    (f : ChromaFormat) :
    ({ c with width := width, height := height, chromaFormat := f, cfgValid := true } : Context).Sound par tab :=
  { h with
    dimensions := hd
    begun := fun hi => ⟨(h.begun hi).1, rfl, (h.begun hi).2.2⟩ }

/-- `FLUSH` keeps a context sound (R131). -/
theorem Context.Sound.flushBits (hf : c.fsm = .inPicture) : (flushBits c).Sound par tab := by
  have hout : (Machine.flushBits c).wr.out = c.wr.out := c.wr.flush_out
  have hcursor : c.wr.byteCursor ≤ (Machine.flushBits c).wr.byteCursor := by
    show _ ≤ c.wr.flush.byteCursor
    rw [Writer.flush_byteCursor]
    exact c.byteCursor_le_sliceEnd
  exact { h with
    writer := h.writer.flush
    openField := fun hi h0 => by
      obtain ⟨h4, h3, hzero⟩ := h.openField hi h0
      exact ⟨h4, h3.trans hcursor, by rw [hout]; exact hzero⟩
    header := fun hi h0 => by rw [hout]; exact h.header hi h0
    chain := fun hi h0 => by rw [hout]; exact h.chain hi h0
    finished := fun hd => absurd (hf.symm.trans hd) (by decide) }

/-- `ENDP` keeps a context sound (R213). -/
theorem Context.Sound.endp (hf : c.fsm = .inPicture) (hempty : c.sliceEmpty = true) :
    (c.setFsm .done).Sound par tab := by
  have hi : c.fsm ≠ .idle := by rw [hf]; decide
  exact { h with
    begun := fun _ => h.begun hi
    openField := fun _ => h.openField hi
    header := fun _ => h.header hi
    chain := fun _ => h.chain hi
    finished := fun _ _ => hempty }

/-- `ABORTP` keeps a context sound (R214). -/
theorem Context.Sound.abortp :
    ({ c with wr := ⟨c.wr.out, 0, 0⟩, sliceStart := 0, fsm := .idle } : Context).Sound par tab where
  writer := h.writer.rewound
  dimensions := h.dimensions
  qscaleMax := h.qscaleMax
  sliceStartMax := Nat.zero_le _
  begun hi := absurd rfl hi
  openField hi := absurd rfl hi
  header hi := absurd rfl hi
  chain hi := absurd rfl hi
  finished hd := nomatch hd
  faultInfoClear := h.faultInfoClear

/-- `BEGINP` gives a sound context: the header and the first placeholder have been written (R211). -/
theorem Context.Sound.beginPicture (hp : par.Legal) (hr : tab.ready = true) (hc : c.cfgValid = true)
    {q : BitVec 8} (h1 : 1 ≤ q.toNat) (h50 : q.toNat ≤ 50) :
    (Machine.beginPicture par q c).context.Sound par tab := by
  have hcap := hp.1
  have hpos : ((Writer.mk c.wr.out 0 0).emit (headerBits q.toNat)).bitPos = 8 * 7 := by
    rw [Writer.emit_bitPos, headerBits_length]
    rfl
  have hread := fun a ha => read_header (w := ⟨c.wr.out, 0, 0⟩) rfl rfl q.toNat (a := a) ha
  have hsound : ((Writer.mk c.wr.out 0 0).emit (headerBits q.toNat)).Sound par.outCap := by
    refine h.writer.rewound.emit _ ?_
    rw [headerBits_length]
    show 0 + 56 ≤ 8 * par.outCap
    omega
  rw [beginPicture_ran hp, Flow.context_ran]
  generalize (Writer.mk c.wr.out 0 0).emit (headerBits q.toNat) = w at hpos hread hsound ⊢
  obtain ⟨hbyte, _⟩ := Writer.cursors_of_bitPos hpos
  have hbytes : ∀ a x, a < 7 → (wireHeader q.toNat)[a]? = some x → w.out.read a = x :=
    fun a x ha hx => (Option.some.inj (hx.symm.trans (hread a ha))).symm
  have hzero : w.out.memRead 4 3 = 0 := by
    rw [OutMem.memRead_three, hbytes 4 0#8 (by decide) rfl, hbytes 5 0#8 (by decide) rfl,
      hbytes 6 0#8 (by decide) rfl]
    rfl
  have hfour : w.out.memRead 1 3 = 4 := by
    rw [OutMem.memRead_three, hbytes 1 4#8 (by decide) rfl, hbytes 2 0#8 (by decide) rfl,
      hbytes 3 0#8 (by decide) rfl]
    rfl
  have hfirst : (w.out.read 0).toNat = 100 - 2 * q.toNat := by
    rw [hbytes 0 _ (by decide) rfl, BitVec.toNat_ofNat]
    omega
  exact
    { writer := hsound
      dimensions := h.dimensions
      qscaleMax := h50
      sliceStartMax := show 4 ≤ par.outCap by omega
      begun := fun _ => ⟨hr, hc, h1⟩
      openField := fun _ _ => ⟨Nat.le_refl 4, hbyte.ge, hzero⟩
      header := fun _ _ => ⟨hfirst, hfour⟩
      chain := fun _ _ => .here 4
      finished := fun hd => nomatch hd
      faultInfoClear := h.faultInfoClear }

/-- `ENDSL` keeps a context sound: the closed field is one more of the chain (R103, R212, R218). -/
theorem Context.Sound.endSlice (hf : c.fsm = .inPicture) (hclear : c.faultCode = .clear) :
    (Machine.endSlice par c).context.Sound par tab := by
  have hi : c.fsm ≠ .idle := by rw [hf]; decide
  obtain ⟨h4, h3, _⟩ := h.openField hi hclear
  have hend := c.byteCursor_le_sliceEnd
  have hpatched := c.patched_sound h.writer h3
  rcases endSlice_cases par c with ⟨_, e⟩ | ⟨_, _, e⟩ | ⟨hlen, hroom, e⟩ <;> rw [e]
  · exact (h.flushBits hf).raise (by decide) _
  · exact .of_faulted (nofun) hpatched h.dimensions h.qscaleMax (Context.sliceEnd_le h.writer) h.begun
  · obtain ⟨hlength, hopen, hother⟩ := endSlice_memory (c := c) (h3.trans hend) hlen
    have hpos : (c.patched.emit (bitsOf 24 0)).bitPos = 8 * (c.sliceEnd + 3) := by
      rw [Writer.emit_bitPos, bitsOf_length, Nat.mul_add]
      rfl
    have hsound : (c.patched.emit (bitsOf 24 0)).Sound par.outCap := by
      refine hpatched.emit _ ?_
      rw [bitsOf_length]
      show 8 * c.sliceEnd + 0 + 24 ≤ 8 * par.outCap
      omega
    rw [Flow.context_ran]
    generalize c.patched.emit (bitsOf 24 0) = w at hlength hopen hother hpos hsound ⊢
    obtain ⟨hbyte, _⟩ := Writer.cursors_of_bitPos hpos
    have hbefore : ∀ x, x < c.sliceStart → w.out.read x = c.wr.out.read x :=
      fun x hx => hother x (by omega) (by omega)
    have hchain : SliceChain w.out 4 c.sliceEnd := by
      have hsnoc := ((h.chain hi hclear).congr hbefore).snoc (by rw [hlength]; omega)
      rwa [hlength, Nat.add_sub_cancel' (by omega)] at hsnoc
    exact
      { writer := hsound
        dimensions := h.dimensions
        qscaleMax := h.qscaleMax
        sliceStartMax := Context.sliceEnd_le h.writer
        begun := h.begun
        openField := fun _ _ => ⟨show 4 ≤ c.sliceEnd by omega, hbyte.ge, hopen⟩
        header := fun _ _ => by
          obtain ⟨hq, hoffset⟩ := h.header hi hclear
          show (w.out.read 0).toNat = _ ∧ w.out.memRead 1 3 = 4
          rw [hbefore 0 (by omega), OutMem.memRead_congr (m' := c.wr.out) fun b _ hb => hbefore b (by omega)]
          exact ⟨hq, hoffset⟩
        chain := fun _ _ => hchain
        finished := fun hd => absurd (hf.symm.trans hd) (by decide)
        faultInfoClear := h.faultInfoClear }

end

/-- Whatever a command that touches no table does once its requirements hold keeps the served context sound. -/
theorem Performs.sound {f : Flow} {i : Instr} (h : Performs s.par s.tab s.ctx f i) (ha : accepts s i = true)
    (hs : s.ctx.Sound s.par s.tab) (hp : s.par.Legal) (hclear : s.ctx.faultCode = .clear) :
    f.context.Sound s.par s.tab := by
  cases i with
  | tinit | lddcp | ldace => exact h.elim
  | cfg pixfmt width height =>
    rcases h with ⟨_, rfl⟩ | ⟨_, rfl⟩ | ⟨hd, g, rfl⟩
    · exact hs.raise (by decide) _
    · exact hs.raise (by decide) _
    · exact hs.cfg hd g
  | ldscan | ldcoef | ldlast =>
    obtain rfl := h
    exact { hs with }
  | putb | encdc | encblk | encmb =>
    have hf : s.ctx.fsm = .inPicture := by
      simp only [accepts, Bool.and_eq_true, Context.inPicture_iff, and_assoc] at ha
      exact ha.1
    exact (h.encodes (by simp [Instr.opcode])).sound hs hf
  | flush =>
    obtain rfl := h
    exact hs.flushBits (Context.inPicture_iff.1 ha)
  | beginp q =>
    obtain rfl := h
    simp only [accepts, Bool.and_eq_true, decide_eq_true_eq] at ha
    obtain ⟨⟨⟨⟨_, hr⟩, hc⟩, h1⟩, h50⟩ := ha
    exact hs.beginPicture hp hr hc h1 h50
  | endsl =>
    obtain rfl := h
    exact hs.endSlice (Context.inPicture_iff.1 ha) hclear
  | endp =>
    obtain rfl := h
    simp only [accepts, Bool.and_eq_true, Context.inPicture_iff] at ha
    exact hs.endp ha.1 ha.2
  | abortp =>
    obtain rfl := h
    exact hs.abortp

/-! ### Blocks -/

/-- A sound context put in place of the served one. -/
theorem State.Sound.setCtx (h : s.Sound) (hc : c.Sound s.par s.tab) : (s.setCtx c).Sound where
  params := h.params
  tables := h.tables
  contexts d hd := by
    rcases List.mem_append.1 hd with hd | hd
    · exact h.contexts d (List.mem_append.2 (.inl hd))
    · rcases List.mem_cons.1 hd with rfl | hd
      · exact hc
      · exact h.contexts d (List.mem_append.2 (.inr (List.mem_cons_of_mem _ hd)))

/-- Another table unit, which is sound and ready if the old one was. -/
theorem State.Sound.setTab (h : s.Sound) (ht : tab'.Sound s.par) (hr : s.tab.ready = true → tab'.ready = true) :
    (s.setTab tab').Sound where
  params := h.params
  tables := ht
  contexts d hd := (h.contexts d hd).mono hr

theorem State.Sound.ctx (h : s.Sound) : s.ctx.Sound s.par s.tab :=
  h.contexts _ (List.mem_append.2 (.inr List.mem_cons_self))

/-- A command of an unfaulted context keeps the block sound. -/
theorem exec_sound {i : Instr} (h : s.Sound) (hf : s.ctx.faulted = false) (ht : exec i s = .next t) : t.Sound := by
  have hclear : s.ctx.faultCode = .clear := by simpa [Context.faulted] using hf
  rcases exec_cases i s with e | ⟨ha, f, hperf, e⟩ | ⟨_, ⟨hr, tab, e, htab⟩ | ⟨_, e⟩ | ⟨_, e⟩⟩ <;>
    obtain rfl := Host.Outcome.next.inj (e.symm.trans ht)
  · exact h.setCtx (h.ctx.raise (by decide) _)
  · exact h.setCtx (hperf.sound ha h.ctx h.params hclear)
  · refine h.setTab ?_ fun hready => absurd (hr.symm.trans hready) (by decide)
    rcases htab with ⟨_, hw, rfl⟩ | hnot
    · exact fun _ => ⟨hw, rfl⟩
    · exact fun hready => absurd (hnot.symm.trans hready) (by decide)
  · exact h
  · exact h.setCtx (h.ctx.raise (by decide) _)

/-- A word on the port of the served context keeps the block sound (R251). -/
theorem runWord_sound {w : Word} (h : s.Sound) (ht : runWord w s = .next t) : t.Sound := by
  cases hf : s.ctx.faulted with
  | true =>
    rw [runWord_of_faulted hf] at ht
    exact Host.Outcome.next.inj ht ▸ h
  | false =>
    rcases hd : decode w with e | i
    · simp only [runWord, hf, hd, Bool.false_eq_true, if_false] at ht
      exact Host.Outcome.next.inj ht ▸ h.setCtx (h.ctx.raise (by decide) _)
    · rw [runWord_of_decode hf hd] at ht
      exact exec_sound h hf ht

/-- Serving a port keeps the block sound (R262). -/
theorem focus_sound {k : Nat} (h : s.Sound) (ht : s.focus k = some t) : t.Sound := by
  obtain ⟨_, _, e⟩ := focus_eq_some ht
  have hpar : t.par = s.par := by rw [e]
  have htab : t.tab = s.tab := by rw [e]
  exact ⟨hpar ▸ h.params, by rw [hpar, htab]; exact h.tables, by rw [focus_contexts ht, hpar, htab]; exact h.contexts⟩

/-- Settles O11, by the three kinds of step. -/
theorem everyStepKeepsSoundness : Obligations.EveryStepKeepsSoundness := by
  intro s t h ht
  rcases step_cases ht with ⟨_, rfl⟩ | ⟨rest, _, rfl⟩ | ⟨k, w, rest, u, _, hfocus, hrun⟩
  · exact h
  · exact State.powerUp_sound h.params _ _ _
  · have hserved : ({ s with inbox := rest } : State).Sound := ⟨h.params, h.tables, h.contexts⟩
    exact runWord_sound (focus_sound hserved hfocus) hrun

/-! ### A finished picture (R218) -/

/-- Walking a chain of length fields up to a field of 0 finds payloads that tile it (R100, R218). -/
theorem SliceChain.walk {m : OutMem} {a b : Nat} (h : SliceChain m a b) (hzero : m.memRead b 3 = 0) {fuel : Nat}
    (hfuel : b < a + fuel) : ∃ slices, walkSlices m fuel a = some slices ∧ Tiles a b slices := by
  induction h generalizing fuel with
  | here a =>
    cases fuel with
    | zero => omega
    | succ fuel => exact ⟨[], by simp [walkSlices, hzero], rfl⟩
  | field a b h3 hrest ih =>
    have hle := hrest.le
    cases fuel with
    | zero => omega
    | succ fuel =>
      obtain ⟨slices, hwalk, htiles⟩ := ih hzero (fuel := fuel) (by omega)
      refine ⟨(a + 3, m.memRead a 3 - 3) :: slices, ?_, rfl, ?_⟩
      · simp only [walkSlices, if_neg (show ¬m.memRead a 3 = 0 by omega), hwalk, Option.map_some]
      · rwa [show a + 3 + (m.memRead a 3 - 3) = a + m.memRead a 3 by omega]

/-- Settles O57: the invariant gives the chain, which the walk follows. -/
theorem finishedPictureReparses : Obligations.FinishedPictureReparses := by
  intro s h hdone hf
  have hc := h.ctx
  have hi : s.ctx.fsm ≠ .idle := by rw [hdone]; decide
  have hclear : s.ctx.faultCode = .clear := by simpa [Context.faulted] using hf
  obtain ⟨_, _, hzero⟩ := hc.openField hi hclear
  obtain ⟨_, hoffset⟩ := hc.header hi hclear
  obtain ⟨hbit, hbyte⟩ : s.ctx.wr.bitCursor = 0 ∧ s.ctx.wr.byteCursor = s.ctx.sliceStart + 3 := by
    simpa [Context.sliceEmpty] using hc.finished hdone hclear
  refine ⟨hbit, hbyte, hzero, ?_⟩
  rw [hoffset]
  have hmax := hc.sliceStartMax
  exact (hc.chain hi hclear).walk hzero (by omega)

end Sys2Proof.Machine
end

section
/-! PROOFS. Statements about every command (spec/60_exceptions.md R240, R245, R250; 45_framer.md R215; 20_memory.md
R66, R69; 10_state.md R21): faults, `FSM`, the bytes and the position of the output, repetition. -/

namespace Sys2Proof.Machine

open Sys2Proof

variable {s t : State} {par : Params} {tab : TableUnit} {c : Context} {i : Instr}

/-! ### Commands whose requirements hold -/

/-- A command that touches no table, its requirements being met, runs its pseudocode (R216, R251). -/
theorem exec_of_accepts (ha : accepts s i = true)
    (hi : i.opcode ≠ .tinit ∧ i.opcode ≠ .lddcp ∧ i.opcode ≠ .ldace) :
    ∃ f, Performs s.par s.tab s.ctx f i ∧ exec i s = .next (s.setCtx f.context) := by
  obtain ⟨h1, h2, h3⟩ := hi
  cases i with
  | tinit => exact absurd rfl h1
  | lddcp => exact absurd rfl h2
  | ldace => exact absurd rfl h3
  | cfg pixfmt width height =>
    have hout := Context.outsidePicture_iff.1 ha
    cases hd : dimensionsValid width height with
    | false => exact ⟨_, .inl ⟨hd, rfl⟩, exec_cfg_invalidDimensions hout hd⟩
    | true =>
      cases hf : formatOfPixfmt pixfmt with
      | none => exact ⟨_, .inr (.inl ⟨hd, rfl⟩), exec_cfg_unsupportedPixelFormat hout hd hf⟩
      | some g => exact ⟨_, .inr (.inr ⟨hd, g, rfl⟩), exec_cfg_latches hout hd hf⟩
  | ldscan k j => exact ⟨_, rfl, exec_ldscan (Context.outsidePicture_iff.1 ha) k j⟩
  | ldcoef blk pos value => exact ⟨_, rfl, exec_ldcoef (of_decide_eq_true ha) pos value⟩
  | ldlast blk last => exact ⟨_, rfl, exec_ldlast (of_decide_eq_true ha) last⟩
  | putb n value =>
    simp only [accepts, Bool.and_eq_true, decide_eq_true_eq, Context.inPicture_iff] at ha
    obtain ⟨⟨⟨hf, hn⟩, h32⟩, hv⟩ := ha
    exact ⟨_, rfl, exec_putb_legal hf ⟨hn, h32, hv⟩⟩
  | flush => exact ⟨_, rfl, exec_flush_inPicture (Context.inPicture_iff.1 ha)⟩
  | encdc cls diff =>
    simp only [accepts, Bool.and_eq_true, Context.inPicture_iff] at ha
    exact ⟨_, rfl, exec_encdc ha.1 ha.2 cls diff⟩
  | encblk n =>
    simp only [accepts, Bool.and_eq_true, decide_eq_true_eq, Context.inPicture_iff] at ha
    exact ⟨_, rfl, exec_encblk ha.1.1 ha.1.2 ha.2⟩
  | encmb =>
    simp only [accepts, Bool.and_eq_true, Context.inPicture_iff] at ha
    exact ⟨_, rfl, exec_encmb ha.1 ha.2⟩
  | beginp q =>
    simp only [accepts, Bool.and_eq_true, decide_eq_true_eq, Context.outsidePicture_iff] at ha
    obtain ⟨⟨⟨⟨hout, hr⟩, hc⟩, hq⟩, h50⟩ := ha
    exact ⟨_, rfl, exec_beginp hout hr hc hq h50⟩
  | endsl => exact ⟨_, rfl, exec_endsl (Context.inPicture_iff.1 ha)⟩
  | endp =>
    simp only [accepts, Bool.and_eq_true, Context.inPicture_iff] at ha
    exact ⟨_, rfl, exec_endp ha.1 ha.2⟩
  | abortp => exact ⟨_, rfl, rfl⟩

/-! ### How the pieces end -/

theorem putBits_ends (par : Params) (t : Site) (n v : Nat) (c : Context) :
    (∃ w, putBits par t n v c = .ran (c.setWriter w)) ∨
      putBits par t n v c = .raised (c.raise .outputOverflow t) := by
  rcases putBits_cases par t n v c with ⟨_, e⟩ | ⟨_, e⟩
  · exact .inl ⟨_, e⟩
  · exact .inr e

theorem encodeDC_ends (par : Params) (tab : TableUnit) (t : Site) (cls : DcClass) (diff : Int) (c : Context) :
    (∃ w, encodeDC par tab t cls diff c = .ran (c.setWriter w)) ∨
      ∃ code, (code = .internalInvariantViolated ∨ code = .outputOverflow) ∧
        encodeDC par tab t cls diff c = .raised (c.raise code t) := by
  have hput : ∀ n v, (∃ w, putBits par t n v c = .ran (c.setWriter w)) ∨
      ∃ code, (code = .internalInvariantViolated ∨ code = .outputOverflow) ∧
        putBits par t n v c = .raised (c.raise code t) :=
    fun n v => (putBits_ends par t n v c).imp id fun e => ⟨_, .inr rfl, e⟩
  unfold encodeDC
  split
  · exact hput ..
  · split
    · exact .inr ⟨_, .inl rfl, rfl⟩
    · exact hput ..

/-- A context on the way through `BEGINP`'s body (R211). -/
def Context.starting (c : Context) (q : BitVec 8) (w : Writer) (n : Nat) : Context :=
  { c with wr := w, qscale := q, sliceStart := n }

/-- The body of `BEGINP` from the context it starts with. -/
theorem beginPicture_eq (par : Params) (q : BitVec 8) (c : Context) :
    beginPicture par q c =
      ((putBits par (.plain 0x30) 8 (100 - 2 * q.toNat) (c.starting q ⟨c.wr.out, 0, 0⟩ c.sliceStart)).andThen
        (putBits par (.plain 0x30) 24 4)).andThen fun d =>
      (putBits par (.plain 0x30) 24 0 (d.setSliceStart d.wr.byteCursor)).andThen fun d =>
      .ran ((d.resetLastDc par).setFsm .inPicture) := rfl

/-- What `BEGINP`'s body can do whatever the capacity (R211, R247). -/
theorem beginPicture_cases (par : Params) (q : BitVec 8) (c : Context) :
    (∃ w n, beginPicture par q c =
      .raised ((c.starting q w n).raise .outputOverflow (.plain 0x30))) ∨
    ∃ w n, beginPicture par q c =
      .ran (((c.starting q w n).resetLastDc par).setFsm .inPicture) := by
  have hput : ∀ k v w n,
      (∃ w', putBits par (.plain 0x30) k v (c.starting q w n) = .ran (c.starting q w' n)) ∨
        putBits par (.plain 0x30) k v (c.starting q w n) =
          .raised ((c.starting q w n).raise .outputOverflow (.plain 0x30)) :=
    fun k v w n => putBits_ends par (.plain 0x30) k v (c.starting q w n)
  rw [beginPicture_eq]
  rcases hput 8 (100 - 2 * q.toNat) ⟨c.wr.out, 0, 0⟩ c.sliceStart with ⟨w₁, e₁⟩ | e₁
  · rw [e₁, Flow.andThen_ran]
    rcases hput 24 4 w₁ c.sliceStart with ⟨w₂, e₂⟩ | e₂
    · rw [e₂, Flow.andThen_ran]
      rcases hput 24 0 w₂ w₂.byteCursor with ⟨w₃, e₃⟩ | e₃
      · exact .inr ⟨w₃, w₂.byteCursor, congrArg (Flow.andThen · _) e₃⟩
      · exact .inl ⟨w₂, w₂.byteCursor, congrArg (Flow.andThen · _) e₃⟩
    · exact .inl ⟨w₁, c.sliceStart, congrArg (Flow.andThen · _) e₂⟩
  · exact .inl ⟨_, c.sliceStart, by rw [e₁]; rfl⟩

/-! ### Faults (R240, R245, R250) -/

/-- What a command with its requirements met may raise, and at which site (R240, R250). -/
def RaiseAllowed (i : Instr) (code : FaultCode) (site : Site) : Prop :=
  mayRaise code i = true ∧ code ≠ .contractViolation ∧ site.opcode = i.opcode.code ∧
    (i.opcode ≠ .encblk → i.opcode ≠ .encmb → site = .plain i.opcode.code)

/-- `c'` has the fault code of `c`, or a fault of command `i` was entered. -/
def RaisesAs (i : Instr) (c c' : Context) : Prop :=
  c'.faultCode = c.faultCode ∨
    ∃ (d : Context) (code : FaultCode) (site : Site), RaiseAllowed i code site ∧ c' = d.raise code site

theorem RaisesAs.plain (c d : Context) {code : FaultCode} (h : mayRaise code i = true)
    (hc : code ≠ .contractViolation) : RaisesAs i c (d.raise code (.plain i.opcode.code)) :=
  .inr ⟨d, code, _, ⟨h, hc, rfl, fun _ _ => rfl⟩, rfl⟩

/-- The block encoders raise two faults, under their own opcode (R183, R201). -/
theorem Flow.Encodes.raisesAs {f : Flow} (h : Flow.Encodes par i.opcode.code c f)
    (hi : i.opcode = .encblk ∨ i.opcode = .encmb) : RaisesAs i c f.context := by
  obtain ⟨bits, dc, _, rfl | ⟨code, site, hcode, hop, rfl⟩⟩ := h
  · exact .inl rfl
  · refine .inr ⟨_, code, site, ⟨?_, ?_, hop, fun h1 h2 => (hi.elim h1 h2).elim⟩, rfl⟩
    · rcases hcode with rfl | rfl <;> rcases hi with h | h <;> simp [mayRaise, h]
    · rcases hcode with rfl | rfl <;> decide

theorem Performs.raisesAs {f : Flow} (h : Performs par tab c f i) : RaisesAs i c f.context := by
  cases i with
  | tinit | lddcp | ldace => exact h.elim
  | cfg pixfmt width height =>
    rcases h with ⟨_, rfl⟩ | ⟨_, rfl⟩ | ⟨_, g, rfl⟩
    · exact RaisesAs.plain c c rfl (by decide)
    · exact RaisesAs.plain c c rfl (by decide)
    · exact .inl rfl
  | ldscan | ldcoef | ldlast | flush | endp | abortp =>
    obtain rfl := h
    exact .inl rfl
  | putb n value =>
    obtain rfl := h
    rcases putBits_ends par (.plain 0x10) n.toNat value.toNat c with ⟨w, e⟩ | e <;> rw [e]
    · exact .inl rfl
    · exact RaisesAs.plain c c rfl (by decide)
  | encdc cls diff =>
    obtain rfl := h
    rcases encodeDC_ends par tab (.plain 0x20) cls (sext32 diff) c with ⟨w, e⟩ | ⟨code, rfl | rfl, e⟩ <;> rw [e]
    · exact .inl rfl
    · exact RaisesAs.plain c c rfl (by decide)
    · exact RaisesAs.plain c c rfl (by decide)
  | encblk => exact (h.encodes (by simp [Instr.opcode])).raisesAs (.inl rfl)
  | encmb => exact (h.encodes (by simp [Instr.opcode])).raisesAs (.inr rfl)
  | beginp q =>
    obtain rfl := h
    rcases beginPicture_cases par q c with ⟨w, n, e⟩ | ⟨w, n, e⟩ <;> rw [e]
    · exact RaisesAs.plain c _ rfl (by decide)
    · exact .inl rfl
  | endsl =>
    obtain rfl := h
    rcases endSlice_cases par c with ⟨_, e⟩ | ⟨_, _, e⟩ | ⟨_, _, e⟩ <;> rw [e]
    · exact RaisesAs.plain c _ rfl (by decide)
    · exact RaisesAs.plain c _ rfl (by decide)
    · generalize c.patched.emit (bitsOf 24 0) = w
      exact .inl rfl

/-- A command with its requirements met keeps the fault code, or raises as R240 and R250 say. -/
theorem exec_raisesAs (ha : accepts s i = true) (ht : exec i s = .next t) : RaisesAs i s.ctx t.ctx := by
  by_cases hi : i.opcode ≠ .tinit ∧ i.opcode ≠ .lddcp ∧ i.opcode ≠ .ldace
  · obtain ⟨f, hperf, e⟩ := exec_of_accepts ha hi
    obtain rfl := Host.Outcome.next.inj (e.symm.trans ht)
    exact hperf.raisesAs
  · cases i with
    | tinit =>
      cases hr : s.tab.ready with
      | true =>
        obtain rfl := Host.Outcome.next.inj ((exec_tinit_of_ready hr).symm.trans ht)
        exact .inl rfl
      | false =>
        cases hw : tablesWellFormed s.par s.tab with
        | true =>
          obtain rfl := Host.Outcome.next.inj ((exec_tinit_builds hr hw).symm.trans ht)
          exact .inl rfl
        | false =>
          obtain rfl := Host.Outcome.next.inj ((exec_tinit_rejects hr hw).symm.trans ht)
          exact RaisesAs.plain _ s.ctx rfl (by decide)
    | lddcp cls cat len code =>
      simp only [accepts, Bool.and_eq_true, Bool.not_eq_true', decide_eq_true_eq] at ha
      obtain rfl := Host.Outcome.next.inj ((exec_lddcp cls len code ha.1 ha.2).symm.trans ht)
      exact .inl rfl
    | ldace idx run level len code =>
      simp only [accepts, Bool.and_eq_true, Bool.not_eq_true', decide_eq_true_eq] at ha
      obtain rfl := Host.Outcome.next.inj ((exec_ldace run level len code ha.1 ha.2).symm.trans ht)
      exact .inl rfl
    | cfg | ldscan | ldcoef | ldlast | putb | flush | encdc | encblk | encmb | beginp | endsl | endp | abortp =>
      exact absurd ⟨nofun, nofun, nofun⟩ hi

/-- Where the fault of a command came from: an unmet requirement, or the command's own rule. -/
theorem fault_cases (hs : s.ctx.faulted = false) (ht : exec i s = .next t) (hf : t.ctx.faulted = true) :
    (accepts s i = false ∧ t.ctx = s.ctx.raise .contractViolation (.plain i.opcode.code)) ∨
      ∃ (c : Context) (code : FaultCode) (site : Site), RaiseAllowed i code site ∧ t.ctx = c.raise code site := by
  cases ha : accepts s i with
  | false =>
    obtain rfl := Host.Outcome.next.inj ((exec_of_not_accepts ha).symm.trans ht)
    exact .inl ⟨rfl, rfl⟩
  | true =>
    rcases exec_raisesAs ha ht with hkept | hraised
    · rw [Context.faulted, hkept, ← Context.faulted, hs] at hf
      cases hf
    · exact .inr hraised

/-- Settles O51, by where the fault came from; `TINIT` and `ABORTP` have no requirement to fail. -/
theorem faultsComeOnlyFromTheirCommands : Obligations.FaultsComeOnlyFromTheirCommands := by
  intro s t i hs ht hf
  rcases fault_cases hs ht hf with ⟨ha, e⟩ | ⟨c, code, site, ⟨hmay, hnot, _, _⟩, e⟩ <;> rw [e]
  · refine ⟨?_, fun ha' => absurd (ha.symm.trans ha') (by decide)⟩
    have hi : i.opcode ≠ .tinit ∧ i.opcode ≠ .abortp := by
      constructor <;> intro h <;> cases i <;> simp [Instr.opcode, accepts] at h ha
    simp [mayRaise, hi]
  · exact ⟨hmay, fun _ => hnot⟩

/-- Settles O52, by where the fault came from. -/
theorem faultInfoNamesTheCommand : Obligations.FaultInfoNamesTheCommand := by
  intro s t i hs ht hf
  have hplain : (Site.plain i.opcode.code).info.extractLsb' 14 10 = 0 := by
    rw [Site.info_plain, extract_low (w := 24) _ _ _ _ (by decide)]
    rfl
  have hlow : ∀ site : Site, site.info.extractLsb' 0 14 = 0 := fun site => extract_last ..
  rcases fault_cases hs ht hf with ⟨_, e⟩ | ⟨c, code, site, ⟨_, _, hop, hsite⟩, e⟩ <;>
    rw [e, Context.raise_faultInfo]
  · exact ⟨Site.info_opcode _, hlow _, fun _ _ => hplain⟩
  · exact ⟨(Site.info_opcode site).trans hop, hlow site, fun h1 h2 => hsite h1 h2 ▸ hplain⟩

/-! ### Moves of `FSM` (R215) -/

theorem FsmMove.stay (a : Fsm) (i : Instr) : FsmMove a i a := by
  cases i with
  | abortp => cases a <;> trivial
  | _ => cases a <;> rfl

/-- Only the three framing commands write `FSM` (R211, R213, R214). -/
theorem Performs.fsm_kept {f : Flow} (h : Performs par tab c f i)
    (hi : i.opcode ≠ .beginp ∧ i.opcode ≠ .endp ∧ i.opcode ≠ .abortp) : f.context.fsm = c.fsm := by
  have hemits : ∀ {op f}, Flow.Encodes par op c f → f.context.fsm = c.fsm := by
    rintro _ _ ⟨bits, dc, _, rfl | ⟨code, site, _, _, rfl⟩⟩ <;> rfl
  cases i with
  | tinit | lddcp | ldace => exact h.elim
  | cfg pixfmt width height => rcases h with ⟨_, rfl⟩ | ⟨_, rfl⟩ | ⟨_, g, rfl⟩ <;> rfl
  | ldscan | ldcoef | ldlast | flush => obtain rfl := h; rfl
  | putb | encdc | encblk | encmb => exact hemits (h.encodes (by simp [Instr.opcode]))
  | endsl =>
    obtain rfl := h
    rcases endSlice_cases par c with ⟨_, e⟩ | ⟨_, _, e⟩ | ⟨_, _, e⟩ <;> rw [e]
    · rfl
    · rfl
    · generalize c.patched.emit (bitsOf 24 0) = w
      rfl
  | beginp => exact absurd rfl hi.1
  | endp => exact absurd rfl hi.2.1
  | abortp => exact absurd rfl hi.2.2

/-- A command with its requirements met moves `FSM` along the table (R215). -/
theorem Performs.fsmMove {f : Flow} (h : Performs s.par s.tab s.ctx f i) (ha : accepts s i = true) :
    FsmMove s.ctx.fsm i f.context.fsm := by
  by_cases hi : i.opcode ≠ .beginp ∧ i.opcode ≠ .endp ∧ i.opcode ≠ .abortp
  · exact h.fsm_kept hi ▸ FsmMove.stay ..
  · cases i with
    | beginp q =>
      simp only [accepts, Bool.and_eq_true, Context.outsidePicture_iff] at ha
      obtain ⟨⟨⟨⟨hout, _⟩, _⟩, _⟩, _⟩ := ha
      obtain rfl := h
      rcases beginPicture_cases s.par q s.ctx with ⟨w, n, e⟩ | ⟨w, n, e⟩ <;> rw [e]
      · exact FsmMove.stay ..
      · rcases hout with hout | hout <;> rw [hout] <;> trivial
    | endp =>
      simp only [accepts, Bool.and_eq_true, Context.inPicture_iff] at ha
      obtain rfl := h
      rw [ha.1]
      trivial
    | abortp =>
      obtain rfl := h
      cases hs : s.ctx.fsm <;> trivial
    | tinit | lddcp | ldace | cfg | ldscan | ldcoef | ldlast | putb | flush | encdc | encblk | encmb | endsl =>
      exact absurd ⟨nofun, nofun, nofun⟩ hi

/-- Settles O53: a command either keeps `FSM` or is one of the three that write it. -/
theorem framerMovesOnlyAlongItsTable : Obligations.FramerMovesOnlyAlongItsTable := by
  intro s t i ht
  rcases exec_cases i s with e | ⟨ha, f, hperf, e⟩ | ⟨_, ⟨_, _, e, _⟩ | ⟨_, e⟩ | ⟨_, e⟩⟩ <;>
    obtain rfl := Host.Outcome.next.inj (e.symm.trans ht)
  · exact FsmMove.stay ..
  · exact hperf.fsmMove ha
  · exact FsmMove.stay ..
  · exact FsmMove.stay ..
  · exact FsmMove.stay ..

/-! ### The output inside a picture (R21, R69) -/

/-- What a command inside a picture may leave as the bit writer `w`: bits appended (perhaps none), a flush, the
back-patch of `ENDSL` with what it appends, or the rewind of `ABORTP`. -/
def Context.PictureWrite (c : Context) (i : Instr) (w : Writer) : Prop :=
  (∃ bits, w = c.wr.emit bits) ∨ w = c.wr.flush ∨ (∃ bits, w = c.patched.emit bits) ∨
    (i = .abortp ∧ w = ⟨c.wr.out, 0, 0⟩)

theorem Context.PictureWrite.kept (c : Context) (i : Instr) : c.PictureWrite i c.wr := .inl ⟨[], rfl⟩

theorem Performs.pictureWrite {f : Flow} (h : Performs s.par s.tab s.ctx f i) (ha : accepts s i = true)
    (hp : s.ctx.fsm = .inPicture) : s.ctx.PictureWrite i f.context.wr := by
  have hemits : ∀ {op f}, Flow.Encodes s.par op s.ctx f → s.ctx.PictureWrite i f.context.wr := by
    rintro _ _ ⟨bits, dc, _, rfl | ⟨code, site, _, _, rfl⟩⟩ <;> exact .inl ⟨bits, rfl⟩
  have hinside : s.ctx.outsidePicture ≠ true := by simp [Context.outsidePicture_iff, hp]
  cases i with
  | tinit | lddcp | ldace => exact h.elim
  | cfg | ldscan => exact absurd ha hinside
  | beginp =>
    simp only [accepts, Bool.and_eq_true] at ha
    exact absurd ha.1.1.1.1 hinside
  | ldcoef | ldlast | endp => obtain rfl := h; exact .kept ..
  | putb | encdc | encblk | encmb => exact hemits (h.encodes (by simp [Instr.opcode]))
  | flush => obtain rfl := h; exact .inr (.inl rfl)
  | endsl =>
    obtain rfl := h
    rcases endSlice_cases s.par s.ctx with ⟨_, e⟩ | ⟨_, _, e⟩ | ⟨_, _, e⟩ <;> rw [e]
    · exact .inr (.inl rfl)
    · exact .inr (.inr (.inl ⟨[], rfl⟩))
    · exact .inr (.inr (.inl ⟨bitsOf 24 0, by rw [Flow.context_ran]⟩))
  | abortp => obtain rfl := h; exact .inr (.inr (.inr ⟨rfl, rfl⟩))

/-- Every command inside a picture leaves the bit writer in one of four ways. -/
theorem exec_pictureWrite (hp : s.ctx.fsm = .inPicture) (ht : exec i s = .next t) :
    s.ctx.PictureWrite i t.ctx.wr := by
  rcases exec_cases i s with e | ⟨ha, f, hperf, e⟩ | ⟨_, ⟨_, _, e, _⟩ | ⟨_, e⟩ | ⟨_, e⟩⟩ <;>
    obtain rfl := Host.Outcome.next.inj (e.symm.trans ht)
  · exact .kept ..
  · exact hperf.pictureWrite ha hp
  · exact .kept ..
  · exact .kept ..
  · exact .kept ..

/-- Settles O54: appends and the placeholder stay at or after the cursor, the back-patch inside the length
field. -/
theorem writtenBytesOfThePictureAreFinal : Obligations.WrittenBytesOfThePictureAreFinal := by
  intro s t i hp hfield ht a ha
  rcases exec_pictureWrite hp ht with ⟨bits, e⟩ | e | ⟨bits, e⟩ | ⟨_, e⟩ <;> rw [e]
  · exact Writer.emit_read_below _ _ (by omega)
  · rw [Writer.flush_out]
  · have hend := s.ctx.byteCursor_le_sliceEnd
    have hcursor : s.ctx.patched.byteCursor = s.ctx.sliceEnd := rfl
    rw [Writer.emit_read_below _ _ (by omega)]
    exact OutMem.read_memWrite_three _ _ (by omega)

/-- Settles O55: only `ABORTP` rewinds. -/
theorem writePositionNeverMovesBack : Obligations.WritePositionNeverMovesBack := by
  intro s t i hp hi ht
  rcases exec_pictureWrite hp ht with ⟨bits, e⟩ | e | ⟨bits, e⟩ | ⟨habort, _⟩
  · rw [e, Writer.emit_bitPos]
    exact Nat.le_add_right ..
  · rw [e, Writer.flush_bitPos]
    omega
  · have hpatched : s.ctx.patched.bitPos = 8 * ((s.ctx.wr.bitPos + 7) / 8) := rfl
    rw [e, Writer.emit_bitPos, hpatched]
    omega
  · exact absurd habort hi

/-! ### Repetition (R66) -/

/-- The idempotent commands of R66 run again on what they left, with their requirements met and no fault
raised. -/
theorem exec_again (hi : i.opcode ∈
      [Opcode.tinit, .flush, .cfg, .abortp, .lddcp, .ldace, .ldscan, .ldcoef, .ldlast])
    (ha : accepts s i = true) (ht : exec i s = .next t) (hf : t.ctx.faulted = false) :
    exec i t = .next t := by
  cases i with
  | tinit =>
    cases hr : s.tab.ready with
    | true =>
      obtain rfl := Host.Outcome.next.inj ((exec_tinit_of_ready hr).symm.trans ht)
      exact exec_tinit_of_ready hr
    | false =>
      cases hw : tablesWellFormed s.par s.tab with
      | true =>
        obtain rfl := Host.Outcome.next.inj ((exec_tinit_builds hr hw).symm.trans ht)
        exact exec_tinit_of_ready rfl
      | false =>
        obtain rfl := Host.Outcome.next.inj ((exec_tinit_rejects hr hw).symm.trans ht)
        cases hf
  | cfg pixfmt width height =>
    have hout := Context.outsidePicture_iff.1 ha
    cases hd : dimensionsValid width height with
    | false =>
      obtain rfl := Host.Outcome.next.inj ((exec_cfg_invalidDimensions hout hd).symm.trans ht)
      cases hf
    | true =>
      cases hg : formatOfPixfmt pixfmt with
      | none =>
        obtain rfl := Host.Outcome.next.inj ((exec_cfg_unsupportedPixelFormat hout hd hg).symm.trans ht)
        cases hf
      | some g =>
        obtain rfl := Host.Outcome.next.inj ((exec_cfg_latches hout hd hg).symm.trans ht)
        exact exec_cfg_latches hout hd hg
  | lddcp cls cat len code =>
    simp only [accepts, Bool.and_eq_true, Bool.not_eq_true', decide_eq_true_eq] at ha
    obtain rfl := Host.Outcome.next.inj ((exec_lddcp cls len code ha.1 ha.2).symm.trans ht)
    refine Eq.trans (exec_lddcp cls len code (by exact ha.1) (by exact ha.2)) ?_
    simp only [State.setTab_tab, Tbl.set_set]
    rfl
  | ldace idx run level len code =>
    simp only [accepts, Bool.and_eq_true, Bool.not_eq_true', decide_eq_true_eq] at ha
    obtain rfl := Host.Outcome.next.inj ((exec_ldace run level len code ha.1 ha.2).symm.trans ht)
    refine Eq.trans (exec_ldace run level len code (by exact ha.1) (by exact ha.2)) ?_
    simp only [State.setTab_tab, Tbl.set_set]
    rfl
  | ldscan k j =>
    have hout := Context.outsidePicture_iff.1 ha
    obtain rfl := Host.Outcome.next.inj ((exec_ldscan hout k j).symm.trans ht)
    refine Eq.trans (exec_ldscan (by exact hout) k j) ?_
    simp only [State.setCtx_ctx, Tbl.set_set, State.setCtx_setCtx]
  | ldcoef blk pos value =>
    have hblk : blk.toNat ≤ 11 := of_decide_eq_true ha
    obtain rfl := Host.Outcome.next.inj ((exec_ldcoef hblk pos value).symm.trans ht)
    refine Eq.trans (exec_ldcoef hblk pos value) ?_
    simp only [State.setCtx_ctx, Tbl.set_set, State.setCtx_setCtx]
  | ldlast blk last =>
    have hblk : blk.toNat ≤ 11 := of_decide_eq_true ha
    obtain rfl := Host.Outcome.next.inj ((exec_ldlast hblk last).symm.trans ht)
    refine Eq.trans (exec_ldlast hblk last) ?_
    simp only [State.setCtx_ctx, Tbl.set_set, State.setCtx_setCtx]
  | flush =>
    have hp := Context.inPicture_iff.1 ha
    obtain rfl := Host.Outcome.next.inj ((exec_flush_inPicture hp).symm.trans ht)
    have hp' : (s.setCtx (flushBits s.ctx)).ctx.fsm = .inPicture := hp
    rw [exec_flush_inPicture hp', State.setCtx_ctx, flushBits_flushBits, State.setCtx_setCtx]
  | abortp =>
    obtain rfl := Host.Outcome.next.inj ht
    rfl
  | putb | encdc | encblk | encmb | beginp | endsl | endp => simp [Instr.opcode] at hi

/-- Settles O56: a first run that ends faulted makes the prologue drop the second, and any other met the command's
requirements. -/
theorem idempotentCommands : Obligations.IdempotentCommands := by
  intro s t i hi ht
  cases hf : t.ctx.faulted with
  | true => exact runCommand_of_faulted hf i
  | false =>
    cases hs : s.ctx.faulted with
    | true =>
      obtain rfl := Host.Outcome.next.inj ((runCommand_of_faulted hs i).symm.trans ht)
      exact runCommand_of_faulted hs i
    | false =>
      rw [runCommand_of_unfaulted hs] at ht
      rw [runCommand_of_unfaulted hf]
      cases ha : accepts s i with
      | true => exact exec_again hi ha ht hf
      | false =>
        obtain rfl := Host.Outcome.next.inj ((exec_of_not_accepts ha).symm.trans ht)
        cases hf

end Sys2Proof.Machine
end

section
/-! PROOFS. Statements about the host read port (spec/20_memory.md R60, R74; 10_state.md R31, R32). -/

namespace Sys2Proof.Machine

open Sys2Proof

variable {s : State} {k : Nat} {c : Context}

/-- A read on the port of a context there is (R262). -/
theorem State.hostRead_of_context (hget : s.contexts[k]? = some c) (space index : Nat) :
    s.hostRead k space index = some (c.hostRead s.par s.tab space index) := by
  rw [State.hostRead, hget, Option.map_some]

/-- Fields side by side, the second low, as a sum. -/
theorem toNat_append_eq_add {m n : Nat} (x : BitVec m) (y : BitVec n) :
    (x ++ y).toNat = x.toNat * 2 ^ n + y.toNat := by
  rw [BitVec.toNat_append, ← Nat.shiftLeft_add_eq_or_of_lt y.isLt, Nat.shiftLeft_eq]

/-- Leading zeros of a word change nothing. -/
theorem toNat_zero_append {n : Nat} (m : Nat) (y : BitVec n) : (0#m ++ y).toNat = y.toNat := by
  rw [toNat_append_eq_add, BitVec.toNat_ofNat, Nat.zero_mod, Nat.zero_mul, Nat.zero_add]

theorem DcpfxEntry.pack_toNat (e : DcpfxEntry) : e.pack.toNat = e.len.toNat * 2 ^ 16 + e.code.toNat := by
  rw [pack, toNat_append_eq_add, toNat_zero_append]

theorem VlcEntry.pack_toNat (e : VlcEntry) : e.pack.toNat = e.len.toNat * 2 ^ 16 + e.code.toNat := by
  rw [pack, toNat_append_eq_add, toNat_zero_append]

theorem AceEntry.pack_toNat (e : AceEntry) :
    e.pack.toNat = e.run.toNat * 2 ^ 28 + e.level.toNat * 2 ^ 21 + e.len.toNat * 2 ^ 16 + e.code.toNat := by
  rw [pack, toNat_append_eq_add, toNat_append_eq_add, toNat_append_eq_add, toNat_zero_append]
  omega

/-- `STATUS` as the sum of its fields at their places (R32). -/
theorem Context.status_toNat (tab : TableUnit) (c : Context) :
    (c.status tab).toNat =
      c.fsm.code.toNat + 4 * tab.ready.toNat + 8 * c.cfgValid.toNat + 16 * c.faulted.toNat := by
  rw [Context.status, toNat_append_eq_add, toNat_append_eq_add, toNat_append_eq_add, toNat_zero_append,
    BitVec.toNat_ofBool, BitVec.toNat_ofBool, BitVec.toNat_ofBool]
  omega

theorem inSpace_toNat (size index : Nat) (v : BitVec 64) :
    (inSpace size index v).toNat = if index < size then v.toNat else 0 := by
  rw [inSpace, apply_ite BitVec.toNat]
  rfl

theorem toNat_setWidth_64 {n : Nat} (v : BitVec n) (h : n ≤ 64 := by decide) :
    (v.setWidth 64).toNat = v.toNat :=
  BitVec.toNat_setWidth_of_le h

theorem toNat_ofNat_64 {n : Nat} (h : n < 2 ^ 64) : (BitVec.ofNat 64 n).toNat = n := by
  rw [BitVec.toNat_ofNat, Nat.mod_eq_of_lt h]

theorem toInt_signExtend_64 (v : BitVec 16) : (v.signExtend 64).toInt = sext16 v :=
  BitVec.toInt_signExtend_of_le (by decide)

/-- Settles O58, register by register. -/
theorem hostReadOfRegisters : Obligations.HostReadOfRegisters := by
  intro s k c hget hpos hstart
  have hbit : c.wr.bitPos = 8 * c.wr.byteCursor + c.wr.bitCursor.val := rfl
  have hread := fun j => State.hostRead_of_context hget 0 j
  refine ⟨⟨_, hread 0, (toNat_setWidth_64 (c.status s.tab)).trans (c.status_toNat s.tab)⟩,
    ⟨_, hread 1, toNat_setWidth_64 c.faultCode.code⟩, ⟨_, hread 2, toNat_setWidth_64 c.faultInfo⟩,
    ⟨_, hread 3, toNat_setWidth_64 c.qscale⟩, ⟨_, hread 4, toNat_setWidth_64 c.chromaFormat.code⟩,
    fun i hi => ⟨_, hread (5 + i), ?lastDc⟩, ⟨_, hread 8, toNat_ofNat_64 hstart⟩,
    ⟨_, hread 9, toNat_ofNat_64 (by omega)⟩, ⟨_, hread 10, toNat_ofNat_64 (by omega)⟩,
    ⟨_, hread 11, toNat_ofNat_64 hpos⟩, ⟨_, hread 12, toNat_setWidth_64 c.width⟩,
    ⟨_, hread 13, toNat_setWidth_64 c.height⟩, fun j hj => ?beyond⟩
  case lastDc =>
    match i, hi with
    | 0, _ => exact toInt_signExtend_64 _
    | 1, _ => exact toInt_signExtend_64 _
    | 2, _ => exact toInt_signExtend_64 _
  case beyond =>
    obtain ⟨m, rfl⟩ := Nat.exists_eq_add_of_le' hj
    exact hread (m + 14)

/-- Settles O59, space by space: the element inside the space, 0 past its end. -/
theorem hostReadOfMemories : Obligations.HostReadOfMemories := by
  intro s k c hget rd
  have hrd : ∀ space j, rd space j = some (c.hostRead s.par s.tab space j).toNat := fun space j =>
    congrArg (Option.map BitVec.toNat) (State.hostRead_of_context hget space j)
  have hspace : ∀ {space size j v m}, c.hostRead s.par s.tab space j = inSpace size j v → v.toNat = m →
      rd space j = some (if j < size then m else 0) := by
    intro space size j v m hv hm
    rw [hrd, hv, inSpace_toNat, hm]
  refine ⟨fun j => hspace rfl (toNat_setWidth_64 _), fun j => hspace rfl (toNat_setWidth_64 _),
    fun j => hspace rfl (toNat_setWidth_64 _), fun j => hspace rfl (VlcEntry.pack_toNat _),
    fun j => hspace rfl (toNat_setWidth_64 _), fun j => hspace rfl (toNat_setWidth_64 _),
    fun j => hspace rfl (toNat_setWidth_64 _), fun n p hn hp => ?coef, fun j hj => ?coefBeyond,
    fun j => hspace rfl (toNat_setWidth_64 _), fun j => hspace rfl (toNat_setWidth_64 _),
    fun cls cat hcat => ?dcpfx, fun j hj => ?dcpfxBeyond, fun j => hspace rfl (AceEntry.pack_toNat _)⟩
  case coef =>
    have hin : c.hostRead s.par s.tab 8 (64 * n + p) = (Tbl.get c.coef (64 * n + p)).signExtend 64 :=
      if_pos (by omega)
    rw [State.hostRead_of_context hget, hin, Option.map_some, toInt_signExtend_64]
    rfl
  case coefBeyond =>
    have hbeyond : c.hostRead s.par s.tab 8 j = 0 := if_neg (by omega)
    rw [hrd, hbeyond]
    rfl
  case dcpfx =>
    have hmod : (16 * classNumber cls + cat) % 16 = cat := by omega
    have hlisted : c.hostRead s.par s.tab 11 (16 * classNumber cls + cat) =
        if cat < s.par.dcNcat then (s.tab.dcpfxAt cls cat).pack else 0 := by
      rw [Context.hostRead, hmod, inSpace, if_pos (dcpfxIndex_lt cls hcat)]
      rfl
    rw [hrd, hlisted, apply_ite BitVec.toNat, DcpfxEntry.pack_toNat]
    rfl
  case dcpfxBeyond =>
    have hbeyond : c.hostRead s.par s.tab 11 j = 0 := by
      rw [Context.hostRead, inSpace, if_neg (show ¬ j < 32 by omega), ite_self]
    rw [hrd, hbeyond]
    rfl

end Sys2Proof.Machine
end
